-- ==== Sys2Proof/Word.lean ====
section
/-! DEFINITION. The plain value types of the block: bytes, pin numbers and channel numbers. -/

namespace Sys2Proof

/-- A byte, bit 7 most significant (R11). -/
abbrev Byte := BitVec 8

/-- A 32-bit wire word, bit 31 most significant and first sent (R11, R41). -/
abbrev Word := BitVec 32

/-- A GPIO pin number 0..29 (R35). The sentinel −1 names no pin and is no `Pin`. -/
abbrev Pin := Fin 30

/-- A hardware serial peripheral channel number, 0 or 1 (R35). -/
abbrev Channel := Fin 2

end Sys2Proof
end

