-- ==== Sys2Proof/Config.lean ====
section
/-! DEFINITION. The implementation parameters of R10: the values the spec fixes, the open parameters, and the
bodiless constants that stand for what nothing in the spec fixes. -/

namespace Sys2Proof

/-- SPI_MODE (R10, D11): clock polarity and phase of the hardware path. No source gives them. -/
structure SpiMode where
  cpol : Bool
  cpha : Bool
deriving DecidableEq, Repr, Inhabited

/-- The OPEN parameters of R10 that a model takes as arguments (log 8). No operation writes them. -/
structure Params where
  /-- N_MAX, the upper bound on the number of LED frames; `none` is the spec's default, unbounded (D13). -/
  nMax : Option Nat
  /-- T_HOLD_US, the clock-stretch delay in microseconds (D4). -/
  tHoldUs : Nat
  /-- SPI_MODE (D11). -/
  spiMode : SpiMode
deriving DecidableEq, Repr

namespace Config

/-- PIN_MIN (R10). -/
def pinMin : Int := 0

/-- PIN_MAX (R10). -/
def pinMax : Int := 29

/-- CS_NONE (R10): the sentinel for "no chip-select pin". -/
def csNone : Int := -1

/-- HW_FREQ_HZ (R10, R17): the frequency of the hardware option, not selectable by any operation. -/
def hwFreqHz : Nat := 500000

/-- START_BYTES (R10): the number of 0x00 bytes of the start frame. -/
def startBytes : Nat := 4

/-- LED_FRAME_BYTES (R10). -/
def ledFrameBytes : Nat := 4

/-- END_BYTE (R10). -/
def endByte : Byte := 0xFF

/-- DESIGN CHOICE (log 4): FAIL (R10, R99), the answer of a call for which State scripts none; `true` is failed. Safe. -/
opaque freeFail : Nat → Bool

/-- DESIGN CHOICE (log 4): CHUNKS (R10, R93), a chunk-size draw for which State scripts none. Safe. -/
opaque freeChunk : Nat → Nat

/-- DESIGN CHOICE (log 4): the order of mode calls (R71), a draw for which State scripts none. Safe. -/
opaque freeOrder : Nat → Nat

/-- DESIGN CHOICE (log 4): SCLK_INIT_LEVEL (R10, R91, R118), a draw for which State scripts none. Safe. -/
opaque freeWasLow : Nat → Bool

/-- DESIGN CHOICE (log 4): how much of a failed SpiWrite reached the wire (R100), a draw for which State scripts
none. Safe. -/
opaque freeSpiBits : Nat → Nat

/-- T_HOLD_US at reset (D4, log 8): no source gives a value, so none is chosen. -/
opaque tHoldUs : Nat

/-- SPI_MODE at reset (D11, log 8): no source gives it, so none is chosen. -/
opaque spiMode : SpiMode

/-- PIN_SCHEME (D1, log 16): the physical pin a pin number names. No rule, and so no definition, reads it. -/
opaque physicalPin : Pin → Nat

/-- The parameters at reset: N_MAX at the spec's default, the others at their bodiless constants (log 8). -/
def resetParams : Params := { nMax := none, tHoldUs := tHoldUs, spiMode := spiMode }

end Config

end Sys2Proof
end

