-- ==== Sys2Proof/Syntax.lean ====
section
/-! DEFINITION. The instructions: one constructor per row of spec/opcode_table.json, and the two written forms the
spec gives them (wire bytes for the wire formats, program lines for the operations). -/

namespace Sys2Proof

/-- R28: an LED record. The 5-bit brightness makes the 0b111 prefix of its wire form hold by construction (D12). -/
structure LedFrame where
  brightness : BitVec 5
  blue : Byte
  green : Byte
  red : Byte
deriving DecidableEq, Repr

/-- R62: one element of a written `frames` list, a tuple or a `makeFrame` call. -/
inductive FrameArg where
  | tuple (brightness : BitVec 5) (blue green red : Byte)
  | made (r g b brightness : Byte)
deriving DecidableEq, Repr

/-- The eleven rows of spec/opcode_table.json, in its order. -/
inductive Instr where
  /-- F_START (R52), as the emission step that sends it (log 1). -/
  | fStart
  /-- F_LED (R53), as the emission step that sends it (log 1). -/
  | fLed (brightness : BitVec 5) (blue green red : Byte)
  /-- F_END (R54), one end-frame byte, as the emission step that sends it (log 1). -/
  | fEnd
  /-- R63; the arguments are bytes (D12), in the API's order. -/
  | makeFrame (r g b brightness : Byte)
  /-- R67; an integer, so that an illegal value reaches validation (R57). -/
  | initHardware (channel : Int)
  /-- R70; integers, so that illegal values and the sentinel reach validation (R57). -/
  | initSoftware (sclk mosi cs : Int)
  /-- R76; `none` is an absent `frames` (R77). -/
  | update (frames : Option (List FrameArg))
  /-- R86. -/
  | writeBits (buf : List Byte) (nbits : Nat)
  /-- R87. -/
  | swWriteBits (buf : List Byte) (nbits : Nat)
  /-- R89. -/
  | emitBit (bit : Bool)
  /-- R93. -/
  | hwWriteBits (buf : List Byte) (nbits : Nat)
deriving DecidableEq, Repr

/-- What the machine fetches. The wire formats have a binary form (R51); the operations have none (N2), their
written form is a program line of R62 (log 2). -/
inductive Fetch where
  | wire (bytes : List Byte)
  | line (text : List Char)
deriving DecidableEq, Repr

/-- Why a fetched form stands for no instruction. Each is safe: the machine refuses it. -/
inductive DecodeError where
  /-- The wire bytes are not as long as any wire format (R51, R60). -/
  | badLength
  /-- A 32-bit word that is neither the start frame nor an LED frame (R58). -/
  | reservedWord
  /-- A single byte other than 0xFF (R58). -/
  | reservedByte
  /-- The line is not one call of R62. -/
  | malformedLine
  /-- The line's name is no operation of R57. -/
  | unknownOperation
  /-- An operand outside its type: a byte, a 5-bit brightness, a bit, a natural number (D12, U15). -/
  | operandRange
deriving DecidableEq, Repr

end Sys2Proof
end

