-- ==== Sys2Proof/Machine/State.lean ====
section
/-! DEFINITION. The machine's state as plain data, the reasons a step stops, and the state after reset (10_state.md). -/

namespace Sys2Proof.Machine

/-- R12: a level the block drives. -/
inductive Level where
  | low
  | high
deriving DecidableEq, Repr

/-- R31: what is known of a pin's output level; `none` is `unknown`. -/
abbrev PinLevel := Option Level

/-- R30, R100: a pin's mode as the GPIO collaborator holds it. -/
inductive PinMode where
  /-- At reset (R36), or after a failed mode call (R100). -/
  | unspecified
  /-- After a successful `GpioMode`. -/
  | output
deriving DecidableEq, Repr

/-- R32, R100: a channel's setup as the SPI collaborator holds it. -/
inductive SpiSetup where
  /-- At reset (R36). -/
  | notSetUp
  /-- After a successful `SpiSetup` with this frequency. -/
  | setUp (hz : Nat)
  /-- After a failed `SpiSetup` (R100). -/
  | unspecified
deriving DecidableEq, Repr

/-- R15: the tagged union of the two transport options (R2). Ranges R16, R18 to R20 hold by the field types. -/
inductive TransmitterConfig where
  | hardware (channel : Channel)
  | software (sclk mosi : Pin) (cs : Option Pin)
deriving DecidableEq, Repr

/-- R15: the instance state `inst`. -/
inductive Inst where
  | unconfigured
  | configured (cfg : TransmitterConfig)
deriving DecidableEq, Repr

/-- R25: the engine's working state while a bit writer runs: the stream, its bit count and the bit cursor. -/
structure Engine where
  buf : List Byte
  nbits : Nat
  k : Nat
deriving DecidableEq, Repr

/-- R58, R81: how far an `update` has come that is issued emission by emission (log 1). -/
inductive Emission where
  /-- The start frame and this many LED frames are sent. -/
  | leds (sent : Nat)
  /-- The start frame, all `leds` LED frames and this many end-frame bytes, not the last, are sent. -/
  | ends (leds sent : Nat)
deriving DecidableEq, Repr

/-- R13, R107: a collaborator call. -/
inductive Call where
  | gpioMode (pin : Pin)
  | gpioWrite (pin : Pin) (lvl : Level)
  | delay (us : Nat)
  | spiSetup (ch : Channel) (hz : Nat)
  | spiWrite (ch : Channel) (bytes : List Byte)
deriving DecidableEq, Repr

/-- R33: how a call was answered. -/
inductive Mark where
  | ok
  | failed
deriving DecidableEq, Repr

/-- R33: one event of the trace. -/
structure Event where
  call : Call
  mark : Mark
deriving DecidableEq, Repr

/-- What reached the wire: the clock edges of R91 with the data level they find, and the bits of the hardware
option (R95, R100) (log 7). -/
inductive WireEvent where
  /-- A rising edge of the clock pin and the bit it carries, `none` when the data level is unknown (R91). -/
  | rising (sclk : Pin) (carried : PinLevel)
  /-- A falling edge of the clock pin (R91). -/
  | falling (sclk : Pin)
  /-- A bit clocked out by the peripheral (R95). -/
  | spiBit (ch : Channel) (mode : SpiMode) (bit : Bool)
deriving DecidableEq, Repr

/-- R97: this spec's labels of the InvalidArgument conditions; the caller does not see them. -/
inductive Cause where
  | badChannel
  | badSclk
  | badMosi
  | badCs
  | noDevice
  | nullFrames
  | emptyFrames
deriving DecidableEq, Repr

/-- The value an `Ok` carries (R57). -/
inductive OkValue where
  | unit
  | frame (f : LedFrame)
  | transmitter (cfg : TransmitterConfig)
deriving DecidableEq, Repr

/-- R27, R96: an operation's return value. -/
inductive Result where
  | ok (v : OkValue)
  | invalidArgument (cause : Cause)
  | transportError
deriving DecidableEq, Repr

/-- What the outside world does to the machine, each between two operations (log 3). -/
inductive Input where
  /-- The host issues an instruction in its written form. -/
  | fetch (f : Fetch)
  /-- The host makes the process-wide GPIO library setup (R34, R114). -/
  | gpioSetup
  /-- Another actor leaves a pin at a level (R117, R119). -/
  | actorWrite (pin : Pin) (lvl : PinLevel)
deriving DecidableEq, Repr

/-- The answers to the coming draws of R10 as plain data (log 4). When a list is used up, a bodiless constant of
`Config` applied to `index` answers. MODEL'S OWN. -/
structure Draws where
  /-- FAIL (R99): `true` is a failed call. -/
  fail : List Bool
  /-- CHUNKS (R93): taken modulo the bytes that are left, plus one. -/
  chunk : List Nat
  /-- The next pin of the mode calls (R71): taken modulo the pins that are left. -/
  order : List Nat
  /-- SCLK_INIT_LEVEL (R91, R118): `true` when a clock pin of unknown level was in fact LOW. -/
  wasLow : List Bool
  /-- How many bits of a failed SpiWrite reached the wire (R100): taken modulo one more than all of them. -/
  spiBits : List Nat
  /-- The number of draws made. -/
  index : Nat
deriving DecidableEq, Repr

/-- The machine's state. -/
structure State where
  /-- R15. -/
  inst : Inst
  /-- R25; `none` between operations, and discarded when a bit writer ends. -/
  engine : Option Engine
  /-- MODEL'S OWN (R58, R81; log 1): how far a stream issued emission by emission has come; `none` when none is begun. -/
  emission : Option Emission
  /-- R30. -/
  modes : Vector PinMode 30
  /-- R31. -/
  levels : Vector PinLevel 30
  /-- R32. -/
  spi : Vector SpiSetup 2
  /-- R33, oldest first. -/
  trace : List Event
  /-- R33: each operation's return value, oldest first. -/
  results : List Result
  /-- R34. -/
  gpioReady : Bool
  /-- R10 (log 8). -/
  params : Params
  /-- MODEL'S OWN (log 3): the inputs not yet taken, oldest first. -/
  pending : List Input
  /-- MODEL'S OWN (log 7): what reached the wire, oldest first. -/
  wire : List WireEvent
  /-- MODEL'S OWN (log 4). -/
  draws : Draws
deriving DecidableEq, Repr

/-- The spec gives the block no trap (R103): every error is an operation's return value, so no step ends in a fault. -/
inductive Fault where
deriving DecidableEq, Repr

/-- Why a step gives no meaning. -/
inductive Refusal where
  /-- An arm of `exec` without a meaning yet. Safe. -/
  | notModelled (mnemonic : String)
  /-- The fetched form stands for no instruction (R58, D12); raised by fetching. Safe. -/
  | undecodable (e : DecodeError)
  /-- An operation, or another actor, while a bit writer runs or a stream is begun and not ended (R85, R109, D16);
  raised by every operation but `makeFrame`, and by the other inputs. Safe. -/
  | overlappingOperation
  /-- A wire format where no stream of R58 has it: a second start frame, an LED frame before the start frame or after
  an end-frame byte, an end-frame byte before the first LED frame (log 1); raised by the wire formats. Safe. -/
  | outOfStream
  /-- `initSoftware` before the GPIO library setup (R115, D23). Safe. -/
  | gpioNotReady
  /-- `update`, or a stream issued emission by emission, with more than N_MAX frames (R77, D13). Safe. -/
  | tooManyLeds
  /-- A bit count beyond the buffer (R86, D24); raised by the bit writers. Safe. -/
  | countBeyondBuffer
  /-- A bit count of the hardware engine that is no whole number of bytes (R94, D24). Safe. -/
  | partialByte
  /-- An internal operation on an instance without the configuration it reads (R86, R89, R93; log 14). Safe. -/
  | wrongConfiguration
deriving DecidableEq, Repr

namespace State

/-- R36, R112: the state of a new instance. `gpioReady` is `false` (DESIGN CHOICE, log 9), the model's own lists are
empty and no stream is begun (DESIGN CHOICE, logs 1, 3, 4, 7), the parameters are those of `Config.resetParams` (log
8). -/
def reset : State where
  inst := .unconfigured
  engine := none
  emission := none
  modes := Vector.replicate 30 .unspecified
  levels := Vector.replicate 30 none
  spi := Vector.replicate 2 .notSetUp
  trace := []
  results := []
  gpioReady := false
  params := Config.resetParams
  pending := []
  wire := []
  draws := { fail := [], chunk := [], order := [], wasLow := [], spiBits := [], index := 0 }

end State

end Sys2Proof.Machine
end

