-- ==== Sys2Proof/Machine/Flags.lean ====
section
/-! DEFINITION. Status. The block has no flags (R27); an operation's only status is its return value (R96). -/

namespace Sys2Proof.Machine

/-- R96: what the caller sees of a return value, the cause label left out (R97). -/
inductive ResultKind where
  | ok
  | invalidArgument
  | transportError
deriving DecidableEq, Repr

/-- R96, R97: the kind of a return value. -/
def Result.kind : Result → ResultKind
  | .ok _ => .ok
  | .invalidArgument _ => .invalidArgument
  | .transportError => .transportError

/-- R96, D14: the spec's own numbering, which no rule depends on. -/
def ResultKind.code : ResultKind → Nat
  | .ok => 0
  | .invalidArgument => 1
  | .transportError => 2

end Sys2Proof.Machine
end

