-- ==== Sys2Proof/WellFormed.lean ====
section
/-! DEFINITION. The operand preconditions the spec states on a call's operands alone. -/

namespace Sys2Proof

/-- R86: the count stays within the buffer (D24). -/
def countFits (buf : List Byte) (nbits : Nat) : Bool := decide (nbits ≤ 8 * buf.length)

/-- R94: the hardware engine sends whole bytes (D24). -/
def wholeBytes (nbits : Nat) : Bool := decide (nbits % 8 = 0)

/-- A well-formed instruction. Out-of-range pins and channels, and an empty or absent `frames`, are well formed:
they must reach validation (R57). A well-formedness failure is refused when the operation runs. -/
def Instr.wellFormed : Instr → Bool
  | .fStart => true
  | .fLed _ _ _ _ => true
  | .fEnd => true
  | .makeFrame _ _ _ _ => true
  | .initHardware _ => true
  | .initSoftware _ _ _ => true
  | .update _ => true
  | .writeBits buf nbits => countFits buf nbits
  | .swWriteBits buf nbits => countFits buf nbits
  | .emitBit _ => true
  | .hwWriteBits buf nbits => countFits buf nbits && wholeBytes nbits

end Sys2Proof
end

