-- ==== Sys2Proof/Decode.lean ====
section
/-! DEFINITION. From the written forms to instructions and back: the wire formats of R51 to R54, the program
notation of R62, and the stream decoder of R61. -/

namespace Sys2Proof

/-! ### Wire formats -/

/-- R41: the bytes of a word in stream order, most significant first. -/
def wordBytes (w : Word) : List Byte :=
  [w.extractLsb' 24 8, w.extractLsb' 16 8, w.extractLsb' 8 8, w.extractLsb' 0 8]

/-- R41: the word whose bytes in stream order are these four. -/
def bytesWord (a b c d : Byte) : Word := a ++ b ++ c ++ d

/-- R52: F_START. -/
def startWord : Word := 0x00000000#32

/-- R53: F_LED, the fields of the format table from bit 31 down. -/
def ledWord (f : LedFrame) : Word := 0b111#3 ++ f.brightness ++ f.blue ++ f.green ++ f.red

/-- R53, R76: the four bytes of an LED frame, byte0 = 0xE0 | (brightness & 0x1F), then blue, green, red. -/
def ledBytes (f : LedFrame) : List Byte :=
  [0xE0#8 ||| (f.brightness.setWidth 8 &&& 0x1F#8), f.blue, f.green, f.red]

/-- A 32-bit row of the opcode table: its mask and match. -/
structure WireRow where
  mask : Word
  pattern : Word
deriving DecidableEq, Repr

/-- The rows F_START and F_LED of the opcode table. -/
def startRow : WireRow := { mask := 0xFFFFFFFF#32, pattern := 0x00000000#32 }

/-- See `startRow`. -/
def ledRow : WireRow := { mask := 0xE0000000#32, pattern := 0xE0000000#32 }

/-- The word has the row's fixed bits. -/
def WireRow.admits (r : WireRow) (w : Word) : Bool := (w &&& r.mask) == r.pattern

/-- R53: the fields of an LED word. -/
def wordFrame (w : Word) : LedFrame :=
  { brightness := w.extractLsb' 24 5
    blue := w.extractLsb' 16 8
    green := w.extractLsb' 8 8
    red := w.extractLsb' 0 8 }

/-- The instruction of a 32-bit word; a word that fits no row is reserved (R58). -/
def decodeWord (w : Word) : Except DecodeError Instr :=
  if startRow.admits w then .ok .fStart
  else if ledRow.admits w then
    .ok (.fLed (wordFrame w).brightness (wordFrame w).blue (wordFrame w).green (wordFrame w).red)
  else .error .reservedWord

/-- The instruction of wire bytes: four bytes are a word, one byte is an end-frame byte (R51). -/
def decodeWire : List Byte → Except DecodeError Instr
  | [a, b, c, d] => decodeWord (bytesWord a b c d)
  | [a] => if a = 0xFF#8 then .ok .fEnd else .error .reservedByte
  | _ => .error .badLength

/-- The bytes, in stream order, of a table word of `nbits` bits: a wire format's value has its most significant
byte first (R41), and the opcode table numbers a format's bits from the least significant bit of its whole value. -/
def wireLayout (nbits w : Nat) : List Byte :=
  (List.range (nbits / 8)).map fun i => BitVec.ofNat 8 (w >>> (8 * (nbits / 8 - 1 - i)))

/-- The instruction the decoder reads from a table word. -/
def decodeTableWord (nbits w : Nat) : Option Instr := (decodeWire (wireLayout nbits w)).toOption

/-- R61: `n` LED frames from a list of bytes, and what is left. -/
def takeFrames : Nat → List Byte → Option (List LedFrame × List Byte)
  | 0, bs => some ([], bs)
  | n + 1, a :: b :: g :: r :: rest =>
    match takeFrames n rest with
    | some (fs, left) =>
      some ({ brightness := (a &&& 0x1F#8).setWidth 5, blue := b, green := g, red := r } :: fs, left)
    | none => none
  | _ + 1, _ => none

/-- R54, R79: the number of end-frame bytes for `n` LED frames. -/
def endBytes (n : Nat) : Nat := ((n + 1) / 2 + 7) / 8

/-- R61: a stream cut back into its frames, given their number; `none` for bytes no `update` sends (R58). -/
def decodeStream (n : Nat) (s : List Byte) : Option (List LedFrame) :=
  if s.take 4 = [0x00#8, 0x00#8, 0x00#8, 0x00#8] then
    match takeFrames n (s.drop 4) with
    | some (fs, left) => if left = List.replicate (endBytes n) 0xFF#8 then some fs else none
    | none => none
  else none

/-! ### Program notation (R62) -/

/-- The tokens of a program line. -/
inductive Token where
  | word (cs : List Char)
  | lpar | rpar | lbrk | rbrk | lbrace | rbrace | comma
deriving DecidableEq, Repr

/-- The one-character tokens. -/
def symbolOf (c : Char) : Option Token :=
  if c.toNat = 0x28 then some .lpar
  else if c.toNat = 0x29 then some .rpar
  else if c.toNat = 0x5B then some .lbrk
  else if c.toNat = 0x5D then some .rbrk
  else if c.toNat = 0x7B then some .lbrace
  else if c.toNat = 0x7D then some .rbrace
  else if c.toNat = 0x2C then some .comma
  else none

/-- A space, a tab or an end-of-line character. -/
def isBlank (c : Char) : Bool :=
  decide (c.toNat = 0x20) || decide (c.toNat = 0x09) || decide (c.toNat = 0x0A) || decide (c.toNat = 0x0D)

/-- R62: a semicolon starts a comment. -/
def isComment (c : Char) : Bool := decide (c.toNat = 0x3B)

/-- The word read so far, if any, before the tokens that follow it. -/
def closeWord (w : List Char) (ts : List Token) : List Token := if w = [] then ts else .word w :: ts

/-- The tokens of a line, `w` being the word read so far. -/
def lexFrom : List Char → List Char → List Token
  | w, [] => closeWord w []
  | w, c :: cs =>
    if isComment c then closeWord w []
    else if isBlank c then closeWord w (lexFrom [] cs)
    else match symbolOf c with
      | some t => closeWord w (t :: lexFrom [] cs)
      | none => lexFrom (w ++ [c]) cs

/-- The tokens of a line. -/
def lex (cs : List Char) : List Token := lexFrom [] cs

/-- The value of a digit, in either case. -/
def digitVal (c : Char) : Option Nat :=
  if 0x30 ≤ c.toNat ∧ c.toNat ≤ 0x39 then some (c.toNat - 0x30)
  else if 0x61 ≤ c.toNat ∧ c.toNat ≤ 0x66 then some (c.toNat - 0x61 + 10)
  else if 0x41 ≤ c.toNat ∧ c.toNat ≤ 0x46 then some (c.toNat - 0x41 + 10)
  else none

/-- Digits in a base, most significant first, after the value `acc`. -/
def readDigits (base : Nat) : Nat → List Char → Option Nat
  | acc, [] => some acc
  | acc, c :: cs =>
    match digitVal c with
    | some d => if d < base then readDigits base (acc * base + d) cs else none
    | none => none

/-- R62: a natural number in decimal or `0x` hexadecimal. -/
def readNat : List Char → Option Nat
  | [] => none
  | '0' :: 'x' :: ds => if ds = [] then none else readDigits 16 0 ds
  | ds => readDigits 10 0 ds

/-- An integer: a natural number, or `-` and one. -/
def readInt : List Char → Option Int
  | '-' :: ds => (readNat ds).map Int.negOfNat
  | ds => (readNat ds).map Int.ofNat

/-- Integers between commas, and what is left. DESIGN CHOICE (log 2): a comma after the last integer, of which
`name(arg, …)` in R62 does not speak, is refused, as in a frame list. -/
def readInts : List Token → Option (List Int × List Token)
  | .word w :: .comma :: ts =>
    match readInt w, readInts ts with
    | some i, some (j :: is, left) => some (i :: j :: is, left)
    | _, _ => none
  | .word w :: ts => (readInt w).map fun i => ([i], ts)
  | ts => some ([], ts)

/-- The integers of a whole argument list up to its closing parenthesis. -/
def closedInts (ts : List Token) : Option (List Int) :=
  match readInts ts with
  | some (is, [.rpar]) => some is
  | _ => none

/-- D12, U15: a byte operand. -/
def byteOf (i : Int) : Except DecodeError Byte :=
  if 0 ≤ i ∧ i < 256 then .ok (BitVec.ofNat 8 i.toNat) else .error .operandRange

/-- Byte operands. -/
def bytesOf : List Int → Except DecodeError (List Byte)
  | [] => .ok []
  | i :: is =>
    match byteOf i, bytesOf is with
    | .ok b, .ok bs => .ok (b :: bs)
    | _, _ => .error .operandRange

/-- D12: a 5-bit brightness field. -/
def brightnessOf (i : Int) : Except DecodeError (BitVec 5) :=
  if 0 ≤ i ∧ i < 32 then .ok (BitVec.ofNat 5 i.toNat) else .error .operandRange

/-- R57: a natural number operand. -/
def natOf (i : Int) : Except DecodeError Nat := if 0 ≤ i then .ok i.toNat else .error .operandRange

/-- R57: a bit operand. -/
def bitOf (i : Int) : Except DecodeError Bool :=
  if i = 0 then .ok false else if i = 1 then .ok true else .error .operandRange

namespace Name

/-- The API spelling of the operations (R57, R62), and the word for an absent `frames` (log 2). -/
def makeFrame : List Char := ['m', 'a', 'k', 'e', 'F', 'r', 'a', 'm', 'e']
def initHardware : List Char := ['i', 'n', 'i', 't', 'H', 'a', 'r', 'd', 'w', 'a', 'r', 'e']
def initSoftware : List Char := ['i', 'n', 'i', 't', 'S', 'o', 'f', 't', 'w', 'a', 'r', 'e']
def update : List Char := ['u', 'p', 'd', 'a', 't', 'e']
def writeBits : List Char := ['w', 'r', 'i', 't', 'e', 'B', 'i', 't', 's']
def swWriteBits : List Char := ['s', 'w', 'W', 'r', 'i', 't', 'e', 'B', 'i', 't', 's']
def emitBit : List Char := ['e', 'm', 'i', 't', 'B', 'i', 't']
def hwWriteBits : List Char := ['h', 'w', 'W', 'r', 'i', 't', 'e', 'B', 'i', 't', 's']
def absent : List Char := ['n', 'u', 'l', 'l']

end Name

/-- R62: a tuple's four fields, `br, b, g, r`. -/
def tupleOf : List Int → Except DecodeError FrameArg
  | [br, b, g, r] =>
    match brightnessOf br, byteOf b, byteOf g, byteOf r with
    | .ok br, .ok b, .ok g, .ok r => .ok (.tuple br b g r)
    | _, _, _, _ => .error .operandRange
  | _ => .error .malformedLine

/-- R57: the four arguments of a `makeFrame` call, `r, g, b, brightness`. -/
def madeOf : List Int → Except DecodeError FrameArg
  | [r, g, b, br] =>
    match byteOf r, byteOf g, byteOf b, byteOf br with
    | .ok r, .ok g, .ok b, .ok br => .ok (.made r g b br)
    | _, _, _, _ => .error .operandRange
  | _ => .error .malformedLine

/-- Four integers between commas. -/
def fourInts (a b c d : List Char) : Except DecodeError (List Int) :=
  match readInt a, readInt b, readInt c, readInt d with
  | some a, some b, some c, some d => .ok [a, b, c, d]
  | _, _, _, _ => .error .malformedLine

/-- One written frame and what is left. -/
def readFrame : List Token → Except DecodeError (FrameArg × List Token)
  | .lbrace :: .word a :: .comma :: .word b :: .comma :: .word c :: .comma :: .word d :: .rbrace :: ts =>
    match fourInts a b c d with
    | .ok is => match tupleOf is with
      | .ok f => .ok (f, ts)
      | .error e => .error e
    | .error e => .error e
  | .word n :: .lpar :: .word a :: .comma :: .word b :: .comma :: .word c :: .comma :: .word d :: .rpar :: ts =>
    if n = Name.makeFrame then
      match fourInts a b c d with
      | .ok is => match madeOf is with
        | .ok f => .ok (f, ts)
        | .error e => .error e
      | .error e => .error e
    else .error .malformedLine
  | _ => .error .malformedLine

/-- The rest of a frame list up to `])`; `fuel` bounds the number of frames. -/
def readFrames : Nat → List Token → Except DecodeError (List FrameArg)
  | 0, _ => .error .malformedLine
  | fuel + 1, ts =>
    match readFrame ts with
    | .error e => .error e
    | .ok (f, [.rbrk, .rpar]) => .ok [f]
    | .ok (f, .comma :: rest) =>
      match readFrames fuel rest with
      | .ok fs => .ok (f :: fs)
      | .error e => .error e
    | .ok _ => .error .malformedLine

/-- The arguments of `update`. -/
def parseUpdate : List Token → Except DecodeError Instr
  | [.word n, .rpar] => if n = Name.absent then .ok (.update none) else .error .malformedLine
  | [.lbrk, .rbrk, .rpar] => .ok (.update (some []))
  | .lbrk :: ts =>
    match readFrames ts.length ts with
    | .ok fs => .ok (.update (some fs))
    | .error e => .error e
  | _ => .error .malformedLine

/-- The arguments of a bit writer, `[bytes], nbits`. -/
def parseBuffer (mk : List Byte → Nat → Instr) : List Token → Except DecodeError Instr
  | .lbrk :: ts =>
    match readInts ts with
    | some (is, [.rbrk, .comma, .word n, .rpar]) =>
      match readInt n with
      | some k => match bytesOf is, natOf k with
        | .ok bs, .ok n => .ok (mk bs n)
        | _, _ => .error .operandRange
      | none => .error .malformedLine
    | _ => .error .malformedLine
  | _ => .error .malformedLine

/-- The arguments of `makeFrame`. -/
def parseMakeFrame (ts : List Token) : Except DecodeError Instr :=
  match closedInts ts with
  | some is => match madeOf is with
    | .ok (.made r g b br) => .ok (.makeFrame r g b br)
    | .ok (.tuple _ _ _ _) => .error .malformedLine
    | .error e => .error e
  | none => .error .malformedLine

/-- The argument of `initHardware`: any integer (R57). -/
def parseInitHardware (ts : List Token) : Except DecodeError Instr :=
  match closedInts ts with
  | some [c] => .ok (.initHardware c)
  | _ => .error .malformedLine

/-- The arguments of `initSoftware`: any integers (R57). -/
def parseInitSoftware (ts : List Token) : Except DecodeError Instr :=
  match closedInts ts with
  | some [sclk, mosi, cs] => .ok (.initSoftware sclk mosi cs)
  | _ => .error .malformedLine

/-- The argument of `emitBit`. -/
def parseEmitBit (ts : List Token) : Except DecodeError Instr :=
  match closedInts ts with
  | some [i] => match bitOf i with
    | .ok b => .ok (.emitBit b)
    | .error e => .error e
  | _ => .error .malformedLine

/-- R62: one call, `name(arg, …)`. -/
def parseCall : List Token → Except DecodeError Instr
  | .word n :: .lpar :: ts =>
    if n = Name.makeFrame then parseMakeFrame ts
    else if n = Name.initHardware then parseInitHardware ts
    else if n = Name.initSoftware then parseInitSoftware ts
    else if n = Name.update then parseUpdate ts
    else if n = Name.writeBits then parseBuffer .writeBits ts
    else if n = Name.swWriteBits then parseBuffer .swWriteBits ts
    else if n = Name.emitBit then parseEmitBit ts
    else if n = Name.hwWriteBits then parseBuffer .hwWriteBits ts
    else .error .unknownOperation
  | _ => .error .malformedLine

/-- The instruction of a program line. -/
def decodeLine (text : List Char) : Except DecodeError Instr := parseCall (lex text)

/-- The decoder: total on wire bytes and on program lines. -/
def decode : Fetch → Except DecodeError Instr
  | .wire bytes => decodeWire bytes
  | .line text => decodeLine text

/-! ### The encoder -/

/-- The decimal digits of `n`, most significant first; `fuel` bounds their number. -/
def digitsOf : Nat → Nat → List Char
  | 0, _ => []
  | fuel + 1, n =>
    if n < 10 then [Char.ofNat (0x30 + n)] else digitsOf fuel (n / 10) ++ [Char.ofNat (0x30 + n % 10)]

/-- A natural number in decimal. -/
def showNat (n : Nat) : List Char := digitsOf (n + 1) n

/-- An integer in decimal. -/
def showInt : Int → List Char
  | .ofNat n => showNat n
  | .negSucc n => '-' :: showNat (n + 1)

/-- The word of an integer. -/
def intWord (i : Int) : Token := .word (showInt i)

/-- A byte as an integer operand. -/
def byteInt {n : Nat} (b : BitVec n) : Int := (b.toNat : Int)

/-- Integers between commas. -/
def intsTokens : List Int → List Token
  | [] => []
  | [i] => [intWord i]
  | i :: is => intWord i :: .comma :: intsTokens is

/-- The tokens of a call with integer arguments. -/
def callTokens (name : List Char) (is : List Int) : List Token :=
  .word name :: .lpar :: (intsTokens is ++ [.rpar])

/-- The tokens of a written frame. -/
def frameTokens : FrameArg → List Token
  | .tuple br b g r => .lbrace :: (intsTokens [byteInt br, byteInt b, byteInt g, byteInt r] ++ [.rbrace])
  | .made r g b br => callTokens Name.makeFrame [byteInt r, byteInt g, byteInt b, byteInt br]

/-- Written frames between commas. -/
def framesTokens : List FrameArg → List Token
  | [] => []
  | [f] => frameTokens f
  | f :: fs => frameTokens f ++ .comma :: framesTokens fs

/-- The tokens of a bit-writer call. -/
def bufferTokens (name : List Char) (buf : List Byte) (nbits : Nat) : List Token :=
  .word name :: .lpar :: .lbrk :: (intsTokens (buf.map byteInt) ++ [.rbrk, .comma, intWord nbits, .rpar])

/-- One token as text. -/
def showToken : Token → List Char
  | .word cs => cs
  | .lpar => [Char.ofNat 0x28]
  | .rpar => [Char.ofNat 0x29]
  | .lbrk => [Char.ofNat 0x5B]
  | .rbrk => [Char.ofNat 0x5D]
  | .lbrace => [Char.ofNat 0x7B]
  | .rbrace => [Char.ofNat 0x7D]
  | .comma => [Char.ofNat 0x2C]

/-- Tokens as text. -/
def showTokens (ts : List Token) : List Char := ts.flatMap showToken

/-- The written form of an instruction: a wire format's bytes (R52 to R54), an operation's line (R62). -/
def encode : Instr → Fetch
  | .fStart => .wire (wordBytes startWord)
  | .fLed br b g r => .wire (wordBytes (ledWord { brightness := br, blue := b, green := g, red := r }))
  | .fEnd => .wire [Config.endByte]
  | .makeFrame r g b br =>
    .line (showTokens (callTokens Name.makeFrame [byteInt r, byteInt g, byteInt b, byteInt br]))
  | .initHardware c => .line (showTokens (callTokens Name.initHardware [c]))
  | .initSoftware sclk mosi cs => .line (showTokens (callTokens Name.initSoftware [sclk, mosi, cs]))
  | .update none => .line (showTokens [.word Name.update, .lpar, .word Name.absent, .rpar])
  | .update (some fs) =>
    .line (showTokens (.word Name.update :: .lpar :: .lbrk :: (framesTokens fs ++ [.rbrk, .rpar])))
  | .writeBits buf nbits => .line (showTokens (bufferTokens Name.writeBits buf nbits))
  | .swWriteBits buf nbits => .line (showTokens (bufferTokens Name.swWriteBits buf nbits))
  | .emitBit bit => .line (showTokens (callTokens Name.emitBit [if bit then 1 else 0]))
  | .hwWriteBits buf nbits => .line (showTokens (bufferTokens Name.hwWriteBits buf nbits))

end Sys2Proof
end

