-- ==== Sys2Proof/Machine/Operands.lean ====
section
/-! DEFINITION. The operand forms: range checks (R59, R97), brightness masking (R55, R64), written frames (R62), bits
and levels (R12, R40), and the stream `update` builds (R76 to R80). -/

namespace Sys2Proof.Machine

/-- R18, R19, R74: a pin number of 0..29. -/
def pinOf (i : Int) : Option Pin :=
  if h : Config.pinMin ≤ i ∧ i ≤ Config.pinMax then
    some ⟨i.toNat, by simp only [Config.pinMin, Config.pinMax] at h; omega⟩
  else none

/-- R20, R74: a chip-select operand, `some none` for the sentinel −1 and `none` for an illegal value. -/
def csOf (i : Int) : Option (Option Pin) :=
  if i = Config.csNone then some none else (pinOf i).map some

/-- R16, R68: a channel number, 0 or 1. -/
def channelOf (i : Int) : Option Channel :=
  if i = 0 then some 0 else if i = 1 then some 1 else none

/-- R55, R64: the low five bits of the brightness argument. -/
def maskBrightness (b : Byte) : BitVec 5 := (b &&& 0x1F#8).setWidth 5

/-- R63: the record of a `makeFrame` call. -/
def madeFrame (r g b brightness : Byte) : LedFrame :=
  { brightness := maskBrightness brightness, blue := b, green := g, red := r }

/-- R62: the value of a written frame. -/
def frameValue : FrameArg → LedFrame
  | .tuple br b g r => { brightness := br, blue := b, green := g, red := r }
  | .made r g b br => madeFrame r g b br

/-- R12: the bit value 1 is driven as HIGH, 0 as LOW. -/
def levelOfBit (bit : Bool) : Level := if bit then .high else .low

/-- R40: stream bit `k` is bit `7 - (k mod 8)` of byte `k div 8`. -/
def bitAt (buf : List Byte) (k : Nat) : Bool := (buf.getD (k / 8) 0).getLsbD (7 - k % 8)

/-- R40: the first `nbits` bits of a byte list, first sent first. -/
def bitsOf (buf : List Byte) (nbits : Nat) : List Bool := (List.range nbits).map (bitAt buf)

/-- R52: the start frame. -/
def startFrame : List Byte := List.replicate Config.startBytes 0x00#8

/-- R54, R79: the end frame for `n` LED frames. -/
def endFrame (n : Nat) : List Byte := List.replicate (endBytes n) Config.endByte

/-- R76, R78: the stream. -/
def stream (fs : List LedFrame) : List Byte := startFrame ++ fs.flatMap ledBytes ++ endFrame fs.length

/-- The phases of a stream (R26). -/
inductive Phase where
  | start
  | led (i : Nat)
  | finish
deriving DecidableEq, Repr

/-- R26: the phase the cursor `k` is in, for `n` LED frames. -/
def phaseOf (n k : Nat) : Phase :=
  if k < 32 then .start else if k < 32 + 32 * n then .led ((k - 32) / 32) else .finish

end Sys2Proof.Machine
end

