-- ==== Sys2Proof/Machine/Ops.lean ====
section
/-! DEFINITION. The shared operations: draws, collaborator calls (R13), returning and raising (R96 to R104), the
engine's cursor (R25, R26), and the inputs of the outside world (log 3). -/

namespace Sys2Proof.Machine

/-! ### Draws (R10, log 4) -/

/-- FAIL (R99): does the next call fail? -/
def Draws.takeFail (d : Draws) : Bool × Draws :=
  match d.fail with
  | b :: rest => (b, { d with fail := rest, index := d.index + 1 })
  | [] => (Config.freeFail d.index, { d with index := d.index + 1 })

/-- CHUNKS (R93): the number the next chunk's size is made from. -/
def Draws.takeChunk (d : Draws) : Nat × Draws :=
  match d.chunk with
  | n :: rest => (n, { d with chunk := rest, index := d.index + 1 })
  | [] => (Config.freeChunk d.index, { d with index := d.index + 1 })

/-- R71: the number the next mode call's pin is chosen by. -/
def Draws.takeOrder (d : Draws) : Nat × Draws :=
  match d.order with
  | n :: rest => (n, { d with order := rest, index := d.index + 1 })
  | [] => (Config.freeOrder d.index, { d with index := d.index + 1 })

/-- SCLK_INIT_LEVEL (R91, R118): was the clock pin of unknown level LOW? -/
def Draws.takeWasLow (d : Draws) : Bool × Draws :=
  match d.wasLow with
  | b :: rest => (b, { d with wasLow := rest, index := d.index + 1 })
  | [] => (Config.freeWasLow d.index, { d with index := d.index + 1 })

/-- R100: the number the prefix of a failed SpiWrite is made from. -/
def Draws.takeSpiBits (d : Draws) : Nat × Draws :=
  match d.spiBits with
  | n :: rest => (n, { d with spiBits := rest, index := d.index + 1 })
  | [] => (Config.freeSpiBits d.index, { d with index := d.index + 1 })

/-! ### State accessors -/

/-- R31: `level[pin]`. -/
def State.level (s : State) (p : Pin) : PinLevel := s.levels[p.val]

/-- R30: the mode of a pin. -/
def State.mode (s : State) (p : Pin) : PinMode := s.modes[p.val]

/-- R32: the setup of a channel. -/
def State.spiOf (s : State) (ch : Channel) : SpiSetup := s.spi[ch.val]

/-- `level[pin] <- v` (R31). -/
def State.setLevel (s : State) (p : Pin) (v : PinLevel) : State := { s with levels := s.levels.set p.val v }

/-- Write a pin's mode (R30). -/
def State.setMode (s : State) (p : Pin) (m : PinMode) : State := { s with modes := s.modes.set p.val m }

/-- Write a channel's setup (R32). -/
def State.setSpi (s : State) (ch : Channel) (v : SpiSetup) : State := { s with spi := s.spi.set ch.val v }

/-- R33: append one event to the trace. -/
def State.log (s : State) (c : Call) (m : Mark) : State := { s with trace := s.trace ++ [{ call := c, mark := m }] }

/-- Append to the wire (log 7). -/
def State.onWire (s : State) (w : List WireEvent) : State := { s with wire := s.wire ++ w }

/-- `inst <- v` (R13). -/
def State.setInst (s : State) (v : Inst) : State := { s with inst := v }

/-- R81: how far a stream has come that is issued emission by emission. -/
def State.setEmission (s : State) (v : Option Emission) : State := { s with emission := v }

/-- R33: record an operation's return value. -/
def State.ret (s : State) (r : Result) : State := { s with results := s.results ++ [r] }

/-! ### Running and stopping at the first failed call (R101) -/

/-- An operation under way: it goes on, or a failed call has ended it. -/
inductive Progress where
  | going (s : State)
  | aborted (s : State)
deriving DecidableEq, Repr

/-- The state reached. -/
def Progress.state : Progress → State
  | .going s => s
  | .aborted s => s

/-- R101: no further call is made after the failed one. -/
def Progress.andThen (p : Progress) (f : State → Progress) : Progress :=
  match p with
  | .going s => f s
  | .aborted s => .aborted s

/-- Change the state reached, whether the operation goes on or not. -/
def Progress.map (p : Progress) (f : State → State) : Progress :=
  match p with
  | .going s => .going (f s)
  | .aborted s => .aborted (f s)

/-! ### Errors and returns (R96 to R104)

Taking an error is one operation: it records the return value and changes nothing else (R103); the block is then idle
and accepts the next operation (R104). -/

/-- `raise InvalidArgument(cause)` (R13, R98). -/
def raiseInvalidArgument (c : Cause) (s : State) : Host.Outcome State Fault Refusal :=
  .next (s.ret (.invalidArgument c))

/-- `raise TransportError()` (R13, R99, R101). -/
def raiseTransport (s : State) : State := s.ret .transportError

/-- `return Ok(v)` when every call succeeded, `TransportError` when one failed. -/
def Progress.finish (p : Progress) (v : OkValue) : State :=
  match p with
  | .going s => s.ret (.ok v)
  | .aborted s => raiseTransport s

/-- R110: no operation is under way: no bit writer runs, and no stream is begun and not ended (R81). -/
abbrev State.Idle (s : State) : Prop := s.engine = none ∧ s.emission = none

/-- R85, R109: an operation has a meaning only when none is under way. -/
def whenIdle (s : State) (f : State → Host.Outcome State Fault Refusal) : Host.Outcome State Fault Refusal :=
  if s.Idle then f s else .refused .overlappingOperation

/-- R109: an emission of a stream has a meaning only when no bit writer runs. -/
def whenNoWriter (s : State) (f : State → Host.Outcome State Fault Refusal) : Host.Outcome State Fault Refusal :=
  match s.engine with
  | none => f s
  | some _ => .refused .overlappingOperation

/-! ### Collaborator calls (R13, R99, R100) -/

/-- Ask FAIL, and mark the call's event with the answer; then `good` or `bad` gives the call's effect. -/
def callCollaborator (c : Call) (good bad : State → State) (s : State) : Progress :=
  match s.draws.takeFail with
  | (false, d) => .going (good (({ s with draws := d } : State).log c .ok))
  | (true, d) => .aborted (bad (({ s with draws := d } : State).log c .failed))

/-- `GpioMode(pin)`: the pin becomes an output, or its mode is unspecified when the call failed (R30, R100). Its level
is unknown afterwards (D2, D3; DEDUCED for a failed call, log 5). -/
def gpioMode (p : Pin) (s : State) : Progress :=
  callCollaborator (.gpioMode p) (fun s => (s.setMode p .output).setLevel p none)
    (fun s => (s.setMode p .unspecified).setLevel p none) s

/-- R91: the clock edge that driving `lvl` on the clock pin makes, `before` being its level until then and `carried`
the data level at that moment. -/
def edgeOf (clk : Pin) (before : Level) (lvl : Level) (carried : PinLevel) : List WireEvent :=
  match before, lvl with
  | .low, .high => [.rising clk carried]
  | .high, .low => [.falling clk]
  | .low, .low => []
  | .high, .high => []

/-- R91: the edges a successful write makes; an unknown clock level is drawn (R118). -/
def clockEdges (clk dat : Pin) (p : Pin) (lvl : Level) (s : State) : State :=
  if p = clk then
    match s.level clk with
    | some before => s.onWire (edgeOf clk before lvl (s.level dat))
    | none =>
      match s.draws.takeWasLow with
      | (true, d) => ({ s with draws := d } : State).onWire (edgeOf clk .low lvl (s.level dat))
      | (false, d) => ({ s with draws := d } : State).onWire (edgeOf clk .high lvl (s.level dat))
  else s

/-- `GpioWrite(pin, lvl)`, made by an operation whose clock and data pins are `clk` and `dat`: the level is `lvl`, or
unknown when the call failed (R31, R100); a success on the clock pin may make an edge (R91). -/
def gpioWrite (clk dat : Pin) (p : Pin) (lvl : Level) (s : State) : Progress :=
  callCollaborator (.gpioWrite p lvl) (fun s => (clockEdges clk dat p lvl s).setLevel p (some lvl))
    (fun s => s.setLevel p none) s

/-- `Delay(T_HOLD_US)`: it always succeeds and asks no draw (R99). -/
def delay (s : State) : Progress := .going (s.log (.delay s.params.tHoldUs) .ok)

/-- `SpiSetup(ch, hz)`: the channel is set up, or its setup is unspecified when the call failed (R32, R100). -/
def spiSetup (ch : Channel) (hz : Nat) (s : State) : Progress :=
  callCollaborator (.spiSetup ch hz) (fun s => s.setSpi ch (.setUp hz)) (fun s => s.setSpi ch .unspecified) s

/-- R40, R95: the wire events of bits sent by the peripheral. -/
def spiEvents (ch : Channel) (mode : SpiMode) (bits : List Bool) : List WireEvent := bits.map (.spiBit ch mode)

/-- R100: any prefix of a failed chunk, bit by bit, may be on the wire (log 6). -/
def spiPrefix (ch : Channel) (bytes : List Byte) (s : State) : State :=
  match s.draws.takeSpiBits with
  | (n, d) =>
    ({ s with draws := d } : State).onWire
      (spiEvents ch s.params.spiMode (bitsOf bytes (n % (8 * bytes.length + 1))))

/-- `SpiWrite(ch, bytes)`: it returns with the bytes on the wire, most significant bit first (R95, D11). -/
def spiWrite (ch : Channel) (bytes : List Byte) (s : State) : Progress :=
  callCollaborator (.spiWrite ch bytes)
    (fun s => s.onWire (spiEvents ch s.params.spiMode (bitsOf bytes (8 * bytes.length))))
    (spiPrefix ch bytes) s

/-! ### The engine (R25, R26) -/

/-- The bit writer creates the engine state, with the cursor at 0. -/
def State.startEngine (s : State) (buf : List Byte) (nbits : Nat) : State :=
  { s with engine := some { buf := buf, nbits := nbits, k := 0 } }

/-- The engine state is discarded, with or without an error. -/
def State.stopEngine (s : State) : State := { s with engine := none }

/-- The cursor moves on by `n` bits. -/
def State.advance (s : State) (n : Nat) : State :=
  { s with engine := s.engine.map fun e => { e with k := e.k + n } }

/-! ### Inputs of the outside world between operations (log 3) -/

/-- R34, R114: the host makes the process-wide GPIO setup. -/
def takeGpioSetup (s : State) : Host.Outcome State Fault Refusal :=
  whenIdle s fun s => .next { s with gpioReady := true }

/-- R117, R119: another actor leaves a pin at a level; during an operation it is refused (R109). -/
def takeActorWrite (p : Pin) (lvl : PinLevel) (s : State) : Host.Outcome State Fault Refusal :=
  whenIdle s fun s => .next (s.setLevel p lvl)

/-- The instruction of a fetched form runs; a form that stands for none is refused. -/
def runFetched (f : Fetch) (run : Instr → State → Host.Outcome State Fault Refusal) (s : State) :
    Host.Outcome State Fault Refusal :=
  match decode f with
  | .ok i => run i s
  | .error e => .refused (.undecodable e)

end Sys2Proof.Machine
end

