-- ==== Sys2Proof/Machine/Init.lean ====
section
/-! DEFINITION. The two initialisations (41_init.md). -/

namespace Sys2Proof.Machine

/-- R75: a successful init replaces `inst` as a whole and returns the transmitter; a failed one leaves it. -/
def Progress.configure (p : Progress) (cfg : TransmitterConfig) : State :=
  (p.andThen fun s => .going (s.setInst (.configured cfg))).finish (.transmitter cfg)

/-- R67 to R69. -/
def execInitHardware (channel : Int) (s : State) : Host.Outcome State Fault Refusal :=
  whenIdle s fun s =>
    match channelOf channel with
    | none => raiseInvalidArgument .badChannel s
    | some ch => .next ((spiSetup ch Config.hwFreqHz s).configure (.hardware ch))

/-- R71: the mode calls in some order: each takes one of the pins that are left; `fuel` is their number. -/
def modeCalls : Nat → List Pin → State → Progress
  | 0, _, s => .going s
  | fuel + 1, pins, s =>
    match s.draws.takeOrder with
    | (n, d) =>
      match pins[n % pins.length]? with
      | none => .going s
      | some p => (gpioMode p { s with draws := d }).andThen (modeCalls fuel (pins.eraseIdx (n % pins.length)))

/-- R70, R71: the pins to make outputs, one entry per role, the sentinel left out. -/
def modePins (sclk mosi : Pin) (cs : Option Pin) : List Pin := [sclk, mosi] ++ cs.toList

/-- R72: the priming write, on the clock pin, only when there is a chip-select pin. -/
def primeClock (sclk mosi : Pin) (cs : Option Pin) (s : State) : Progress :=
  match cs with
  | none => .going s
  | some _ => gpioWrite sclk mosi sclk .high s

/-- R70 to R74. The precondition is looked at before the operands (DESIGN CHOICE, log 10). -/
def execInitSoftware (sclk mosi cs : Int) (s : State) : Host.Outcome State Fault Refusal :=
  whenIdle s fun s =>
    if s.gpioReady then
      match pinOf sclk with
      | none => raiseInvalidArgument .badSclk s
      | some sclk =>
        match pinOf mosi with
        | none => raiseInvalidArgument .badMosi s
        | some mosi =>
          match csOf cs with
          | none => raiseInvalidArgument .badCs s
          | some cs =>
            .next (((modeCalls (modePins sclk mosi cs).length (modePins sclk mosi cs) s).andThen
              (primeClock sclk mosi cs)).configure (.software sclk mosi cs))
    else .refused .gpioNotReady

end Sys2Proof.Machine
end

