-- ==== Sys2Proof/Machine/LedFrame.lean ====
section
/-! DEFINITION. The LED frame constructor (40_led_frame.md). -/

namespace Sys2Proof.Machine

/-- R63 to R65: `makeFrame` returns the record; it has no error, makes no call and may run at any time (R114). -/
def execMakeFrame (r g b brightness : Byte) (s : State) : Host.Outcome State Fault Refusal :=
  .next (s.ret (.ok (.frame (madeFrame r g b brightness))))

end Sys2Proof.Machine
end

