-- ==== Sys2Proof/Machine/BitWriter.lean ====
section
/-! DEFINITION. The bit writer and its two engines (43_bit_writer.md). -/

namespace Sys2Proof.Machine

/-! ### The software engine -/

/-- R89: put one bit on the wire of the pins `sclk` and `mosi`. -/
def emitBitOn (sclk mosi : Pin) (bit : Bool) (s : State) : Progress :=
  ((((gpioWrite sclk mosi mosi (levelOfBit bit) s).andThen
    (gpioWrite sclk mosi sclk .high)).andThen
    delay).andThen
    (gpioWrite sclk mosi sclk .low)).andThen
    delay

/-- R26, R87: emit the bit under the cursor and advance by one, until the count is reached; `fuel` bounds the bits. -/
def swLoop (sclk mosi : Pin) : Nat → State → Progress
  | 0, s => .going s
  | fuel + 1, s =>
    match s.engine with
    | none => .going s
    | some e =>
      if e.k < e.nbits then
        (emitBitOn sclk mosi (bitAt e.buf e.k) s).andThen fun s => swLoop sclk mosi fuel (s.advance 1)
      else .going s

/-- R87, R90: the software engine; nothing else is written. -/
def swEngine (sclk mosi : Pin) (buf : List Byte) (nbits : Nat) (s : State) : Progress :=
  (swLoop sclk mosi nbits (s.startEngine buf nbits)).map State.stopEngine

/-! ### The hardware engine -/

/-- R93: a chunk's size, at least one byte and at most the `left` ones. -/
def chunkSize (draw left : Nat) : Nat := draw % left + 1

/-- R26, R93: write the next chunk of the whole bytes and advance past it, until all are sent; `fuel` bounds the chunks. -/
def hwLoop (ch : Channel) : Nat → State → Progress
  | 0, s => .going s
  | fuel + 1, s =>
    match s.engine with
    | none => .going s
    | some e =>
      if e.k < e.nbits then
        match s.draws.takeChunk with
        | (n, d) =>
          let size := chunkSize n (e.nbits / 8 - e.k / 8)
          (spiWrite ch ((e.buf.drop (e.k / 8)).take size) { s with draws := d }).andThen fun s =>
            hwLoop ch fuel (s.advance (8 * size))
      else .going s

/-- R93: the hardware engine; no GPIO call and no delay. -/
def hwEngine (ch : Channel) (buf : List Byte) (nbits : Nat) (s : State) : Progress :=
  (hwLoop ch (nbits / 8) (s.startEngine buf nbits)).map State.stopEngine

/-! ### The writer (R86) -/

/-- R86: the first `nbits` bits of `buf` through the engine of a configuration. -/
def writeStream (cfg : TransmitterConfig) (buf : List Byte) (nbits : Nat) (s : State) : Progress :=
  match cfg with
  | .software sclk mosi _ => swEngine sclk mosi buf nbits s
  | .hardware ch => hwEngine ch buf nbits s

/-- The configuration the internal operations read; without one they are given no effect (log 14). -/
def withConfig (s : State) (f : TransmitterConfig → State → Host.Outcome State Fault Refusal) :
    Host.Outcome State Fault Refusal :=
  match s.inst with
  | .unconfigured => .refused .wrongConfiguration
  | .configured cfg => f cfg s

/-- R86, R94: the writer's preconditions, and its result. -/
def checkedWrite (cfg : TransmitterConfig) (buf : List Byte) (nbits : Nat) (s : State) :
    Host.Outcome State Fault Refusal :=
  if countFits buf nbits then
    match cfg with
    | .software sclk mosi cs => .next ((writeStream (.software sclk mosi cs) buf nbits s).finish .unit)
    | .hardware ch =>
      if wholeBytes nbits then .next ((writeStream (.hardware ch) buf nbits s).finish .unit)
      else .refused .partialByte
  else .refused .countBeyondBuffer

/-- R86. -/
def execWriteBits (buf : List Byte) (nbits : Nat) (s : State) : Host.Outcome State Fault Refusal :=
  whenIdle s fun s => withConfig s fun cfg s => checkedWrite cfg buf nbits s

/-- R87, on a software configuration. -/
def execSwWriteBits (buf : List Byte) (nbits : Nat) (s : State) : Host.Outcome State Fault Refusal :=
  whenIdle s fun s => withConfig s fun cfg s =>
    match cfg with
    | .software _ _ _ => checkedWrite cfg buf nbits s
    | .hardware _ => .refused .wrongConfiguration

/-- R93, R94, on a hardware configuration. -/
def execHwWriteBits (buf : List Byte) (nbits : Nat) (s : State) : Host.Outcome State Fault Refusal :=
  whenIdle s fun s => withConfig s fun cfg s =>
    match cfg with
    | .hardware _ => checkedWrite cfg buf nbits s
    | .software _ _ _ => .refused .wrongConfiguration

/-- R89, on a software configuration. -/
def execEmitBit (bit : Bool) (s : State) : Host.Outcome State Fault Refusal :=
  whenIdle s fun s => withConfig s fun cfg s =>
    match cfg with
    | .software sclk mosi _ => .next ((emitBitOn sclk mosi bit s).finish .unit)
    | .hardware _ => .refused .wrongConfiguration

end Sys2Proof.Machine
end

