-- ==== Sys2Proof/Machine/Update.lean ====
section
/-! DEFINITION. Frame serialization (42_update.md), and the emission steps of the three wire formats (R51 to R54, R81). -/

namespace Sys2Proof.Machine

/-- R77: N_MAX, unbounded when there is none. -/
def withinNMax (nMax : Option Nat) (n : Nat) : Bool :=
  match nMax with
  | none => true
  | some m => decide (n ≤ m)

/-- R77, R97: `update` on an instance no init has configured is InvalidArgument. -/
def withDevice (s : State) (f : TransmitterConfig → State → Host.Outcome State Fault Refusal) :
    Host.Outcome State Fault Refusal :=
  match s.inst with
  | .unconfigured => raiseInvalidArgument .noDevice s
  | .configured cfg => f cfg s

/-- R76 to R85. The whole stream goes through one writer call (R81, log 12). The block's own checks come before the
model's bound N_MAX (DESIGN CHOICE, log 10). -/
def execUpdate (frames : Option (List FrameArg)) (s : State) : Host.Outcome State Fault Refusal :=
  whenIdle s fun s => withDevice s fun cfg s =>
    match frames with
    | none => raiseInvalidArgument .nullFrames s
    | some [] => raiseInvalidArgument .emptyFrames s
    | some (f :: fs) =>
      if withinNMax s.params.nMax (f :: fs).length then
        let bytes := stream ((f :: fs).map frameValue)
        .next ((writeStream cfg bytes (8 * bytes.length) s).finish .unit)
      else .refused .tooManyLeds

/-! ### The emissions one by one (R81, log 1)

The stream of an `update` is `F_START ++ F_LED* ++ F_END*` with N LED frames and E(N) end-frame bytes, and no other (R58):
an emission runs only where such a stream has it. -/

/-- R58: the stream after a start frame. -/
def afterStart : Option Emission → Except Refusal (Option Emission)
  | none => .ok (some (.leds 0))
  | some _ => .error .outOfStream

/-- R58, R77: the stream after one more LED frame, at most N_MAX of them. -/
def afterLed (nMax : Option Nat) : Option Emission → Except Refusal (Option Emission)
  | some (.leds n) => if withinNMax nMax (n + 1) then .ok (some (.leds (n + 1))) else .error .tooManyLeds
  | some (.ends _ _) => .error .outOfStream
  | none => .error .outOfStream

/-- R54, R79: the stream after `m` end-frame bytes for `n` LED frames; the last of the E(n) ends it. -/
def endsAfter (n m : Nat) : Option Emission := if m < endBytes n then some (.ends n m) else none

/-- R58: the stream after one more end-frame byte, which needs an LED frame before it (R77). -/
def afterEnd : Option Emission → Except Refusal (Option Emission)
  | some (.leds n) => if n = 0 then .error .outOfStream else .ok (endsAfter n 1)
  | some (.ends n m) => .ok (endsAfter n (m + 1))
  | none => .error .outOfStream

/-- The return of an emission: the stream goes on, or a failed call has ended it (R44, R82). -/
def Progress.emitted (p : Progress) (next : Option Emission) : State :=
  match p with
  | .going s => (s.setEmission next).ret (.ok .unit)
  | .aborted s => raiseTransport (s.setEmission none)

/-- R81: one of the emissions of `update`: its bytes through the writer of the configured engine. -/
def emitFrame (bytes : List Byte) (next : Except Refusal (Option Emission)) (s : State) :
    Host.Outcome State Fault Refusal :=
  whenNoWriter s fun s => withDevice s fun cfg s =>
    match next with
    | .error r => .refused r
    | .ok next => .next ((writeStream cfg bytes (8 * bytes.length) s).emitted next)

/-- R52, R81: emit the start frame, 32 zero bits. -/
def execFStart (s : State) : Host.Outcome State Fault Refusal := emitFrame startFrame (afterStart s.emission) s

/-- R53, R81: emit one LED frame. -/
def execFLed (brightness : BitVec 5) (blue green red : Byte) (s : State) : Host.Outcome State Fault Refusal :=
  emitFrame (ledBytes { brightness := brightness, blue := blue, green := green, red := red })
    (afterLed s.params.nMax s.emission) s

/-- R54, R81: emit one byte of the end frame. -/
def execFEnd (s : State) : Host.Outcome State Fault Refusal :=
  emitFrame [Config.endByte] (afterEnd s.emission) s

end Sys2Proof.Machine
end

