-- ==== Sys2Proof/Machine/Dispatch.lean ====
section
/-! DEFINITION. One arm per instruction. -/

namespace Sys2Proof.Machine

/-- The meaning of each instruction. -/
def exec (i : Instr) (s : State) : Host.Outcome State Fault Refusal :=
  match i with
  | .fStart => Sys2Proof.Machine.execFStart s
  | .fLed br b g r => Sys2Proof.Machine.execFLed br b g r s
  | .fEnd => Sys2Proof.Machine.execFEnd s
  | .makeFrame r g b br => Sys2Proof.Machine.execMakeFrame r g b br s
  | .initHardware channel => Sys2Proof.Machine.execInitHardware channel s
  | .initSoftware sclk mosi cs => Sys2Proof.Machine.execInitSoftware sclk mosi cs s
  | .update frames => Sys2Proof.Machine.execUpdate frames s
  | .writeBits buf nbits => Sys2Proof.Machine.execWriteBits buf nbits s
  | .swWriteBits buf nbits => Sys2Proof.Machine.execSwWriteBits buf nbits s
  | .emitBit bit => Sys2Proof.Machine.execEmitBit bit s
  | .hwWriteBits buf nbits => Sys2Proof.Machine.execHwWriteBits buf nbits s

end Sys2Proof.Machine
end

