-- ==== Sys2Proof/Machine/Step.lean ====
section
/-! DEFINITION. One step: the machine takes the oldest pending input; with none it stays idle (R110, R112). -/

namespace Sys2Proof.Machine

/-- One step. An operation is one step, from its call to its return (log 11). -/
def step (s : State) : Host.Outcome State Fault Refusal :=
  match s.pending with
  | [] => .next s
  | .gpioSetup :: rest => takeGpioSetup { s with pending := rest }
  | .actorWrite p lvl :: rest => takeActorWrite p lvl { s with pending := rest }
  | .fetch f :: rest => runFetched f exec { s with pending := rest }

/-- The table word as the next pending input (log 3). -/
def State.withFetchWord (s : State) (nbits w : Nat) : State :=
  { s with pending := .fetch (.wire (wireLayout nbits w)) :: s.pending }

end Sys2Proof.Machine
end

