-- ==== Sys2Proof/Safety.lean ====
section
/-! DEFINITION. What counts as a safe run, and the terms the claims are stated in. -/

namespace Sys2Proof.Machine

/-! ### Events the rules name -/

/-- A call answered ok. -/
def okEvent (c : Call) : Event := { call := c, mark := .ok }

/-- A call answered failed. -/
def failedEvent (c : Call) : Event := { call := c, mark := .failed }

/-- R88, R89: the five events of one bit, for a delay of `us` microseconds. -/
def bitEvents (sclk mosi : Pin) (us : Nat) (bit : Bool) : List Event :=
  [okEvent (.gpioWrite mosi (levelOfBit bit)), okEvent (.gpioWrite sclk .high), okEvent (.delay us),
   okEvent (.gpioWrite sclk .low), okEvent (.delay us)]

/-- R87, R88: the events of a bit list on the software engine. -/
def swEvents (sclk mosi : Pin) (us : Nat) (bits : List Bool) : List Event := bits.flatMap (bitEvents sclk mosi us)

/-- R93: the events of a split into chunks on the hardware engine. -/
def hwEvents (ch : Channel) (chunks : List (List Byte)) : List Event :=
  chunks.map fun c => okEvent (.spiWrite ch c)

/-- R93: a split of a byte list into consecutive non-empty chunks. -/
def IsSplit (chunks : List (List Byte)) (bytes : List Byte) : Prop :=
  chunks.flatten = bytes ∧ ∀ c ∈ chunks, c ≠ []

/-- The next `n` answers of the FAIL draw are scripted, and all are ok. -/
def Draws.okFor (d : Draws) (n : Nat) : Prop := d.fail.take n = List.replicate n false

/-- The bits on a wire log, first first: what each rising edge carries (R91) and each bit of the peripheral (R95). -/
def wireBits (w : List WireEvent) : List PinLevel :=
  w.filterMap fun e =>
    match e with
    | .rising _ carried => some carried
    | .falling _ => none
    | .spiBit _ _ bit => some (some (levelOfBit bit))

/-- R91, R118: a clock level the write on `sclk` may find: the known one, or the drawn one where it is unknown. -/
structure ClockMayBe (s : State) (sclk : Pin) (l : Level) : Prop where
  known : ∀ b, s.level sclk = some b → l = b
  drawn : s.level sclk = none → ∀ low rest, s.draws.wasLow = low :: rest → l = if low then .low else .high

/-! ### Which bits an instruction sends -/

/-- The wire formats, whose instructions are the emission steps of a stream (R81, log 1). -/
def isEmission : Instr → Bool
  | .fStart => true
  | .fLed _ _ _ _ => true
  | .fEnd => true
  | .makeFrame _ _ _ _ => false
  | .initHardware _ => false
  | .initSoftware _ _ _ => false
  | .update _ => false
  | .writeBits _ _ => false
  | .swWriteBits _ _ => false
  | .emitBit _ => false
  | .hwWriteBits _ _ => false

/-- The buffer and bit count an instruction hands to the bit writer (R52 to R54, R76, R80, R86, R87, R93). -/
def sends : Instr → Option (List Byte × Nat)
  | .fStart => some ([0x00#8, 0x00#8, 0x00#8, 0x00#8], 32)
  | .fLed brightness blue green red => some ([0xE0#8 ||| (brightness.setWidth 8 &&& 0x1F#8), blue, green, red], 32)
  | .fEnd => some ([0xFF#8], 8)
  | .makeFrame _ _ _ _ => none
  | .initHardware _ => none
  | .initSoftware _ _ _ => none
  | .update none => none
  | .update (some frames) =>
    some (stream (frames.map frameValue), 32 + 32 * frames.length + 8 * endBytes frames.length)
  | .writeBits buf nbits => some (buf, nbits)
  | .swWriteBits buf nbits => some (buf, nbits)
  | .emitBit _ => none
  | .hwWriteBits buf nbits => some (buf, nbits)

/-! ### What an operation leaves -/

/-- The state a bit writer leaves unchanged besides what its engine writes: all but trace, levels, wire, draws and
results. -/
structure SameBut (s t : State) : Prop where
  inst : t.inst = s.inst
  engine : t.engine = s.engine
  emission : t.emission = s.emission
  modes : t.modes = s.modes
  spi : t.spi = s.spi
  gpioReady : t.gpioReady = s.gpioReady
  params : t.params = s.params
  pending : t.pending = s.pending

/-- `t` is `s` after the software engine sent `bits` with every call answered ok (R87 to R92). -/
structure SentOnSoftware (sclk mosi : Pin) (bits : List Bool) (s t : State) : Prop where
  trace : t.trace = s.trace ++ swEvents sclk mosi s.params.tHoldUs bits
  results : t.results = s.results ++ [.ok .unit]
  clockLow : bits ≠ [] → t.level sclk = some .low
  dataLast : mosi ≠ sclk → ∀ bit, bits.getLast? = some bit → t.level mosi = some (levelOfBit bit)
  noBits : bits = [] → t.levels = s.levels
  otherPins : ∀ p, p ≠ sclk → p ≠ mosi → t.level p = s.level p
  frame : SameBut s t

/-- `t` is `s` after the hardware engine sent `bytes` with every call answered ok (R93, R95). -/
structure SentOnHardware (ch : Channel) (bytes : List Byte) (s t : State) : Prop where
  trace : ∃ chunks, IsSplit chunks bytes ∧ t.trace = s.trace ++ hwEvents ch chunks
  results : t.results = s.results ++ [.ok .unit]
  wire : t.wire = s.wire ++ spiEvents ch s.params.spiMode (bitsOf bytes (8 * bytes.length))
  levels : t.levels = s.levels
  frame : SameBut s t

/-- R20: the operand that names a chip-select pin or none. -/
def csOperand : Option Pin → Int
  | none => Config.csNone
  | some p => (p.val : Int)

/-- R70 to R72: the calls of `initSoftware` when its mode calls come in `order`. -/
def initCalls (order : List Pin) (sclk : Pin) (cs : Option Pin) : List Call :=
  order.map .gpioMode ++ (match cs with | none => [] | some _ => [.gpioWrite sclk .high])

/-- `t` is `s` after a successful `initSoftware` whose mode calls came in `order` (R70 to R72, R75). That a level is
unknown after its mode call is log 5 (D2, D3), the edge of the priming write R91 and log 7: the clock level it finds is
drawn, and a rising edge carries the unknown data level. -/
structure ConfiguredSoftware (sclk mosi : Pin) (cs : Option Pin) (order : List Pin) (s t : State) : Prop where
  trace : t.trace = s.trace ++ (initCalls order sclk cs).map okEvent
  inst : t.inst = .configured (.software sclk mosi cs)
  results : t.results = s.results ++ [.ok (.transmitter (.software sclk mosi cs))]
  outputs : ∀ p ∈ modePins sclk mosi cs, t.mode p = .output
  otherPins : ∀ p, p ∉ modePins sclk mosi cs → t.mode p = s.mode p ∧ t.level p = s.level p
  primed : cs ≠ none → t.level sclk = some .high
  unknown : ∀ p ∈ modePins sclk mosi cs, cs = none ∨ p ≠ sclk → t.level p = none
  noPriming : cs = none → t.wire = s.wire
  primingEdge : cs ≠ none → ∃ low, (∀ first rest, s.draws.wasLow = first :: rest → low = first) ∧
    t.wire = s.wire ++ if low then [.rising sclk none] else []
  engine : t.engine = s.engine
  emission : t.emission = s.emission
  spi : t.spi = s.spi
  gpioReady : t.gpioReady = s.gpioReady
  params : t.params = s.params
  pending : t.pending = s.pending

/-- The emission steps of R81 for a list of LED frames: start frame, LED frames, end-frame bytes. -/
def emissions (fs : List LedFrame) : List Instr :=
  [.fStart] ++ fs.map (fun f => .fLed f.brightness f.blue f.green f.red) ++
    List.replicate (endBytes fs.length) .fEnd

/-- Instructions one after the other, stopping where one answers no next state. -/
def execAll : List Instr → State → Host.Outcome State Fault Refusal
  | [], s => .next s
  | i :: is, s =>
    match exec i s with
    | .next t => execAll is t
    | .fault e => .fault e
    | .refused r => .refused r

/-! ### The invariant -/

/-- R69, R93, R99, R107: the argument values a call may have, and a delay never fails. -/
def Event.legal (us : Nat) (e : Event) : Bool :=
  match e.call with
  | .gpioMode _ => true
  | .gpioWrite _ _ => true
  | .delay d => decide (d = us) && decide (e.mark = .ok)
  | .spiSetup _ hz => decide (hz = Config.hwFreqHz)
  | .spiWrite _ bytes => decide (bytes ≠ [])

/-- R70, R71: the pin was made an output by an earlier call. -/
def madeOutput (tr : List Event) (p : Pin) : Bool := decide (okEvent (.gpioMode p) ∈ tr)

/-- R71, R72: every write of a trace is to a pin an earlier call of the trace made an output. -/
def ModesFirst (tr : List Event) : Prop :=
  ∀ before after p lvl mark, tr = before ++ { call := .gpioWrite p lvl, mark := mark } :: after →
    madeOutput before p = true

/-- R67, R70: the calls that an instance's configuration comes from are in the trace. -/
def Inst.setUpIn (tr : List Event) : Inst → Prop
  | .unconfigured => True
  | .configured (.hardware ch) => okEvent (.spiSetup ch Config.hwFreqHz) ∈ tr
  | .configured (.software sclk mosi cs) =>
    madeOutput tr sclk = true ∧ madeOutput tr mosi = true ∧ ∀ p, cs = some p → madeOutput tr p = true

/-- R58, R77, R79: the positions a stream can be in: within N_MAX, and short of its last end-frame byte. -/
def Emission.legal (nMax : Option Nat) : Emission → Bool
  | .leds n => n == 0 || withinNMax nMax n
  | .ends n m => decide (1 ≤ n) && withinNMax nMax n && decide (1 ≤ m) && decide (m < endBytes n)

/-- The invariant of the machine between operations: no engine state is left (R25), the trace holds only legal calls
(R107), pins are made outputs before they are written (R71), the configuration's set-up calls were made (R23), a
channel that is set up is so at 500 kHz (R17), and a stream begun emission by emission is a configured instance's and in
a position of R58. -/
structure State.Inv (s : State) : Prop where
  idle : s.engine = none
  legal : ∀ e ∈ s.trace, e.legal s.params.tHoldUs = true
  modesFirst : ModesFirst s.trace
  setUp : s.inst.setUpIn s.trace
  frequency : ∀ ch hz, s.spiOf ch = .setUp hz → hz = Config.hwFreqHz
  stream : ∀ e, s.emission = some e → s.inst ≠ .unconfigured ∧ e.legal s.params.nMax = true

end Sys2Proof.Machine
end

