-- ==== Sys2Proof/Certificates/Slice0/Obligations.lean ====
section
/-! DEFINITION. The statements for the provers. -/

open Sys2Proof Sys2Proof.Machine

/-! ### Written forms -/

/-- R52, R53, R54 and the source vector S1: words written out from the format tables decode to their formats, and
words with a wrong fixed bit decode to none (R58). -/
def Obligations.SpecWordsDecode : Prop :=
  decodeTableWord 32 0b00000000000000000000000000000000 = some .fStart ∧
  decodeTableWord 32 0b11111111000111100001010000001010 = some (.fLed 31 30 20 10) ∧
  decodeTableWord 32 0b11100000000000000000000000000000 = some (.fLed 0 0 0 0) ∧
  decodeTableWord 8 0b11111111 = some .fEnd ∧
  decodeTableWord 32 0b00011111000111100001010000001010 = none ∧
  decodeTableWord 8 0b11111110 = none

/-- Decoding what the encoder writes gives the instruction back, every operand at every value: the wire formats of R51
to R54, and the lines of R62 (the line form is log 2). -/
def Obligations.EncodedInstructionsDecodeBack : Prop :=
  ∀ i : Instr, decode (encode i) = .ok i

/-- The wire bytes of an instruction are the only ones that decode to it (R51 to R54). -/
def Obligations.DecodedWireBytesAreTheEncoding : Prop :=
  ∀ (bytes : List Byte) (i : Instr), decodeWire bytes = .ok i → encode i = .wire bytes

/-- R58, R60: a word whose bits 31:29 are not 0b111 and that is not the start frame, a byte other than 0xFF, and bytes
of another length are no wire format; the decoder names each. -/
def Obligations.ReservedWireFormsRefused : Prop :=
  (∀ w : Word, w ≠ 0 → w.extractLsb' 29 3 ≠ 0b111#3 → decodeWire (wordBytes w) = .error .reservedWord) ∧
  (∀ b : Byte, b ≠ 0xFF#8 → decodeWire [b] = .error .reservedByte) ∧
  (∀ bytes : List Byte, bytes.length ≠ 4 → bytes.length ≠ 1 → decodeWire bytes = .error .badLength)

/-- R53: byte0 is `0xE0 | (brightness & 0x1F)`, then blue, green, red, most significant byte first in the word, and
bits 31:29 of the word are 0b111. -/
def Obligations.LedFrameWireForm : Prop :=
  ∀ f : LedFrame,
    ledBytes f = [0xE0#8 ||| (f.brightness.setWidth 8 &&& 0x1F#8), f.blue, f.green, f.red] ∧
    ledWord f = ((0xE0#8 ||| (f.brightness.setWidth 8 &&& 0x1F#8)).setWidth 32 <<< 24 |||
      f.blue.setWidth 32 <<< 16 ||| f.green.setWidth 32 <<< 8 ||| f.red.setWidth 32) ∧
    wordBytes (ledWord f) = ledBytes f ∧
    (ledWord f).extractLsb' 29 3 = 0b111#3 ∧ (ledWord f).extractLsb' 24 5 = f.brightness

/-- R54, R79: the end frame is E(N) = ((N + 1) div 2 + 7) div 8 bytes of 0xFF, and E(N) = k for 16(k-1) < N <= 16k. -/
def Obligations.EndFrameLength : Prop :=
  (∀ n : Nat, endFrame n = List.replicate (((n + 1) / 2 + 7) / 8) 0xFF#8) ∧
  (∀ n : Nat, 1 ≤ n → n ≤ 16 → endBytes n = 1) ∧
  (∀ n : Nat, 17 ≤ n → n ≤ 32 → endBytes n = 2) ∧
  (∀ n k : Nat, 16 * (k - 1) < n → n ≤ 16 * k → endBytes n = k)

/-- R78, R80: the stream's bytes, its length and its bit count, and the bit count of the source vector S2. -/
def Obligations.StreamLengthAndBitCount : Prop :=
  ∀ fs : List LedFrame,
    stream fs = [0x00#8, 0x00#8, 0x00#8, 0x00#8] ++ fs.flatMap ledBytes ++ List.replicate (endBytes fs.length) 0xFF#8 ∧
    (stream fs).length = 4 + 4 * fs.length + endBytes fs.length ∧
    8 * (stream fs).length = 32 + 32 * fs.length + 8 * endBytes fs.length ∧
    (fs.length = 3 → 8 * (stream fs).length = 136)

/-- R26, R40: the bit under the cursor, by the phase the cursor is in: a start bit is 0, a bit of LED frame `i` is the
bit of its word counted from the most significant, an end bit is 1. -/
def Obligations.CursorPhasesGiveTheBits : Prop :=
  ∀ (fs : List LedFrame) (k : Nat), k < 8 * (stream fs).length →
    (phaseOf fs.length k = .start → k < 32 ∧ bitAt (stream fs) k = false) ∧
    (∀ i, phaseOf fs.length k = .led i → 32 + 32 * i ≤ k ∧ k < 64 + 32 * i ∧
      ∃ f, fs[i]? = some f ∧ bitAt (stream fs) k = (ledWord f).getLsbD (31 - (k - 32) % 32)) ∧
    (phaseOf fs.length k = .finish → 32 + 32 * fs.length ≤ k ∧ bitAt (stream fs) k = true)

/-- R61: given the number of frames, the stream decodes to the frames. -/
def Obligations.StreamDecodesToItsFrames : Prop :=
  ∀ fs : List LedFrame, decodeStream fs.length (stream fs) = some fs

/-! ### makeFrame -/

/-- R63, R64: `makeFrame` returns the record with the low five bits of the brightness, in every state, and changes
nothing but the return value; the record's wire bytes are `[0xE0 | (brightness & 0x1F), b, g, r]`. -/
def Obligations.MakeFrameReturnsTheRecord : Prop :=
  ∀ (r g b brightness : Byte) (s : State), ∃ f : LedFrame,
    exec (.makeFrame r g b brightness) s = .next { s with results := s.results ++ [.ok (.frame f)] } ∧
    f.brightness.toNat = brightness.toNat % 32 ∧ f.blue = b ∧ f.green = g ∧ f.red = r ∧
    ledBytes f = [0xE0#8 ||| (brightness &&& 0x1F#8), b, g, r]

/-! ### Initialisation -/

/-- R68: a channel other than 0 and 1 is InvalidArgument, with no call and no change of state. -/
def Obligations.InitHardwareRejectsOtherChannels : Prop :=
  ∀ (channel : Int) (s : State), s.Idle → channel ≠ 0 → channel ≠ 1 →
    exec (.initHardware channel) s =
      .next { s with results := s.results ++ [.invalidArgument .badChannel] }

/-- R67, R69, R75, R99, R100: on channel 0 or 1 there is exactly the call `SpiSetup(channel, 500000)`. Answered ok, the
channel is set up and configured; answered failed, the result is TransportError, `inst` stays, the setup is
unspecified. Nothing else changes. -/
def Obligations.InitHardwareSetsUpTheChannel : Prop :=
  ∀ (ch : Channel) (s : State) (rest : List Bool), s.Idle →
    (s.draws.fail = false :: rest →
      exec (.initHardware (ch.val : Int)) s = .next
        { s with
          inst := .configured (.hardware ch)
          spi := s.spi.set ch.val (.setUp 500000)
          trace := s.trace ++ [{ call := .spiSetup ch 500000, mark := .ok }]
          results := s.results ++ [.ok (.transmitter (.hardware ch))]
          draws := { s.draws with fail := rest, index := s.draws.index + 1 } }) ∧
    (s.draws.fail = true :: rest →
      exec (.initHardware (ch.val : Int)) s = .next
        { s with
          spi := s.spi.set ch.val .unspecified
          trace := s.trace ++ [{ call := .spiSetup ch 500000, mark := .failed }]
          results := s.results ++ [.transportError]
          draws := { s.draws with fail := rest, index := s.draws.index + 1 } })

/-- R74: `initSoftware` raises InvalidArgument, with no call and no change of state, exactly when an operand is out of
its range. -/
def Obligations.InitSoftwareRejectsExactlyBadPins : Prop :=
  ∀ (a b c : Int) (s : State), s.Idle → s.gpioReady = true →
    ((∃ cause, exec (.initSoftware a b c) s = .next { s with results := s.results ++ [.invalidArgument cause] }) ↔
      ¬ ((0 ≤ a ∧ a ≤ 29) ∧ (0 ≤ b ∧ b ≤ 29) ∧ (-1 ≤ c ∧ c ≤ 29)))

/-- R97, R102 (the order is the spec's own choice, D25): the label is that of the first bad operand in the order sclk,
mosi, cs. -/
def Obligations.InitSoftwareLabelsTheFirstBadPin : Prop :=
  ∀ (a b c : Int) (s : State), s.Idle → s.gpioReady = true →
    (¬ (0 ≤ a ∧ a ≤ 29) →
      exec (.initSoftware a b c) s = .next { s with results := s.results ++ [.invalidArgument .badSclk] }) ∧
    ((0 ≤ a ∧ a ≤ 29) → ¬ (0 ≤ b ∧ b ≤ 29) →
      exec (.initSoftware a b c) s = .next { s with results := s.results ++ [.invalidArgument .badMosi] }) ∧
    ((0 ≤ a ∧ a ≤ 29) → (0 ≤ b ∧ b ≤ 29) → ¬ (-1 ≤ c ∧ c ≤ 29) →
      exec (.initSoftware a b c) s = .next { s with results := s.results ++ [.invalidArgument .badCs] })

/-- R70 to R72, R21, R75: with legal operands and every call answered ok, `initSoftware` makes one mode call per role
in some order, then, only with a chip-select pin, drives sclk HIGH, and configures the pins, equal or not. R31, D2, D3
by inference (log 5): the levels after the mode calls are unknown. R91 (the model's wire log, log 7): the priming write
makes a rising edge, which carries the unknown data level, exactly where the drawn clock level was LOW. -/
def Obligations.InitSoftwareConfiguresThePins : Prop :=
  ∀ (sclk mosi : Pin) (cs : Option Pin) (s : State), s.Idle → s.gpioReady = true →
    s.draws.okFor (initCalls (modePins sclk mosi cs) sclk cs).length →
    ∃ t order, order.Perm (modePins sclk mosi cs) ∧
      exec (.initSoftware (sclk.val : Int) (mosi.val : Int) (csOperand cs)) s = .next t ∧
      ConfiguredSoftware sclk mosi cs order s t

/-- R70, R71, R72, R75: every order of the mode calls is admitted: some answers of the order draws give it, with all
that a successful `initSoftware` leaves. The order is the spec's own choice (D5); the unknown levels are log 5 (R31, D2,
D3), the priming edge is log 7 (R91). -/
def Obligations.EveryModeOrderIsAdmitted : Prop :=
  ∀ (sclk mosi : Pin) (cs : Option Pin) (order : List Pin) (s : State), order.Perm (modePins sclk mosi cs) →
    s.Idle → s.gpioReady = true →
    s.draws.okFor (initCalls (modePins sclk mosi cs) sclk cs).length →
    ∃ draws t,
      exec (.initSoftware (sclk.val : Int) (mosi.val : Int) (csOperand cs))
        { s with draws := { s.draws with order := draws } } = .next t ∧
      ConfiguredSoftware sclk mosi cs order s t

/-- R75, R100, R101: when call number `j` of `initSoftware` fails, the calls before it were made and those after it
are not, the result is TransportError, `inst` stays, and the failed call's pin has an unspecified mode (a mode call) or
an unknown level (the priming write). That a failed priming write leaves the wire as it was is the MODEL's choice (log
7; R91 counts successful writes). -/
def Obligations.InitSoftwareStopsAtTheFailedCall : Prop :=
  ∀ (sclk mosi : Pin) (cs : Option Pin) (s : State) (j : Nat) (rest : List Bool), s.Idle →
    s.gpioReady = true → s.draws.fail = List.replicate j false ++ true :: rest →
    j < (initCalls (modePins sclk mosi cs) sclk cs).length →
    ∃ t order c, order.Perm (modePins sclk mosi cs) ∧
      exec (.initSoftware (sclk.val : Int) (mosi.val : Int) (csOperand cs)) s = .next t ∧
      (initCalls order sclk cs)[j]? = some c ∧
      t.trace = s.trace ++ ((initCalls order sclk cs).take j).map okEvent ++ [failedEvent c] ∧
      t.results = s.results ++ [.transportError] ∧ t.inst = s.inst ∧
      (∀ p, c = .gpioMode p → t.mode p = .unspecified) ∧ (∀ p l, c = .gpioWrite p l → t.level p = none) ∧
      (∀ p, p ∉ modePins sclk mosi cs → t.mode p = s.mode p ∧ t.level p = s.level p) ∧
      t.wire = s.wire ∧ t.spi = s.spi ∧ t.engine = s.engine ∧ t.emission = s.emission ∧
      t.gpioReady = s.gpioReady ∧ t.params = s.params ∧ t.pending = s.pending

/-- R115: `initSoftware` before the GPIO library setup is refused, whatever its operands (the operands too: log 10). -/
def Obligations.InitSoftwareNeedsTheGpioSetup : Prop :=
  ∀ (a b c : Int) (s : State), s.Idle → s.gpioReady = false →
    exec (.initSoftware a b c) s = .refused .gpioNotReady

/-! ### The software engine -/

/-- R88, R89, R92, R121: with every call answered ok, `emitBit` makes its five calls in order, leaves the clock LOW and
the data pin, where it is another pin, at the bit, and changes nothing else but the wire and the draws. -/
def Obligations.EmitBitMakesItsFiveCalls : Prop :=
  ∀ (bit : Bool) (sclk mosi : Pin) (cs : Option Pin) (s : State), s.Idle →
    s.inst = .configured (.software sclk mosi cs) → s.draws.okFor 3 →
    ∃ t, exec (.emitBit bit) s = .next t ∧ SentOnSoftware sclk mosi [bit] s t ∧
      t.trace = s.trace ++
        [okEvent (.gpioWrite mosi (if bit then .high else .low)), okEvent (.gpioWrite sclk .high),
         okEvent (.delay s.params.tHoldUs), okEvent (.gpioWrite sclk .low), okEvent (.delay s.params.tHoldUs)]

/-- R89, R100, R101: `emitBit` stops at its first failed write, the calls after it are not made, the level of the pin
of the failed write is unknown, those of the writes before it hold, every other level stays, and the result is
TransportError. The wire holds the edges of R91 of the successful writes; that the failed write makes none is the
MODEL's choice, and so are the edges where the two pins are one (log 7). -/
def Obligations.EmitBitStopsAtTheFailedWrite : Prop :=
  ∀ (bit : Bool) (sclk mosi : Pin) (cs : Option Pin) (s : State) (rest : List Bool), s.Idle →
    s.inst = .configured (.software sclk mosi cs) →
    (s.draws.fail = true :: rest →
      ∃ t, exec (.emitBit bit) s = .next t ∧ t.results = s.results ++ [.transportError] ∧ SameBut s t ∧
        t.trace = s.trace ++ [failedEvent (.gpioWrite mosi (levelOfBit bit))] ∧
        t.level mosi = none ∧ (∀ p, p ≠ mosi → t.level p = s.level p) ∧ t.wire = s.wire) ∧
    (s.draws.fail = false :: true :: rest →
      ∃ t, exec (.emitBit bit) s = .next t ∧ t.results = s.results ++ [.transportError] ∧ SameBut s t ∧
        t.trace = s.trace ++ [okEvent (.gpioWrite mosi (levelOfBit bit)), failedEvent (.gpioWrite sclk .high)] ∧
        t.level sclk = none ∧ (mosi ≠ sclk → t.level mosi = some (levelOfBit bit)) ∧
        (∀ p, p ≠ mosi → p ≠ sclk → t.level p = s.level p) ∧
        (sclk ≠ mosi → t.wire = s.wire) ∧
        (sclk = mosi → ∃ b, ClockMayBe s sclk b ∧
          t.wire = s.wire ++ edgeOf sclk b (levelOfBit bit) (s.level mosi))) ∧
    (s.draws.fail = false :: false :: true :: rest →
      ∃ t, exec (.emitBit bit) s = .next t ∧ t.results = s.results ++ [.transportError] ∧ SameBut s t ∧
        t.trace = s.trace ++ [okEvent (.gpioWrite mosi (levelOfBit bit)), okEvent (.gpioWrite sclk .high),
          okEvent (.delay s.params.tHoldUs), failedEvent (.gpioWrite sclk .low)] ∧
        t.level sclk = none ∧ (mosi ≠ sclk → t.level mosi = some (levelOfBit bit)) ∧
        (∀ p, p ≠ mosi → p ≠ sclk → t.level p = s.level p) ∧
        (sclk ≠ mosi → ∃ b, ClockMayBe s sclk b ∧
          t.wire = s.wire ++ edgeOf sclk b .high (some (levelOfBit bit))) ∧
        (sclk = mosi → ∃ b, ClockMayBe s sclk b ∧
          t.wire = s.wire ++ edgeOf sclk b (levelOfBit bit) (s.level mosi) ++
            edgeOf sclk (levelOfBit bit) .high (some (levelOfBit bit))))

/-- R91: from a LOW clock, `emitBit` makes one rising edge carrying the bit and then one falling edge; from a HIGH
clock no rising edge; from an unknown level the draw says which. -/
def Obligations.EmitBitClockEdges : Prop :=
  ∀ (bit : Bool) (sclk mosi : Pin) (cs : Option Pin) (s : State), s.Idle →
    s.inst = .configured (.software sclk mosi cs) → sclk ≠ mosi → s.draws.okFor 3 →
    ∃ t, exec (.emitBit bit) s = .next t ∧ t.level sclk = some .low ∧
      (s.level sclk = some .low →
        t.wire = s.wire ++ [.rising sclk (some (levelOfBit bit)), .falling sclk]) ∧
      (s.level sclk = some .high → t.wire = s.wire ++ [.falling sclk]) ∧
      (∀ wasLow rest, s.level sclk = none → s.draws.wasLow = wasLow :: rest →
        t.wire = s.wire ++
          (if wasLow then [.rising sclk (some (levelOfBit bit)), .falling sclk] else [.falling sclk]))

/-- R86, R87, R88, R90, R92: with every call answered ok, `swWriteBits` and, on a software configuration, `writeBits`
send exactly the first `nbits` bits, most significant first, five events a bit. -/
def Obligations.SoftwareWriterSendsTheBits : Prop :=
  ∀ (buf : List Byte) (nbits : Nat) (sclk mosi : Pin) (cs : Option Pin) (s : State), s.Idle →
    s.inst = .configured (.software sclk mosi cs) → nbits ≤ 8 * buf.length → s.draws.okFor (3 * nbits) →
    ∃ t, exec (.swWriteBits buf nbits) s = .next t ∧ exec (.writeBits buf nbits) s = .next t ∧
      SentOnSoftware sclk mosi (bitsOf buf nbits) s t ∧ t.trace.length = s.trace.length + 5 * nbits

/-- R44, R82, R100, R101: when a write of the software engine fails, in `update`, in an emission step (log 1), in
`writeBits` or in `swWriteBits`, what was called is a prefix of the events of the whole bit list, its last event marked
failed; the rest is not called, the level of the failed write's pin is unknown, and no stream is left begun. -/
def Obligations.SoftwareFailureSendsAPrefix : Prop :=
  ∀ (i : Instr) (buf : List Byte) (nbits : Nat) (sclk mosi : Pin) (cs : Option Pin) (s t : State),
    s.inst = .configured (.software sclk mosi cs) → sends i = some (buf, nbits) → exec i s = .next t →
    t.results = s.results ++ [.transportError] →
    ∃ before p lvl,
      before ++ [okEvent (.gpioWrite p lvl)] <+: swEvents sclk mosi s.params.tHoldUs (bitsOf buf nbits) ∧
      t.trace = s.trace ++ before ++ [failedEvent (.gpioWrite p lvl)] ∧ t.level p = none ∧ t.emission = none ∧
      SameBut s { t with emission := s.emission }

/-! ### The hardware engine -/

/-- R86, R93, R95: with every call answered ok, `hwWriteBits` and, on a hardware configuration, `writeBits` send the
whole bytes in some split into non-empty chunks, with no GPIO call and no delay. Most significant bit first is the
spec's own choice (log 15; R40, R95, D11). -/
def Obligations.HardwareWriterSendsTheBytes : Prop :=
  ∀ (buf : List Byte) (nbits : Nat) (ch : Channel) (s : State), s.Idle →
    s.inst = .configured (.hardware ch) → nbits ≤ 8 * buf.length → nbits % 8 = 0 → s.draws.okFor (nbits / 8) →
    ∃ t, exec (.hwWriteBits buf nbits) s = .next t ∧ exec (.writeBits buf nbits) s = .next t ∧
      SentOnHardware ch (buf.take (nbits / 8)) s t

/-- R93: every split into consecutive non-empty chunks is admitted: some answers of the chunk draws give it. -/
def Obligations.EverySplitIsAdmitted : Prop :=
  ∀ (buf : List Byte) (nbits : Nat) (ch : Channel) (chunks : List (List Byte)) (s : State), s.Idle →
    s.inst = .configured (.hardware ch) → nbits ≤ 8 * buf.length → nbits % 8 = 0 →
    IsSplit chunks (buf.take (nbits / 8)) → s.draws.okFor chunks.length →
    ∃ draws t, exec (.hwWriteBits buf nbits) { s with draws := { s.draws with chunk := draws } } = .next t ∧
      t.trace = s.trace ++ hwEvents ch chunks ∧ t.results = s.results ++ [.ok .unit]

/-- R44, R82, R100, R101: when a chunk of the hardware engine fails, in `update`, in an emission step (log 1), in
`writeBits` or in `hwWriteBits`, the chunks before it and the failed one are a prefix of the bytes, no later one is
written, no stream is left begun, and the wire holds the earlier chunks and some prefix of the failed one's bits. The
prefix bit by bit is the MODEL's choice (log 6), and most significant bit first is the spec's own (log 15; R40, R95,
D11). -/
def Obligations.HardwareFailureSendsAPrefix : Prop :=
  ∀ (i : Instr) (buf : List Byte) (nbits : Nat) (ch : Channel) (s t : State),
    s.inst = .configured (.hardware ch) → sends i = some (buf, nbits) → exec i s = .next t →
    t.results = s.results ++ [.transportError] →
    ∃ chunks c n, chunks.flatten ++ c <+: buf.take (nbits / 8) ∧ (∀ d ∈ chunks, d ≠ []) ∧ c ≠ [] ∧
      t.trace = s.trace ++ hwEvents ch chunks ++ [failedEvent (.spiWrite ch c)] ∧ n ≤ 8 * c.length ∧
      t.wire = s.wire ++
        spiEvents ch s.params.spiMode (bitsOf chunks.flatten (8 * chunks.flatten.length) ++ bitsOf c n) ∧
      t.levels = s.levels ∧ t.emission = none ∧ SameBut s { t with emission := s.emission }

/-! ### The writer's dispatch and preconditions -/

/-- R86: `writeBits` is the engine of the configuration, on every operand: beyond R86's precondition too, since the
MODEL gives `swWriteBits` and `hwWriteBits` that precondition (log 14). -/
def Obligations.WriteBitsIsTheConfiguredEngine : Prop :=
  ∀ (buf : List Byte) (nbits : Nat) (s : State),
    (∀ sclk mosi cs, s.inst = .configured (.software sclk mosi cs) →
      exec (.writeBits buf nbits) s = exec (.swWriteBits buf nbits) s) ∧
    (∀ ch, s.inst = .configured (.hardware ch) →
      exec (.writeBits buf nbits) s = exec (.hwWriteBits buf nbits) s)

/-- R86, R94: a count beyond the buffer, and on the hardware engine a count that is no whole number of bytes, is
refused. R86 and D24 state the precondition for `writeBits`; for `swWriteBits` and `hwWriteBits` called directly it is
the MODEL's choice (log 14), and so is the count before the whole bytes (log 10). -/
def Obligations.BadBitCountsRefused : Prop :=
  ∀ (buf : List Byte) (nbits : Nat) (s : State), s.Idle →
    (∀ sclk mosi cs, s.inst = .configured (.software sclk mosi cs) → 8 * buf.length < nbits →
      exec (.writeBits buf nbits) s = .refused .countBeyondBuffer ∧
      exec (.swWriteBits buf nbits) s = .refused .countBeyondBuffer) ∧
    (∀ ch, s.inst = .configured (.hardware ch) → 8 * buf.length < nbits →
      exec (.writeBits buf nbits) s = .refused .countBeyondBuffer ∧
      exec (.hwWriteBits buf nbits) s = .refused .countBeyondBuffer) ∧
    (∀ ch, s.inst = .configured (.hardware ch) → nbits ≤ 8 * buf.length → nbits % 8 ≠ 0 →
      exec (.writeBits buf nbits) s = .refused .partialByte ∧
      exec (.hwWriteBits buf nbits) s = .refused .partialByte)

/-- The MODEL's choice (log 14): an internal operation without the configuration it reads is refused. -/
def Obligations.InternalOperationsNeedTheirConfiguration : Prop :=
  ∀ (buf : List Byte) (nbits : Nat) (bit : Bool) (s : State), s.Idle →
    (s.inst = .unconfigured →
      exec (.writeBits buf nbits) s = .refused .wrongConfiguration ∧
      exec (.swWriteBits buf nbits) s = .refused .wrongConfiguration ∧
      exec (.hwWriteBits buf nbits) s = .refused .wrongConfiguration ∧
      exec (.emitBit bit) s = .refused .wrongConfiguration) ∧
    (∀ ch, s.inst = .configured (.hardware ch) →
      exec (.swWriteBits buf nbits) s = .refused .wrongConfiguration ∧
      exec (.emitBit bit) s = .refused .wrongConfiguration) ∧
    (∀ sclk mosi cs, s.inst = .configured (.software sclk mosi cs) →
      exec (.hwWriteBits buf nbits) s = .refused .wrongConfiguration)

/-! ### update -/

/-- R77, R97, R98: an unconfigured instance, an absent and an empty `frames` are InvalidArgument, in this order, with
no call and no change of state. Above N_MAX `update` is refused; every N >= 1 within N_MAX is accepted. That the three
checks come before N_MAX, so that an unconfigured instance answers NoDevice above N_MAX too, is the MODEL's choice (log
10); the bound is the spec's own (D13). -/
def Obligations.UpdateValidation : Prop :=
  (∀ (frames : Option (List FrameArg)) (s : State), s.Idle → s.inst = .unconfigured →
    exec (.update frames) s = .next { s with results := s.results ++ [.invalidArgument .noDevice] }) ∧
  (∀ (cfg : TransmitterConfig) (s : State), s.Idle → s.inst = .configured cfg →
    exec (.update none) s = .next { s with results := s.results ++ [.invalidArgument .nullFrames] }) ∧
  (∀ (cfg : TransmitterConfig) (s : State), s.Idle → s.inst = .configured cfg →
    exec (.update (some [])) s = .next { s with results := s.results ++ [.invalidArgument .emptyFrames] }) ∧
  (∀ (cfg : TransmitterConfig) (frames : List FrameArg) (nMax : Nat) (s : State), s.Idle →
    s.inst = .configured cfg → s.params.nMax = some nMax → nMax < frames.length → frames ≠ [] →
    exec (.update (some frames)) s = .refused .tooManyLeds) ∧
  (∀ (cfg : TransmitterConfig) (frames : List FrameArg) (s : State), s.Idle → s.inst = .configured cfg →
    (∀ m, s.params.nMax = some m → frames.length ≤ m) → frames ≠ [] →
    ∃ t, exec (.update (some frames)) s = .next t ∧
      (t.results = s.results ++ [.ok .unit] ∨ t.results = s.results ++ [.transportError]))

/-- R76, R78, R80, R88, R92: with every call answered ok, `update` on the software engine sends exactly the stream of
its frames' values and leaves the clock LOW and, where it is another pin, the data pin HIGH. -/
def Obligations.SoftwareUpdateSendsTheStream : Prop :=
  ∀ (frames : List FrameArg) (sclk mosi : Pin) (cs : Option Pin) (s : State), s.Idle →
    s.inst = .configured (.software sclk mosi cs) → frames ≠ [] →
    (∀ m, s.params.nMax = some m → frames.length ≤ m) →
    s.draws.okFor (3 * (32 + 32 * frames.length + 8 * endBytes frames.length)) →
    ∃ t, exec (.update (some frames)) s = .next t ∧
      SentOnSoftware sclk mosi
        (bitsOf (stream (frames.map frameValue)) (32 + 32 * frames.length + 8 * endBytes frames.length)) s t ∧
      t.level sclk = some .low ∧ (mosi ≠ sclk → t.level mosi = some .high) ∧
      t.trace.length = s.trace.length + 5 * (32 + 32 * frames.length + 8 * endBytes frames.length)

/-- R76, R78, R80, R93: with every call answered ok, `update` on the hardware engine sends exactly the stream of its
frames' values. The bits on the wire at the return, most significant first, are the spec's own choice (log 15; R40, R95,
D11). -/
def Obligations.HardwareUpdateSendsTheStream : Prop :=
  ∀ (frames : List FrameArg) (ch : Channel) (s : State), s.Idle →
    s.inst = .configured (.hardware ch) → frames ≠ [] → (∀ m, s.params.nMax = some m → frames.length ≤ m) →
    s.draws.okFor (4 + 4 * frames.length + endBytes frames.length) →
    ∃ t, exec (.update (some frames)) s = .next t ∧ SentOnHardware ch (stream (frames.map frameValue)) s t

/-- R40: both engines put the same bits on the wire, those of the stream, most significant bit of each byte first: the
software engine from a LOW clock on two different pins (on one pin for both there is no valid stream, R121), the
hardware engine by any split, its bit order the spec's own choice (log 15; R95, D11). -/
def Obligations.BothEnginesSendTheSameBits : Prop :=
  ∀ (frames : List FrameArg) (sclk mosi : Pin) (cs : Option Pin) (ch : Channel) (s u : State),
    frames ≠ [] → s.Idle → u.Idle → s.inst = .configured (.software sclk mosi cs) →
    u.inst = .configured (.hardware ch) → sclk ≠ mosi → s.level sclk = some .low →
    (∀ m, s.params.nMax = some m → frames.length ≤ m) → (∀ m, u.params.nMax = some m → frames.length ≤ m) →
    s.draws.okFor (3 * (32 + 32 * frames.length + 8 * endBytes frames.length)) →
    u.draws.okFor (4 + 4 * frames.length + endBytes frames.length) →
    ∃ t v ws wu, exec (.update (some frames)) s = .next t ∧ exec (.update (some frames)) u = .next v ∧
      t.wire = s.wire ++ ws ∧ v.wire = u.wire ++ wu ∧ wireBits ws = wireBits wu ∧
      wireBits wu = (bitsOf (stream (frames.map frameValue)) (8 * (stream (frames.map frameValue)).length)).map
        fun b => some (levelOfBit b)

/-- R117, R118: from a HIGH clock the first bit of an `update` is not clocked and every later one is; from an unknown
clock level the draw decides about the first bit alone. -/
def Obligations.FirstBitIsLostOnAHighClock : Prop :=
  ∀ (frames : List FrameArg) (sclk mosi : Pin) (cs : Option Pin) (s : State), frames ≠ [] → s.Idle →
    s.inst = .configured (.software sclk mosi cs) → sclk ≠ mosi →
    (∀ m, s.params.nMax = some m → frames.length ≤ m) →
    s.draws.okFor (3 * (32 + 32 * frames.length + 8 * endBytes frames.length)) →
    ∃ t w bits, exec (.update (some frames)) s = .next t ∧ t.wire = s.wire ++ w ∧
      bits = (bitsOf (stream (frames.map frameValue)) (8 * (stream (frames.map frameValue)).length)).map
        (fun b => some (levelOfBit b)) ∧
      (s.level sclk = some .high → wireBits w = bits.drop 1) ∧
      (s.level sclk = none → wireBits w = bits ∨ wireBits w = bits.drop 1)

/-- R92, R117: the `update` after a successful one is clocked in full, whatever the clock level was before the first. -/
def Obligations.LaterUpdatesAreFullyClocked : Prop :=
  ∀ (first later : List FrameArg) (sclk mosi : Pin) (cs : Option Pin) (s t u : State), later ≠ [] →
    s.inst = .configured (.software sclk mosi cs) → sclk ≠ mosi →
    exec (.update (some first)) s = .next t → t.results = s.results ++ [.ok .unit] →
    exec (.update (some later)) t = .next u → u.results = t.results ++ [.ok .unit] →
    ∃ w, u.wire = t.wire ++ w ∧
      wireBits w = (bitsOf (stream (later.map frameValue)) (8 * (stream (later.map frameValue)).length)).map
        fun b => some (levelOfBit b)

/-- R81 (as instructions: the MODEL's choice, log 1): on the software engine, pins equal or not, the three emissions one
after the other, start frame, LED frames in order, end-frame bytes, leave what one `update` leaves, but for the return
values. -/
def Obligations.UpdateIsItsEmissionsInOrder : Prop :=
  ∀ (frames : List FrameArg) (sclk mosi : Pin) (cs : Option Pin) (s : State), frames ≠ [] → s.Idle →
    s.inst = .configured (.software sclk mosi cs) → (∀ m, s.params.nMax = some m → frames.length ≤ m) →
    s.draws.okFor (3 * (32 + 32 * frames.length + 8 * endBytes frames.length)) →
    ∃ t u, exec (.update (some frames)) s = .next t ∧ execAll (emissions (frames.map frameValue)) s = .next u ∧
      { u with results := t.results } = t

/-! ### The emission steps (log 1) -/

/-- R81 (as instructions: the MODEL's choice, log 1): on the hardware engine, the three emissions one after the other
send the stream of `update` in a split of their own, one Ok each. The bits on the wire are log 15 (R40, R95, D11). -/
def Obligations.EmissionsOnTheHardwareEngine : Prop :=
  ∀ (frames : List LedFrame) (ch : Channel) (s : State), frames ≠ [] → s.Idle → s.inst = .configured (.hardware ch) →
    (∀ m, s.params.nMax = some m → frames.length ≤ m) →
    s.draws.okFor (4 + 4 * frames.length + endBytes frames.length) →
    ∃ u, execAll (emissions frames) s = .next u ∧
      u.results = s.results ++ List.replicate (emissions frames).length (.ok .unit) ∧
      SentOnHardware ch (stream frames) s { u with results := s.results ++ [.ok .unit] }

/-- R52, R53, R54, R81 (as instructions: the MODEL's choice, log 1): on the software engine, with every call answered
ok, each wire format is sent most significant bit first where a stream of R58 has it: the start frame when no stream is
begun, an LED frame after it and within N_MAX, an end-frame byte after at least one LED frame until E(n) of them end the
stream. -/
def Obligations.WireFormatsOnTheSoftwareEngine : Prop :=
  ∀ (brightness : BitVec 5) (blue green red : Byte) (sclk mosi : Pin) (cs : Option Pin) (s : State),
    s.engine = none → s.inst = .configured (.software sclk mosi cs) →
    (s.emission = none → s.draws.okFor 96 → ∃ t, exec .fStart s = .next t ∧ t.emission = some (.leds 0) ∧
      SentOnSoftware sclk mosi (List.replicate 32 false) s { t with emission := s.emission }) ∧
    (∀ n, s.emission = some (.leds n) → (∀ m, s.params.nMax = some m → n + 1 ≤ m) → s.draws.okFor 96 →
      ∃ t, exec (.fLed brightness blue green red) s = .next t ∧ t.emission = some (.leds (n + 1)) ∧
        SentOnSoftware sclk mosi
          (bitsOf [0xE0#8 ||| (brightness.setWidth 8 &&& 0x1F#8), blue, green, red] 32) s
          { t with emission := s.emission }) ∧
    (∀ n m, (s.emission = some (.leds n) ∧ 1 ≤ n ∧ m = 0) ∨ s.emission = some (.ends n m) → s.draws.okFor 24 →
      ∃ t, exec .fEnd s = .next t ∧
        t.emission = (if m + 1 < endBytes n then some (.ends n (m + 1)) else none) ∧
        SentOnSoftware sclk mosi (List.replicate 8 true) s { t with emission := s.emission })

/-- R52, R53, R54, R81 (as instructions: the MODEL's choice, log 1): the same on the hardware engine. The bits on the
wire, most significant first, are the spec's own choice (log 15; R40, R95, D11). -/
def Obligations.WireFormatsOnTheHardwareEngine : Prop :=
  ∀ (brightness : BitVec 5) (blue green red : Byte) (ch : Channel) (s : State),
    s.engine = none → s.inst = .configured (.hardware ch) →
    (s.emission = none → s.draws.okFor 4 → ∃ t, exec .fStart s = .next t ∧ t.emission = some (.leds 0) ∧
      SentOnHardware ch [0x00#8, 0x00#8, 0x00#8, 0x00#8] s { t with emission := s.emission }) ∧
    (∀ n, s.emission = some (.leds n) → (∀ m, s.params.nMax = some m → n + 1 ≤ m) → s.draws.okFor 4 →
      ∃ t, exec (.fLed brightness blue green red) s = .next t ∧ t.emission = some (.leds (n + 1)) ∧
        SentOnHardware ch [0xE0#8 ||| (brightness.setWidth 8 &&& 0x1F#8), blue, green, red] s
          { t with emission := s.emission }) ∧
    (∀ n m, (s.emission = some (.leds n) ∧ 1 ≤ n ∧ m = 0) ∨ s.emission = some (.ends n m) → s.draws.okFor 1 →
      ∃ t, exec .fEnd s = .next t ∧
        t.emission = (if m + 1 < endBytes n then some (.ends n (m + 1)) else none) ∧
        SentOnHardware ch [0xFF#8] s { t with emission := s.emission })

/-- R58 (the emissions as instructions: log 1): when emission steps that all return Ok leave no stream begun, they are
whole streams one after the other, each `F_START ++ F_LED* ++ F_END*` with at least one LED frame, at most N_MAX of
them, and E(N) end-frame bytes. -/
def Obligations.EmissionsFormWholeStreams : Prop :=
  ∀ (l : List Instr) (s t : State), s.Idle → (∀ i ∈ l, isEmission i = true) → execAll l s = .next t →
    t.results = s.results ++ List.replicate l.length (.ok .unit) → t.emission = none →
    ∃ fss : List (List LedFrame), l = fss.flatMap emissions ∧
      ∀ fs ∈ fss, fs ≠ [] ∧ ∀ m, s.params.nMax = some m → fs.length ≤ m

/-- R58, R77 (the refusals: the MODEL's choice, log 1): on a configured instance a wire format that no stream has at
this place is refused. -/
def Obligations.EmissionsOutOfStreamRefused : Prop :=
  ∀ (brightness : BitVec 5) (blue green red : Byte) (cfg : TransmitterConfig) (s : State),
    s.engine = none → s.inst = .configured cfg →
    (s.emission ≠ none → exec .fStart s = .refused .outOfStream) ∧
    ((∀ n, s.emission ≠ some (.leds n)) → exec (.fLed brightness blue green red) s = .refused .outOfStream) ∧
    (∀ n m, s.emission = some (.leds n) → s.params.nMax = some m → m < n + 1 →
      exec (.fLed brightness blue green red) s = .refused .tooManyLeds) ∧
    (s.emission = none ∨ s.emission = some (.leds 0) → exec .fEnd s = .refused .outOfStream)

/-- The MODEL's choice (log 1): an emission step without a configured transmitter is InvalidArgument, as `update` is. -/
def Obligations.WireFormatsNeedADevice : Prop :=
  ∀ (brightness : BitVec 5) (blue green red : Byte) (s : State), s.engine = none → s.inst = .unconfigured →
    exec .fStart s = .next { s with results := s.results ++ [.invalidArgument .noDevice] } ∧
    exec (.fLed brightness blue green red) s =
      .next { s with results := s.results ++ [.invalidArgument .noDevice] } ∧
    exec .fEnd s = .next { s with results := s.results ++ [.invalidArgument .noDevice] }

/-! ### Rules over all instructions -/

/-- R98: an operation that raises InvalidArgument adds no event and changes neither `inst` nor any collaborator state:
it changes nothing but the return values. -/
def Obligations.InvalidArgumentChangesNothing : Prop :=
  ∀ (i : Instr) (s t : State) (cause : Cause), exec i s = .next t →
    t.results = s.results ++ [.invalidArgument cause] →
    t = { s with results := s.results ++ [.invalidArgument cause] }

/-- R33, R99, R101, R102: an operation appends events to the trace and one return value; every event but the last is
marked ok, no delay is marked failed, and the return value is TransportError exactly when the last event is marked
failed. -/
def Obligations.AFailedCallEndsTheOperation : Prop :=
  ∀ (i : Instr) (s t : State), exec i s = .next t →
    ∃ ev r, t.trace = s.trace ++ ev ∧ t.results = s.results ++ [r] ∧ (∀ e ∈ ev.dropLast, e.mark = .ok) ∧
      (∀ e ∈ ev, ∀ us, e.call = .delay us → e.mark = .ok) ∧
      (r = .transportError ↔ ∃ e, ev.getLast? = some e ∧ e.mark = .failed)

/-- R22, R75, R83: `inst` changes only by an init that succeeds, and then to the configuration it returns. -/
def Obligations.OnlyASuccessfulInitChangesInst : Prop :=
  ∀ (i : Instr) (s t : State), exec i s = .next t →
    t.inst = s.inst ∨
    ∃ cfg, t.inst = .configured cfg ∧ t.results = s.results ++ [.ok (.transmitter cfg)] ∧
      ((∃ channel, i = .initHardware channel) ∨ ∃ a b c, i = .initSoftware a b c)

/-- R73, R90, R107: the GPIO writes of an operation go to the configured clock and data pins, or are the priming write
of `initSoftware` on its clock operand; no operation but `initSoftware` changes the level of any other pin, so a
chip-select pin that is neither is never written. -/
def Obligations.OnlyClockAndDataPinsAreWritten : Prop :=
  ∀ (i : Instr) (s t : State), exec i s = .next t →
    (∃ ev, t.trace = s.trace ++ ev ∧ ∀ e ∈ ev, ∀ p lvl, e.call = .gpioWrite p lvl →
      (∃ sclk mosi cs, s.inst = .configured (.software sclk mosi cs) ∧ (p = sclk ∨ p = mosi)) ∨
      (lvl = .high ∧ ∃ b c, i = .initSoftware (p.val : Int) b c)) ∧
    (∀ sclk mosi cs p, s.inst = .configured (.software sclk mosi cs) → p ≠ sclk → p ≠ mosi →
      (∀ a b c, i ≠ .initSoftware a b c) → t.level p = s.level p)

/-- R69, R93, R107: on a hardware configuration no operation but `initSoftware` makes a GPIO call or a delay, or
changes a pin's mode or level. -/
def Obligations.HardwareOptionMakesNoGpioCall : Prop :=
  ∀ (i : Instr) (s t : State) (ch : Channel), s.inst = .configured (.hardware ch) →
    (∀ a b c, i ≠ .initSoftware a b c) → exec i s = .next t →
    (∃ ev, t.trace = s.trace ++ ev ∧
      ∀ e ∈ ev, (∃ c hz, e.call = .spiSetup c hz) ∨ ∃ c bytes, e.call = .spiWrite c bytes) ∧
    t.levels = s.levels ∧ t.modes = s.modes

/-- R30, R32, R113: pin modes change only by `initSoftware`, and only for the pins of its operands; channel setups only
by `initHardware`, and only for its channel. -/
def Obligations.OnlyInitsWriteModesAndSetups : Prop :=
  ∀ (i : Instr) (s t : State), exec i s = .next t →
    (∀ p : Pin, t.mode p ≠ s.mode p →
      ∃ a b c, i = .initSoftware a b c ∧ ((p.val : Int) = a ∨ (p.val : Int) = b ∨ (p.val : Int) = c)) ∧
    (∀ ch : Channel, t.spiOf ch ≠ s.spiOf ch → i = .initHardware (ch.val : Int))

/-- R10, R25, R34, R110: no operation writes the parameters, `gpioReady` or the pending inputs, and the engine state is
discarded when it returns, with or without an error; only the emission steps begin, continue or end a stream emission by
emission (log 1). -/
def Obligations.OperationsLeaveTheEnvironment : Prop :=
  ∀ (i : Instr) (s t : State), exec i s = .next t →
    t.params = s.params ∧ t.gpioReady = s.gpioReady ∧ t.pending = s.pending ∧ t.engine = s.engine ∧
    (isEmission i = false → t.emission = s.emission)

/-- R57, R86, R89, R97: the internal operations return `Ok` or TransportError. -/
def Obligations.InternalOperationsHaveNoInvalidArgument : Prop :=
  ∀ (buf : List Byte) (nbits : Nat) (bit : Bool) (i : Instr) (s t : State),
    (i = .writeBits buf nbits ∨ i = .swWriteBits buf nbits ∨ i = .hwWriteBits buf nbits ∨ i = .emitBit bit) →
    exec i s = .next t →
    t.results = s.results ++ [.ok .unit] ∨ t.results = s.results ++ [.transportError]

/-- R85, R109: while a bit writer runs, every operation but `makeFrame` and another actor's write are refused; while a
stream is begun emission by emission, so are all but `makeFrame` and the emissions (log 1). Refusing the GPIO library
setup then is the MODEL's choice (log 3): R114 does not speak of it. -/
def Obligations.OverlappingOperationsRefused : Prop :=
  ∀ s : State,
    (s.engine ≠ none → ∀ i, (∀ r g b br, i ≠ .makeFrame r g b br) → exec i s = .refused .overlappingOperation) ∧
    (s.emission ≠ none → ∀ i, (∀ r g b br, i ≠ .makeFrame r g b br) → isEmission i = false →
      exec i s = .refused .overlappingOperation) ∧
    (s.engine ≠ none ∨ s.emission ≠ none →
      (∀ p lvl rest, s.pending = .actorWrite p lvl :: rest → step s = .refused .overlappingOperation) ∧
      (∀ rest, s.pending = .gpioSetup :: rest → step s = .refused .overlappingOperation))

/-! ### Steps -/

/-- The MODEL's fetch (log 3): when the oldest input is a written form that decodes to `i`, a step is `exec i` with
that input taken. -/
def Obligations.StepRunsTheDecodedInstruction : Prop :=
  ∀ (s : State) (f : Fetch) (rest : List Input) (i : Instr), s.pending = .fetch f :: rest → decode f = .ok i →
    step s = exec i { s with pending := rest }

/-- The MODEL's inputs (log 3): with none the machine is idle (R110), the host's GPIO setup sets `gpioReady` (R34,
R114), another actor's write between operations sets the pin's level (R119), and a form that decodes to nothing is
refused. -/
def Obligations.StepTakesTheOtherInputs : Prop :=
  ∀ (s : State) (rest : List Input),
    (s.pending = [] → step s = .next s) ∧
    (s.Idle → s.pending = .gpioSetup :: rest → step s = .next { s with pending := rest, gpioReady := true }) ∧
    (∀ p lvl, s.Idle → s.pending = .actorWrite p lvl :: rest →
      step s = .next { s with pending := rest, levels := s.levels.set p.val lvl }) ∧
    (∀ f e, s.pending = .fetch f :: rest → decode f = .error e → step s = .refused (.undecodable e))

/-- The MODEL's loading of a table word (log 3): the next step runs exactly the instruction the word decodes to. -/
def Obligations.FetchWordRunsNext : Prop :=
  ∀ (s : State) (nbits w : Nat) (i : Instr), decodeTableWord nbits w = some i →
    step (s.withFetchWord nbits w) = exec i s

/-- From every state that meets the invariant, a step that answers a next state keeps it: no engine state is left
(R25), every call has the arguments the rules allow and no delay fails (R99, R107), pins are made outputs before they
are written (R71), the configuration's set-up calls were made (R23), a channel is set up at 500 kHz (R17), and a stream
begun emission by emission is a configured instance's and in a position of R58 (log 1). -/
def Obligations.StepKeepsTheInvariant : Prop :=
  ∀ s t : State, s.Inv → step s = .next t → t.Inv

/-- The invariant holds at reset (R36, R112); its clause on a begun stream rests on the MODEL's reset value (log 1). -/
def Obligations.ResetMeetsTheInvariant : Prop := State.reset.Inv

/-- R36, R112: the reset state, where the spec gives it: the instance, the engine state, the pin levels and the trace
(D9, D2), and the default of N_MAX (R10, D13; held as data: log 8). That no stream is begun is the MODEL's choice for a
field of its own (log 1); the values that stand for unspecified pin modes and for channels treated as not set up are
read from R36 by inference (log 19). -/
def Obligations.ResetState : Prop :=
  State.reset.inst = .unconfigured ∧ State.reset.engine = none ∧ State.reset.emission = none ∧
  (∀ p, State.reset.level p = none) ∧ (∀ p, State.reset.mode p = .unspecified) ∧
  (∀ ch, State.reset.spiOf ch = .notSetUp) ∧ State.reset.trace = [] ∧ State.reset.params.nMax = none
end

