-- ==== Sys2Proof/Laws/State.lean ====
section
/-! SUPPORT. One lemma per state update and field, and the accessors after each update. -/

namespace Sys2Proof.Machine

variable (s : State)

/-! ### setLevel -/

@[simp] theorem State.setLevel_inst (p : Pin) (v : PinLevel) : (s.setLevel p v).inst = s.inst := rfl
@[simp] theorem State.setLevel_engine (p : Pin) (v : PinLevel) : (s.setLevel p v).engine = s.engine := rfl
@[simp] theorem State.setLevel_emission (p : Pin) (v : PinLevel) : (s.setLevel p v).emission = s.emission := rfl
@[simp] theorem State.setLevel_modes (p : Pin) (v : PinLevel) : (s.setLevel p v).modes = s.modes := rfl
@[simp] theorem State.setLevel_levels (p : Pin) (v : PinLevel) : (s.setLevel p v).levels = s.levels.set p.val v := rfl
@[simp] theorem State.setLevel_spi (p : Pin) (v : PinLevel) : (s.setLevel p v).spi = s.spi := rfl
@[simp] theorem State.setLevel_trace (p : Pin) (v : PinLevel) : (s.setLevel p v).trace = s.trace := rfl
@[simp] theorem State.setLevel_results (p : Pin) (v : PinLevel) : (s.setLevel p v).results = s.results := rfl
@[simp] theorem State.setLevel_gpioReady (p : Pin) (v : PinLevel) : (s.setLevel p v).gpioReady = s.gpioReady := rfl
@[simp] theorem State.setLevel_params (p : Pin) (v : PinLevel) : (s.setLevel p v).params = s.params := rfl
@[simp] theorem State.setLevel_pending (p : Pin) (v : PinLevel) : (s.setLevel p v).pending = s.pending := rfl
@[simp] theorem State.setLevel_wire (p : Pin) (v : PinLevel) : (s.setLevel p v).wire = s.wire := rfl
@[simp] theorem State.setLevel_draws (p : Pin) (v : PinLevel) : (s.setLevel p v).draws = s.draws := rfl
theorem State.setLevel_level (p : Pin) (v : PinLevel) (q : Pin) : (s.setLevel p v).level q = if q = p then v else s.level q := by
  by_cases h : q = p
  · subst h; simp [State.level]
  · have h' : p.val ≠ q.val := fun e => h (Fin.ext e.symm)
    simp [State.level, h, h']

@[simp] theorem State.setLevel_mode (p : Pin) (v : PinLevel) (q : Pin) : (s.setLevel p v).mode q = s.mode q := rfl
@[simp] theorem State.setLevel_spiOf (p : Pin) (v : PinLevel) (c' : Channel) : (s.setLevel p v).spiOf c' = s.spiOf c' := rfl

/-! ### setMode -/

@[simp] theorem State.setMode_inst (p : Pin) (m : PinMode) : (s.setMode p m).inst = s.inst := rfl
@[simp] theorem State.setMode_engine (p : Pin) (m : PinMode) : (s.setMode p m).engine = s.engine := rfl
@[simp] theorem State.setMode_emission (p : Pin) (m : PinMode) : (s.setMode p m).emission = s.emission := rfl
@[simp] theorem State.setMode_modes (p : Pin) (m : PinMode) : (s.setMode p m).modes = s.modes.set p.val m := rfl
@[simp] theorem State.setMode_levels (p : Pin) (m : PinMode) : (s.setMode p m).levels = s.levels := rfl
@[simp] theorem State.setMode_spi (p : Pin) (m : PinMode) : (s.setMode p m).spi = s.spi := rfl
@[simp] theorem State.setMode_trace (p : Pin) (m : PinMode) : (s.setMode p m).trace = s.trace := rfl
@[simp] theorem State.setMode_results (p : Pin) (m : PinMode) : (s.setMode p m).results = s.results := rfl
@[simp] theorem State.setMode_gpioReady (p : Pin) (m : PinMode) : (s.setMode p m).gpioReady = s.gpioReady := rfl
@[simp] theorem State.setMode_params (p : Pin) (m : PinMode) : (s.setMode p m).params = s.params := rfl
@[simp] theorem State.setMode_pending (p : Pin) (m : PinMode) : (s.setMode p m).pending = s.pending := rfl
@[simp] theorem State.setMode_wire (p : Pin) (m : PinMode) : (s.setMode p m).wire = s.wire := rfl
@[simp] theorem State.setMode_draws (p : Pin) (m : PinMode) : (s.setMode p m).draws = s.draws := rfl
@[simp] theorem State.setMode_level (p : Pin) (m : PinMode) (q : Pin) : (s.setMode p m).level q = s.level q := rfl
theorem State.setMode_mode (p : Pin) (m : PinMode) (q : Pin) : (s.setMode p m).mode q = if q = p then m else s.mode q := by
  by_cases h : q = p
  · subst h; simp [State.mode]
  · have h' : p.val ≠ q.val := fun e => h (Fin.ext e.symm)
    simp [State.mode, h, h']

@[simp] theorem State.setMode_spiOf (p : Pin) (m : PinMode) (c' : Channel) : (s.setMode p m).spiOf c' = s.spiOf c' := rfl

/-! ### setSpi -/

@[simp] theorem State.setSpi_inst (ch : Channel) (v : SpiSetup) : (s.setSpi ch v).inst = s.inst := rfl
@[simp] theorem State.setSpi_engine (ch : Channel) (v : SpiSetup) : (s.setSpi ch v).engine = s.engine := rfl
@[simp] theorem State.setSpi_emission (ch : Channel) (v : SpiSetup) : (s.setSpi ch v).emission = s.emission := rfl
@[simp] theorem State.setSpi_modes (ch : Channel) (v : SpiSetup) : (s.setSpi ch v).modes = s.modes := rfl
@[simp] theorem State.setSpi_levels (ch : Channel) (v : SpiSetup) : (s.setSpi ch v).levels = s.levels := rfl
@[simp] theorem State.setSpi_spi (ch : Channel) (v : SpiSetup) : (s.setSpi ch v).spi = s.spi.set ch.val v := rfl
@[simp] theorem State.setSpi_trace (ch : Channel) (v : SpiSetup) : (s.setSpi ch v).trace = s.trace := rfl
@[simp] theorem State.setSpi_results (ch : Channel) (v : SpiSetup) : (s.setSpi ch v).results = s.results := rfl
@[simp] theorem State.setSpi_gpioReady (ch : Channel) (v : SpiSetup) : (s.setSpi ch v).gpioReady = s.gpioReady := rfl
@[simp] theorem State.setSpi_params (ch : Channel) (v : SpiSetup) : (s.setSpi ch v).params = s.params := rfl
@[simp] theorem State.setSpi_pending (ch : Channel) (v : SpiSetup) : (s.setSpi ch v).pending = s.pending := rfl
@[simp] theorem State.setSpi_wire (ch : Channel) (v : SpiSetup) : (s.setSpi ch v).wire = s.wire := rfl
@[simp] theorem State.setSpi_draws (ch : Channel) (v : SpiSetup) : (s.setSpi ch v).draws = s.draws := rfl
@[simp] theorem State.setSpi_level (ch : Channel) (v : SpiSetup) (q : Pin) : (s.setSpi ch v).level q = s.level q := rfl
@[simp] theorem State.setSpi_mode (ch : Channel) (v : SpiSetup) (q : Pin) : (s.setSpi ch v).mode q = s.mode q := rfl
theorem State.setSpi_spiOf (ch : Channel) (v : SpiSetup) (c' : Channel) : (s.setSpi ch v).spiOf c' = if c' = ch then v else s.spiOf c' := by
  by_cases h : c' = ch
  · subst h; simp [State.spiOf]
  · have h' : ch.val ≠ c'.val := fun e => h (Fin.ext e.symm)
    simp [State.spiOf, h, h']


/-! ### log -/

@[simp] theorem State.log_inst (c : Call) (m : Mark) : (s.log c m).inst = s.inst := rfl
@[simp] theorem State.log_engine (c : Call) (m : Mark) : (s.log c m).engine = s.engine := rfl
@[simp] theorem State.log_emission (c : Call) (m : Mark) : (s.log c m).emission = s.emission := rfl
@[simp] theorem State.log_modes (c : Call) (m : Mark) : (s.log c m).modes = s.modes := rfl
@[simp] theorem State.log_levels (c : Call) (m : Mark) : (s.log c m).levels = s.levels := rfl
@[simp] theorem State.log_spi (c : Call) (m : Mark) : (s.log c m).spi = s.spi := rfl
@[simp] theorem State.log_trace (c : Call) (m : Mark) : (s.log c m).trace = s.trace ++ [{ call := c, mark := m }] := rfl
@[simp] theorem State.log_results (c : Call) (m : Mark) : (s.log c m).results = s.results := rfl
@[simp] theorem State.log_gpioReady (c : Call) (m : Mark) : (s.log c m).gpioReady = s.gpioReady := rfl
@[simp] theorem State.log_params (c : Call) (m : Mark) : (s.log c m).params = s.params := rfl
@[simp] theorem State.log_pending (c : Call) (m : Mark) : (s.log c m).pending = s.pending := rfl
@[simp] theorem State.log_wire (c : Call) (m : Mark) : (s.log c m).wire = s.wire := rfl
@[simp] theorem State.log_draws (c : Call) (m : Mark) : (s.log c m).draws = s.draws := rfl
@[simp] theorem State.log_level (c : Call) (m : Mark) (q : Pin) : (s.log c m).level q = s.level q := rfl
@[simp] theorem State.log_mode (c : Call) (m : Mark) (q : Pin) : (s.log c m).mode q = s.mode q := rfl
@[simp] theorem State.log_spiOf (c : Call) (m : Mark) (c' : Channel) : (s.log c m).spiOf c' = s.spiOf c' := rfl

/-! ### onWire -/

@[simp] theorem State.onWire_inst (w : List WireEvent) : (s.onWire w).inst = s.inst := rfl
@[simp] theorem State.onWire_engine (w : List WireEvent) : (s.onWire w).engine = s.engine := rfl
@[simp] theorem State.onWire_emission (w : List WireEvent) : (s.onWire w).emission = s.emission := rfl
@[simp] theorem State.onWire_modes (w : List WireEvent) : (s.onWire w).modes = s.modes := rfl
@[simp] theorem State.onWire_levels (w : List WireEvent) : (s.onWire w).levels = s.levels := rfl
@[simp] theorem State.onWire_spi (w : List WireEvent) : (s.onWire w).spi = s.spi := rfl
@[simp] theorem State.onWire_trace (w : List WireEvent) : (s.onWire w).trace = s.trace := rfl
@[simp] theorem State.onWire_results (w : List WireEvent) : (s.onWire w).results = s.results := rfl
@[simp] theorem State.onWire_gpioReady (w : List WireEvent) : (s.onWire w).gpioReady = s.gpioReady := rfl
@[simp] theorem State.onWire_params (w : List WireEvent) : (s.onWire w).params = s.params := rfl
@[simp] theorem State.onWire_pending (w : List WireEvent) : (s.onWire w).pending = s.pending := rfl
@[simp] theorem State.onWire_wire (w : List WireEvent) : (s.onWire w).wire = s.wire ++ w := rfl
@[simp] theorem State.onWire_draws (w : List WireEvent) : (s.onWire w).draws = s.draws := rfl
@[simp] theorem State.onWire_level (w : List WireEvent) (q : Pin) : (s.onWire w).level q = s.level q := rfl
@[simp] theorem State.onWire_mode (w : List WireEvent) (q : Pin) : (s.onWire w).mode q = s.mode q := rfl
@[simp] theorem State.onWire_spiOf (w : List WireEvent) (c' : Channel) : (s.onWire w).spiOf c' = s.spiOf c' := rfl

/-! ### setInst -/

@[simp] theorem State.setInst_inst (v : Inst) : (s.setInst v).inst = v := rfl
@[simp] theorem State.setInst_engine (v : Inst) : (s.setInst v).engine = s.engine := rfl
@[simp] theorem State.setInst_emission (v : Inst) : (s.setInst v).emission = s.emission := rfl
@[simp] theorem State.setInst_modes (v : Inst) : (s.setInst v).modes = s.modes := rfl
@[simp] theorem State.setInst_levels (v : Inst) : (s.setInst v).levels = s.levels := rfl
@[simp] theorem State.setInst_spi (v : Inst) : (s.setInst v).spi = s.spi := rfl
@[simp] theorem State.setInst_trace (v : Inst) : (s.setInst v).trace = s.trace := rfl
@[simp] theorem State.setInst_results (v : Inst) : (s.setInst v).results = s.results := rfl
@[simp] theorem State.setInst_gpioReady (v : Inst) : (s.setInst v).gpioReady = s.gpioReady := rfl
@[simp] theorem State.setInst_params (v : Inst) : (s.setInst v).params = s.params := rfl
@[simp] theorem State.setInst_pending (v : Inst) : (s.setInst v).pending = s.pending := rfl
@[simp] theorem State.setInst_wire (v : Inst) : (s.setInst v).wire = s.wire := rfl
@[simp] theorem State.setInst_draws (v : Inst) : (s.setInst v).draws = s.draws := rfl
@[simp] theorem State.setInst_level (v : Inst) (q : Pin) : (s.setInst v).level q = s.level q := rfl
@[simp] theorem State.setInst_mode (v : Inst) (q : Pin) : (s.setInst v).mode q = s.mode q := rfl
@[simp] theorem State.setInst_spiOf (v : Inst) (c' : Channel) : (s.setInst v).spiOf c' = s.spiOf c' := rfl

/-! ### setEmission -/

@[simp] theorem State.setEmission_inst (v : Option Emission) : (s.setEmission v).inst = s.inst := rfl
@[simp] theorem State.setEmission_engine (v : Option Emission) : (s.setEmission v).engine = s.engine := rfl
@[simp] theorem State.setEmission_emission (v : Option Emission) : (s.setEmission v).emission = v := rfl
@[simp] theorem State.setEmission_modes (v : Option Emission) : (s.setEmission v).modes = s.modes := rfl
@[simp] theorem State.setEmission_levels (v : Option Emission) : (s.setEmission v).levels = s.levels := rfl
@[simp] theorem State.setEmission_spi (v : Option Emission) : (s.setEmission v).spi = s.spi := rfl
@[simp] theorem State.setEmission_trace (v : Option Emission) : (s.setEmission v).trace = s.trace := rfl
@[simp] theorem State.setEmission_results (v : Option Emission) : (s.setEmission v).results = s.results := rfl
@[simp] theorem State.setEmission_gpioReady (v : Option Emission) : (s.setEmission v).gpioReady = s.gpioReady := rfl
@[simp] theorem State.setEmission_params (v : Option Emission) : (s.setEmission v).params = s.params := rfl
@[simp] theorem State.setEmission_pending (v : Option Emission) : (s.setEmission v).pending = s.pending := rfl
@[simp] theorem State.setEmission_wire (v : Option Emission) : (s.setEmission v).wire = s.wire := rfl
@[simp] theorem State.setEmission_draws (v : Option Emission) : (s.setEmission v).draws = s.draws := rfl
@[simp] theorem State.setEmission_level (v : Option Emission) (q : Pin) : (s.setEmission v).level q = s.level q := rfl
@[simp] theorem State.setEmission_mode (v : Option Emission) (q : Pin) : (s.setEmission v).mode q = s.mode q := rfl
@[simp] theorem State.setEmission_spiOf (v : Option Emission) (c' : Channel) : (s.setEmission v).spiOf c' = s.spiOf c' := rfl

/-! ### ret -/

@[simp] theorem State.ret_inst (r : Result) : (s.ret r).inst = s.inst := rfl
@[simp] theorem State.ret_engine (r : Result) : (s.ret r).engine = s.engine := rfl
@[simp] theorem State.ret_emission (r : Result) : (s.ret r).emission = s.emission := rfl
@[simp] theorem State.ret_modes (r : Result) : (s.ret r).modes = s.modes := rfl
@[simp] theorem State.ret_levels (r : Result) : (s.ret r).levels = s.levels := rfl
@[simp] theorem State.ret_spi (r : Result) : (s.ret r).spi = s.spi := rfl
@[simp] theorem State.ret_trace (r : Result) : (s.ret r).trace = s.trace := rfl
@[simp] theorem State.ret_results (r : Result) : (s.ret r).results = s.results ++ [r] := rfl
@[simp] theorem State.ret_gpioReady (r : Result) : (s.ret r).gpioReady = s.gpioReady := rfl
@[simp] theorem State.ret_params (r : Result) : (s.ret r).params = s.params := rfl
@[simp] theorem State.ret_pending (r : Result) : (s.ret r).pending = s.pending := rfl
@[simp] theorem State.ret_wire (r : Result) : (s.ret r).wire = s.wire := rfl
@[simp] theorem State.ret_draws (r : Result) : (s.ret r).draws = s.draws := rfl
@[simp] theorem State.ret_level (r : Result) (q : Pin) : (s.ret r).level q = s.level q := rfl
@[simp] theorem State.ret_mode (r : Result) (q : Pin) : (s.ret r).mode q = s.mode q := rfl
@[simp] theorem State.ret_spiOf (r : Result) (c' : Channel) : (s.ret r).spiOf c' = s.spiOf c' := rfl

/-! ### startEngine -/

@[simp] theorem State.startEngine_inst (buf : List Byte) (nbits : Nat) : (s.startEngine buf nbits).inst = s.inst := rfl
@[simp] theorem State.startEngine_engine (buf : List Byte) (nbits : Nat) : (s.startEngine buf nbits).engine = some { buf := buf, nbits := nbits, k := 0 } := rfl
@[simp] theorem State.startEngine_emission (buf : List Byte) (nbits : Nat) : (s.startEngine buf nbits).emission = s.emission := rfl
@[simp] theorem State.startEngine_modes (buf : List Byte) (nbits : Nat) : (s.startEngine buf nbits).modes = s.modes := rfl
@[simp] theorem State.startEngine_levels (buf : List Byte) (nbits : Nat) : (s.startEngine buf nbits).levels = s.levels := rfl
@[simp] theorem State.startEngine_spi (buf : List Byte) (nbits : Nat) : (s.startEngine buf nbits).spi = s.spi := rfl
@[simp] theorem State.startEngine_trace (buf : List Byte) (nbits : Nat) : (s.startEngine buf nbits).trace = s.trace := rfl
@[simp] theorem State.startEngine_results (buf : List Byte) (nbits : Nat) : (s.startEngine buf nbits).results = s.results := rfl
@[simp] theorem State.startEngine_gpioReady (buf : List Byte) (nbits : Nat) : (s.startEngine buf nbits).gpioReady = s.gpioReady := rfl
@[simp] theorem State.startEngine_params (buf : List Byte) (nbits : Nat) : (s.startEngine buf nbits).params = s.params := rfl
@[simp] theorem State.startEngine_pending (buf : List Byte) (nbits : Nat) : (s.startEngine buf nbits).pending = s.pending := rfl
@[simp] theorem State.startEngine_wire (buf : List Byte) (nbits : Nat) : (s.startEngine buf nbits).wire = s.wire := rfl
@[simp] theorem State.startEngine_draws (buf : List Byte) (nbits : Nat) : (s.startEngine buf nbits).draws = s.draws := rfl
@[simp] theorem State.startEngine_level (buf : List Byte) (nbits : Nat) (q : Pin) : (s.startEngine buf nbits).level q = s.level q := rfl
@[simp] theorem State.startEngine_mode (buf : List Byte) (nbits : Nat) (q : Pin) : (s.startEngine buf nbits).mode q = s.mode q := rfl
@[simp] theorem State.startEngine_spiOf (buf : List Byte) (nbits : Nat) (c' : Channel) : (s.startEngine buf nbits).spiOf c' = s.spiOf c' := rfl

/-! ### stopEngine -/

@[simp] theorem State.stopEngine_inst : (s.stopEngine).inst = s.inst := rfl
@[simp] theorem State.stopEngine_engine : (s.stopEngine).engine = none := rfl
@[simp] theorem State.stopEngine_emission : (s.stopEngine).emission = s.emission := rfl
@[simp] theorem State.stopEngine_modes : (s.stopEngine).modes = s.modes := rfl
@[simp] theorem State.stopEngine_levels : (s.stopEngine).levels = s.levels := rfl
@[simp] theorem State.stopEngine_spi : (s.stopEngine).spi = s.spi := rfl
@[simp] theorem State.stopEngine_trace : (s.stopEngine).trace = s.trace := rfl
@[simp] theorem State.stopEngine_results : (s.stopEngine).results = s.results := rfl
@[simp] theorem State.stopEngine_gpioReady : (s.stopEngine).gpioReady = s.gpioReady := rfl
@[simp] theorem State.stopEngine_params : (s.stopEngine).params = s.params := rfl
@[simp] theorem State.stopEngine_pending : (s.stopEngine).pending = s.pending := rfl
@[simp] theorem State.stopEngine_wire : (s.stopEngine).wire = s.wire := rfl
@[simp] theorem State.stopEngine_draws : (s.stopEngine).draws = s.draws := rfl
@[simp] theorem State.stopEngine_level (q : Pin) : (s.stopEngine).level q = s.level q := rfl
@[simp] theorem State.stopEngine_mode (q : Pin) : (s.stopEngine).mode q = s.mode q := rfl
@[simp] theorem State.stopEngine_spiOf (c' : Channel) : (s.stopEngine).spiOf c' = s.spiOf c' := rfl

/-! ### advance -/

@[simp] theorem State.advance_inst (n : Nat) : (s.advance n).inst = s.inst := rfl
@[simp] theorem State.advance_engine (n : Nat) : (s.advance n).engine = s.engine.map fun e => { e with k := e.k + n } := rfl
@[simp] theorem State.advance_emission (n : Nat) : (s.advance n).emission = s.emission := rfl
@[simp] theorem State.advance_modes (n : Nat) : (s.advance n).modes = s.modes := rfl
@[simp] theorem State.advance_levels (n : Nat) : (s.advance n).levels = s.levels := rfl
@[simp] theorem State.advance_spi (n : Nat) : (s.advance n).spi = s.spi := rfl
@[simp] theorem State.advance_trace (n : Nat) : (s.advance n).trace = s.trace := rfl
@[simp] theorem State.advance_results (n : Nat) : (s.advance n).results = s.results := rfl
@[simp] theorem State.advance_gpioReady (n : Nat) : (s.advance n).gpioReady = s.gpioReady := rfl
@[simp] theorem State.advance_params (n : Nat) : (s.advance n).params = s.params := rfl
@[simp] theorem State.advance_pending (n : Nat) : (s.advance n).pending = s.pending := rfl
@[simp] theorem State.advance_wire (n : Nat) : (s.advance n).wire = s.wire := rfl
@[simp] theorem State.advance_draws (n : Nat) : (s.advance n).draws = s.draws := rfl
@[simp] theorem State.advance_level (n : Nat) (q : Pin) : (s.advance n).level q = s.level q := rfl
@[simp] theorem State.advance_mode (n : Nat) (q : Pin) : (s.advance n).mode q = s.mode q := rfl
@[simp] theorem State.advance_spiOf (n : Nat) (c' : Channel) : (s.advance n).spiOf c' = s.spiOf c' := rfl

/-! ### draws -/

@[simp] theorem State.draws_level (d : Draws) (q : Pin) : ({ s with draws := d } : State).level q = s.level q := rfl
@[simp] theorem State.draws_mode (d : Draws) (q : Pin) : ({ s with draws := d } : State).mode q = s.mode q := rfl
@[simp] theorem State.draws_spiOf (d : Draws) (c' : Channel) : ({ s with draws := d } : State).spiOf c' = s.spiOf c' := rfl

end Sys2Proof.Machine
end

