-- ==== Sys2Proof/Laws/Ops.lean ====
section
/-! SUPPORT. What each shared operation can do, said once: `Runs C s p` collects the effects of a piece of an operation
whose calls all satisfy `C`. -/

namespace Sys2Proof.Machine

/-! ### Draws -/

theorem Draws.takeFail_of_cons {d : Draws} {b : Bool} {rest : List Bool} (h : d.fail = b :: rest) :
    d.takeFail = (b, { d with fail := rest, index := d.index + 1 }) := by
  simp [Draws.takeFail, h]

theorem Draws.okFor_zero (d : Draws) : d.okFor 0 := by simp [Draws.okFor]

theorem Draws.okFor_succ {d : Draws} {n : Nat} (h : d.okFor (n + 1)) :
    ∃ rest, d.fail = false :: rest ∧ rest.take n = List.replicate n false := by
  unfold Draws.okFor at h
  cases hf : d.fail with
  | nil => simp [hf, List.replicate_succ] at h
  | cons b rest =>
    rw [hf, List.take_succ_cons, List.replicate_succ] at h
    obtain ⟨rfl, hrest⟩ := List.cons.inj h
    exact ⟨rest, rfl, hrest⟩

/-- A draw of another kind leaves the FAIL answers alone. -/
@[simp] theorem Draws.takeWasLow_fail (d : Draws) : d.takeWasLow.2.fail = d.fail := by
  unfold Draws.takeWasLow; split <;> rfl

@[simp] theorem Draws.takeFail_wasLow (d : Draws) : d.takeFail.2.wasLow = d.wasLow := by
  unfold Draws.takeFail; split <;> rfl

@[simp] theorem Draws.takeOrder_wasLow (d : Draws) : d.takeOrder.2.wasLow = d.wasLow := by
  unfold Draws.takeOrder; split <;> rfl

@[simp] theorem Draws.takeChunk_fail (d : Draws) : d.takeChunk.2.fail = d.fail := by
  unfold Draws.takeChunk; split <;> rfl

@[simp] theorem Draws.takeOrder_fail (d : Draws) : d.takeOrder.2.fail = d.fail := by
  unfold Draws.takeOrder; split <;> rfl

/-! ### Progress -/

@[simp] theorem Progress.state_going (s : State) : (Progress.going s).state = s := rfl

@[simp] theorem Progress.state_aborted (s : State) : (Progress.aborted s).state = s := rfl

@[simp] theorem Progress.going_andThen (s : State) (f : State → Progress) : (Progress.going s).andThen f = f s := rfl

@[simp] theorem Progress.aborted_andThen (s : State) (f : State → Progress) :
    (Progress.aborted s).andThen f = .aborted s := rfl

@[simp] theorem Progress.going_map (s : State) (f : State → State) : (Progress.going s).map f = .going (f s) := rfl

@[simp] theorem Progress.aborted_map (s : State) (f : State → State) : (Progress.aborted s).map f = .aborted (f s) := rfl

@[simp] theorem Progress.map_state (p : Progress) (f : State → State) : (p.map f).state = f p.state := by
  cases p <;> rfl

@[simp] theorem Progress.going_finish (s : State) (v : OkValue) : (Progress.going s).finish v = s.ret (.ok v) := rfl

@[simp] theorem Progress.aborted_finish (s : State) (v : OkValue) :
    (Progress.aborted s).finish v = s.ret .transportError := rfl

/-! ### The effects of a piece of an operation -/

/-- R33, R99, R101: the marks of the events a piece of an operation adds. A failed call is the last. -/
def Marked (ev : List Event) : Progress → Prop
  | .going _ => ∀ e ∈ ev, e.mark = .ok
  | .aborted _ => ∃ before c, ev = before ++ [failedEvent c] ∧ ∀ e ∈ before, e.mark = .ok

/-- From `s`, a piece of an operation whose calls all satisfy `C` comes to `p`. -/
structure Runs (C : Call → Prop) (s : State) (p : Progress) : Prop where
  inst : p.state.inst = s.inst
  results : p.state.results = s.results
  emission : p.state.emission = s.emission
  gpioReady : p.state.gpioReady = s.gpioReady
  params : p.state.params = s.params
  pending : p.state.pending = s.pending
  events : ∃ ev, p.state.trace = s.trace ++ ev ∧ (∀ e ∈ ev, C e.call) ∧
    (∀ e ∈ ev, ∀ us, e.call = .delay us → e.mark = .ok) ∧ Marked ev p
  levels : ∀ q, (∀ l, ¬ C (.gpioWrite q l)) → ¬ C (.gpioMode q) → p.state.level q = s.level q
  modes : ∀ q, ¬ C (.gpioMode q) → p.state.mode q = s.mode q
  spi : ∀ ch, (∀ hz, ¬ C (.spiSetup ch hz)) → p.state.spiOf ch = s.spiOf ch
  setUps : ∀ ch hz, p.state.spiOf ch = .setUp hz → s.spiOf ch = .setUp hz ∨ C (.spiSetup ch hz)

/-- The effects do not see the engine, the wire and the draws. -/
theorem Runs.of_start {C : Call → Prop} {s s' : State} {p : Progress} (h : Runs C s p)
    (hi : s'.inst = s.inst := by rfl) (hr : s'.results = s.results := by rfl)
    (he : s'.emission = s.emission := by rfl)
    (hg : s'.gpioReady = s.gpioReady := by rfl) (hp : s'.params = s.params := by rfl)
    (hq : s'.pending = s.pending := by rfl) (ht : s'.trace = s.trace := by rfl)
    (hl : s'.levels = s.levels := by rfl) (hm : s'.modes = s.modes := by rfl) (hs : s'.spi = s.spi := by rfl) :
    Runs C s' p where
  inst := by rw [h.inst, hi]
  results := by rw [h.results, hr]
  emission := by rw [h.emission, he]
  gpioReady := by rw [h.gpioReady, hg]
  params := by rw [h.params, hp]
  pending := by rw [h.pending, hq]
  events := by rw [ht]; exact h.events
  levels q h1 h2 := by rw [h.levels q h1 h2]; simp [State.level, hl]
  modes q h1 := by rw [h.modes q h1]; simp [State.mode, hm]
  spi ch h1 := by rw [h.spi ch h1]; simp [State.spiOf, hs]
  setUps ch hz h1 := by
    have := h.setUps ch hz h1
    simpa [State.spiOf, hs] using this

theorem Runs.refl (C : Call → Prop) (s : State) : Runs C s (.going s) where
  inst := rfl
  results := rfl
  emission := rfl
  gpioReady := rfl
  params := rfl
  pending := rfl
  events := ⟨[], by simp [Marked]⟩
  levels _ _ _ := rfl
  modes _ _ := rfl
  spi _ _ := rfl
  setUps _ _ h := .inl h

theorem Runs.mono {C D : Call → Prop} {s : State} {p : Progress} (h : Runs C s p) (hCD : ∀ c, C c → D c) :
    Runs D s p where
  inst := h.inst
  results := h.results
  emission := h.emission
  gpioReady := h.gpioReady
  params := h.params
  pending := h.pending
  events := by
    obtain ⟨ev, h1, h2, h3⟩ := h.events
    exact ⟨ev, h1, fun e he => hCD _ (h2 e he), h3⟩
  levels q h1 h2 := h.levels q (fun l hl => h1 l (hCD _ hl)) (fun hm => h2 (hCD _ hm))
  modes q h1 := h.modes q (fun hm => h1 (hCD _ hm))
  spi ch h1 := h.spi ch (fun hz hs => h1 hz (hCD _ hs))
  setUps ch hz h1 := (h.setUps ch hz h1).imp_right (hCD _)

/-- A change of what `Runs` does not see, after the piece. -/
theorem Runs.map {C : Call → Prop} {s : State} {p : Progress} {f : State → State} (h : Runs C s p)
    (hi : ∀ s, (f s).inst = s.inst := by intros; rfl) (hr : ∀ s, (f s).results = s.results := by intros; rfl)
    (he : ∀ s, (f s).emission = s.emission := by intros; rfl)
    (hg : ∀ s, (f s).gpioReady = s.gpioReady := by intros; rfl)
    (hp : ∀ s, (f s).params = s.params := by intros; rfl)
    (hq : ∀ s, (f s).pending = s.pending := by intros; rfl) (ht : ∀ s, (f s).trace = s.trace := by intros; rfl)
    (hl : ∀ s, (f s).levels = s.levels := by intros; rfl) (hm : ∀ s, (f s).modes = s.modes := by intros; rfl)
    (hs : ∀ s, (f s).spi = s.spi := by intros; rfl) : Runs C s (p.map f) where
  inst := by simp [hi, h.inst]
  results := by simp [hr, h.results]
  emission := by simp [he, h.emission]
  gpioReady := by simp [hg, h.gpioReady]
  params := by simp [hp, h.params]
  pending := by simp [hq, h.pending]
  events := by
    obtain ⟨ev, h1, h2, h3, h4⟩ := h.events
    refine ⟨ev, by simp [ht, h1], h2, h3, ?_⟩
    cases p <;> exact h4
  levels q h1 h2 := by
    have := h.levels q h1 h2
    simpa [State.level, hl] using this
  modes q h1 := by
    have := h.modes q h1
    simpa [State.mode, hm] using this
  spi ch h1 := by
    have := h.spi ch h1
    simpa [State.spiOf, hs] using this
  setUps ch hz h1 := h.setUps ch hz (by simpa [State.spiOf, hs] using h1)

/-- Pieces follow one another: the second runs only when no call of the first failed. -/
theorem Runs.andThen {C : Call → Prop} {s : State} {p : Progress} {f : State → Progress} (h : Runs C s p)
    (hf : ∀ t, p = .going t → Runs C t (f t)) : Runs C s (p.andThen f) := by
  cases p with
  | aborted t => exact h
  | going t =>
    have g := hf t rfl
    obtain ⟨ev, h1, h2, h3, h4⟩ := h.events
    obtain ⟨ev', g1, g2, g3, g4⟩ := g.events
    simp only [Progress.state_going] at h1
    refine
      { inst := g.inst.trans h.inst
        results := g.results.trans h.results
        emission := g.emission.trans h.emission
        gpioReady := g.gpioReady.trans h.gpioReady
        params := g.params.trans h.params
        pending := g.pending.trans h.pending
        events := ⟨ev ++ ev', by simp [g1, h1], ?_, ?_, ?_⟩
        levels := fun q a b => (g.levels q a b).trans (h.levels q a b)
        modes := fun q a => (g.modes q a).trans (h.modes q a)
        spi := fun ch a => (g.spi ch a).trans (h.spi ch a)
        setUps := fun ch hz a => (g.setUps ch hz a).elim (h.setUps ch hz) .inr }
    · intro e he
      rcases List.mem_append.1 he with he | he
      · exact h2 e he
      · exact g2 e he
    · intro e he
      rcases List.mem_append.1 he with he | he
      · exact h3 e he
      · exact g3 e he
    · simp only [Progress.going_andThen]
      revert g4
      cases f t with
      | going u =>
        intro g4 e he
        rcases List.mem_append.1 he with he | he
        · exact h4 e he
        · exact g4 e he
      | aborted u =>
        rintro ⟨before, c, rfl, g4⟩
        refine ⟨ev ++ before, c, by simp, fun e he => ?_⟩
        rcases List.mem_append.1 he with he | he
        · exact h4 e he
        · exact g4 e he

/-! ### The collaborator calls -/

/-- A call's event is logged, then its effect happens: what both effects leave alone, the call leaves alone. -/
theorem callCollaborator_cases (c : Call) (good bad : State → State) (s : State) :
    (s.draws.takeFail.1 = false ∧ callCollaborator c good bad s =
      .going (good (({ s with draws := s.draws.takeFail.2 } : State).log c .ok))) ∨
    (s.draws.takeFail.1 = true ∧ callCollaborator c good bad s =
      .aborted (bad (({ s with draws := s.draws.takeFail.2 } : State).log c .failed))) := by
  unfold callCollaborator
  rcases h : s.draws.takeFail with ⟨b, d⟩
  cases b <;> simp

/-- A scripted ok answer lets a call go on. -/
theorem callCollaborator_ok {c : Call} {good bad : State → State} {s : State} {rest : List Bool}
    (h : s.draws.fail = false :: rest) :
    callCollaborator c good bad s =
      .going (good (({ s with draws := { s.draws with fail := rest, index := s.draws.index + 1 } } : State).log c .ok)) := by
  simp [callCollaborator, Draws.takeFail_of_cons h]

/-- A scripted failed answer ends the operation. -/
theorem callCollaborator_failed {c : Call} {good bad : State → State} {s : State} {rest : List Bool}
    (h : s.draws.fail = true :: rest) :
    callCollaborator c good bad s =
      .aborted (bad (({ s with draws := { s.draws with fail := rest, index := s.draws.index + 1 } } : State).log c
        .failed)) := by
  simp [callCollaborator, Draws.takeFail_of_cons h]

/-- A call's effect leaves these fields alone. -/
structure Harmless (f : State → State) : Prop where
  inst : ∀ s, (f s).inst = s.inst
  results : ∀ s, (f s).results = s.results
  emission : ∀ s, (f s).emission = s.emission
  gpioReady : ∀ s, (f s).gpioReady = s.gpioReady
  params : ∀ s, (f s).params = s.params
  pending : ∀ s, (f s).pending = s.pending
  trace : ∀ s, (f s).trace = s.trace
  engine : ∀ s, (f s).engine = s.engine

/-- The effects of a call from those of its two answers. -/
theorem Runs.call {c : Call} {good bad : State → State} (s : State) (hg : Harmless good) (hb : Harmless bad)
    (hd : ∀ us, c ≠ .delay us)
    (hl : ∀ t q, (∀ l, c ≠ .gpioWrite q l) → c ≠ .gpioMode q → (good t).level q = t.level q ∧ (bad t).level q = t.level q)
    (hm : ∀ t q, c ≠ .gpioMode q → (good t).mode q = t.mode q ∧ (bad t).mode q = t.mode q)
    (hs : ∀ t ch, (∀ hz, c ≠ .spiSetup ch hz) → (good t).spiOf ch = t.spiOf ch ∧ (bad t).spiOf ch = t.spiOf ch)
    (hu : ∀ t ch hz, ((good t).spiOf ch = .setUp hz ∨ (bad t).spiOf ch = .setUp hz) →
      t.spiOf ch = .setUp hz ∨ c = .spiSetup ch hz) :
    Runs (· = c) s (callCollaborator c good bad s) := by
  rcases callCollaborator_cases c good bad s with ⟨-, h⟩ | ⟨-, h⟩
  · rw [h]
    refine
      { inst := hg.inst _
        results := hg.results _
        emission := hg.emission _
        gpioReady := hg.gpioReady _
        params := hg.params _
        pending := hg.pending _
        events := ⟨[okEvent c], hg.trace _, by simp [okEvent], by simp [okEvent], by simp [Marked, okEvent]⟩
        levels := fun q a b => (hl _ q (fun l e => a l e.symm) (fun e => b e.symm)).1
        modes := fun q a => (hm _ q (fun e => a e.symm)).1
        spi := fun ch a => (hs _ ch (fun hz e => a hz e.symm)).1
        setUps := fun ch hz a => (hu _ ch hz (.inl a)).imp_right Eq.symm }
  · rw [h]
    refine
      { inst := hb.inst _
        results := hb.results _
        emission := hb.emission _
        gpioReady := hb.gpioReady _
        params := hb.params _
        pending := hb.pending _
        events := ⟨[failedEvent c], hb.trace _, by simp [failedEvent], by simp [failedEvent, hd], ⟨[], c, by simp⟩⟩
        levels := fun q a b => (hl _ q (fun l e => a l e.symm) (fun e => b e.symm)).2
        modes := fun q a => (hm _ q (fun e => a e.symm)).2
        spi := fun ch a => (hs _ ch (fun hz e => a hz e.symm)).2
        setUps := fun ch hz a => (hu _ ch hz (.inr a)).imp_right Eq.symm }

theorem callCollaborator_engine {c : Call} {good bad : State → State} (s : State) (hg : Harmless good)
    (hb : Harmless bad) : (callCollaborator c good bad s).state.engine = s.engine := by
  rcases callCollaborator_cases c good bad s with ⟨-, h⟩ | ⟨-, h⟩ <;> simp [h, hg.engine, hb.engine]

/-- The edges of a write touch nothing but the wire and the draws. -/
theorem clockEdges_cases (clk dat p : Pin) (lvl : Level) (s : State) :
    ∃ w d, clockEdges clk dat p lvl s = ({ s with draws := d } : State).onWire w := by
  unfold clockEdges
  split
  · split
    · exact ⟨_, s.draws, rfl⟩
    · split <;> exact ⟨_, _, rfl⟩
  · exact ⟨[], s.draws, by simp [State.onWire]⟩

theorem harmless_gpioWrite_ok (clk dat p : Pin) (lvl : Level) :
    Harmless fun s => (clockEdges clk dat p lvl s).setLevel p (some lvl) := by
  constructor <;> intro s <;> obtain ⟨w, d, h⟩ := clockEdges_cases clk dat p lvl s <;> simp [h]

theorem harmless_setLevel (p : Pin) (v : PinLevel) : Harmless fun s => s.setLevel p v := by
  constructor <;> intro s <;> rfl

theorem harmless_mode (p : Pin) (m : PinMode) : Harmless fun s => (s.setMode p m).setLevel p none := by
  constructor <;> intro s <;> rfl

theorem harmless_setSpi (ch : Channel) (v : SpiSetup) : Harmless fun s => s.setSpi ch v := by
  constructor <;> intro s <;> rfl

theorem harmless_onWire (w : State → List WireEvent) : Harmless fun s => s.onWire (w s) := by
  constructor <;> intro s <;> rfl

theorem harmless_spiPrefix (ch : Channel) (bytes : List Byte) : Harmless (spiPrefix ch bytes) := by
  constructor <;> intro s <;> rfl

theorem gpioMode_runs (p : Pin) (s : State) : Runs (· = .gpioMode p) s (gpioMode p s) := by
  refine Runs.call s (harmless_mode p _) (harmless_mode p _) (by simp) ?_ ?_ ?_ ?_
  · intro t q _ h
    have : q ≠ p := fun e => h (by rw [e])
    simp [State.setLevel_level, this]
  · intro t q h
    have : q ≠ p := fun e => h (by rw [e])
    simp [State.setMode_mode, this]
  · simp
  · simp

theorem gpioWrite_runs (clk dat p : Pin) (lvl : Level) (s : State) :
    Runs (· = .gpioWrite p lvl) s (gpioWrite clk dat p lvl s) := by
  refine Runs.call s (harmless_gpioWrite_ok clk dat p lvl) (harmless_setLevel p none) (by simp) ?_ ?_ ?_ ?_
  · intro t q h _
    have hq : q ≠ p := fun e => h lvl (by rw [e])
    obtain ⟨w, d, h⟩ := clockEdges_cases clk dat p lvl t
    simp [h, State.setLevel_level, hq]
  · intro t q _
    obtain ⟨w, d, h⟩ := clockEdges_cases clk dat p lvl t
    simp [h]
  · intro t ch _
    obtain ⟨w, d, h⟩ := clockEdges_cases clk dat p lvl t
    simp [h]
  · intro t ch hz
    obtain ⟨w, d, h⟩ := clockEdges_cases clk dat p lvl t
    simp [h]

theorem delay_runs (s : State) : Runs (· = .delay s.params.tHoldUs) s (delay s) where
  inst := rfl
  results := rfl
  emission := rfl
  gpioReady := rfl
  params := rfl
  pending := rfl
  events := ⟨[okEvent (.delay s.params.tHoldUs)], rfl, by simp [okEvent], by simp [okEvent],
    by simp [delay, Marked, okEvent]⟩
  levels _ _ _ := rfl
  modes _ _ := rfl
  spi _ _ := rfl
  setUps _ _ h := .inl h

theorem spiSetup_runs (ch : Channel) (hz : Nat) (s : State) : Runs (· = .spiSetup ch hz) s (spiSetup ch hz s) := by
  refine Runs.call s (harmless_setSpi ch _) (harmless_setSpi ch _) (by simp) ?_ ?_ ?_ ?_
  · simp
  · simp
  · intro t c h
    have : c ≠ ch := fun e => h hz (by rw [e])
    simp [State.setSpi_spiOf, this]
  · intro t c z
    by_cases hc : c = ch
    · subst hc
      simp only [State.setSpi_spiOf, if_pos]
      rintro (h | h)
      · cases h
        exact .inr rfl
      · cases h
    · simp only [State.setSpi_spiOf, if_neg hc, or_self]
      exact .inl

theorem spiWrite_runs (ch : Channel) (bytes : List Byte) (s : State) :
    Runs (· = .spiWrite ch bytes) s (spiWrite ch bytes s) := by
  refine Runs.call s (harmless_onWire fun s => spiEvents ch s.params.spiMode (bitsOf bytes (8 * bytes.length)))
    (harmless_spiPrefix ch bytes) (by simp) ?_ ?_ ?_ ?_
  · intro t q _ _; exact ⟨rfl, rfl⟩
  · intro t q _; exact ⟨rfl, rfl⟩
  · intro t c _; exact ⟨rfl, rfl⟩
  · intro t c hz h; exact .inl (h.elim id id)

@[simp] theorem gpioMode_engine (p : Pin) (s : State) : (gpioMode p s).state.engine = s.engine :=
  callCollaborator_engine s (harmless_mode p _) (harmless_mode p _)

@[simp] theorem gpioWrite_engine (clk dat p : Pin) (lvl : Level) (s : State) :
    (gpioWrite clk dat p lvl s).state.engine = s.engine :=
  callCollaborator_engine s (harmless_gpioWrite_ok clk dat p lvl) (harmless_setLevel p none)

@[simp] theorem delay_engine (s : State) : (delay s).state.engine = s.engine := rfl

@[simp] theorem spiSetup_engine (ch : Channel) (hz : Nat) (s : State) : (spiSetup ch hz s).state.engine = s.engine :=
  callCollaborator_engine s (harmless_setSpi ch _) (harmless_setSpi ch _)

@[simp] theorem spiWrite_engine (ch : Channel) (bytes : List Byte) (s : State) :
    (spiWrite ch bytes s).state.engine = s.engine :=
  callCollaborator_engine s
    (harmless_onWire fun s => spiEvents ch s.params.spiMode (bitsOf bytes (8 * bytes.length)))
    (harmless_spiPrefix ch bytes)

theorem andThen_engine {p : Progress} {f : State → Progress} {s : State} (h : p.state.engine = s.engine)
    (hf : ∀ t, (f t).state.engine = t.engine) : (p.andThen f).state.engine = s.engine := by
  cases p with
  | going t => exact (hf t).trans h
  | aborted t => exact h

/-! ### Idle and return -/

theorem whenIdle_idle {s : State} {f : State → Host.Outcome State Fault Refusal} (h : s.Idle) : whenIdle s f = f s :=
  if_pos h

theorem whenIdle_busy {s : State} {f : State → Host.Outcome State Fault Refusal} (h : ¬ s.Idle) :
    whenIdle s f = .refused .overlappingOperation := if_neg h

theorem whenIdle_next {s t : State} {f : State → Host.Outcome State Fault Refusal} (h : whenIdle s f = .next t) :
    s.Idle ∧ f s = .next t := by
  unfold whenIdle at h
  split at h
  · exact ⟨by assumption, h⟩
  · cases h

theorem whenNoWriter_idle {s : State} {f : State → Host.Outcome State Fault Refusal} (h : s.engine = none) :
    whenNoWriter s f = f s := by
  simp [whenNoWriter, h]

theorem whenNoWriter_busy {s : State} {f : State → Host.Outcome State Fault Refusal} {e : Engine}
    (h : s.engine = some e) : whenNoWriter s f = .refused .overlappingOperation := by
  simp [whenNoWriter, h]

theorem whenNoWriter_next {s t : State} {f : State → Host.Outcome State Fault Refusal}
    (h : whenNoWriter s f = .next t) : s.engine = none ∧ f s = .next t := by
  unfold whenNoWriter at h
  split at h
  · exact ⟨by assumption, h⟩
  · cases h

end Sys2Proof.Machine
end

