-- ==== Sys2Proof/Laws/Engine.lean ====
section
/-! SUPPORT. The two engines and the mode calls: which calls they can make, and what they do when every call succeeds. -/

namespace Sys2Proof.Machine

/-! ### The calls an operation can make (R107) -/

/-- R89, R90: the calls of the software engine. -/
def SwCall (sclk mosi : Pin) (us : Nat) : Call → Prop
  | .gpioMode _ => False
  | .gpioWrite p _ => p = sclk ∨ p = mosi
  | .delay d => d = us
  | .spiSetup _ _ => False
  | .spiWrite _ _ => False

/-- R93: the calls of the hardware engine. -/
def HwCall (ch : Channel) : Call → Prop
  | .gpioMode _ => False
  | .gpioWrite _ _ => False
  | .delay _ => False
  | .spiSetup _ _ => False
  | .spiWrite c bytes => c = ch ∧ bytes ≠ []

/-- The calls of a configuration's engine. -/
def WriterCall (us : Nat) : TransmitterConfig → Call → Prop
  | .software sclk mosi _ => SwCall sclk mosi us
  | .hardware ch => HwCall ch

/-! ### The software engine -/

theorem emitBitOn_runs (sclk mosi : Pin) (bit : Bool) (s : State) :
    Runs (SwCall sclk mosi s.params.tHoldUs) s (emitBitOn sclk mosi bit s) := by
  have wr : ∀ (p : Pin) (l : Level) (t : State), (p = sclk ∨ p = mosi) →
      Runs (SwCall sclk mosi s.params.tHoldUs) t (gpioWrite sclk mosi p l t) := fun p l t hp =>
    (gpioWrite_runs sclk mosi p l t).mono fun c hc => by subst hc; exact hp
  have dl : ∀ t : State, t.params = s.params → Runs (SwCall sclk mosi s.params.tHoldUs) t (delay t) := fun t ht =>
    (delay_runs t).mono fun c hc => by subst hc; simp [SwCall, ht]
  have h1 := wr mosi (levelOfBit bit) s (.inr rfl)
  have h2 := h1.andThen (f := gpioWrite sclk mosi sclk .high) fun t _ => wr sclk .high t (.inl rfl)
  have h3 := h2.andThen (f := delay) fun t ht => dl t (by have := h2.params; rw [ht] at this; exact this)
  have h4 := h3.andThen (f := gpioWrite sclk mosi sclk .low) fun t _ => wr sclk .low t (.inl rfl)
  exact h4.andThen (f := delay) fun t ht => dl t (by have := h4.params; rw [ht] at this; exact this)

@[simp] theorem emitBitOn_engine (sclk mosi : Pin) (bit : Bool) (s : State) :
    (emitBitOn sclk mosi bit s).state.engine = s.engine := by
  refine andThen_engine (andThen_engine (andThen_engine (andThen_engine ?_ ?_) ?_) ?_) ?_ <;> simp

theorem swLoop_runs (sclk mosi : Pin) (fuel : Nat) (s : State) :
    Runs (SwCall sclk mosi s.params.tHoldUs) s (swLoop sclk mosi fuel s) := by
  induction fuel generalizing s with
  | zero => exact Runs.refl _ s
  | succ fuel ih =>
    unfold swLoop
    cases s.engine with
    | none => exact Runs.refl _ s
    | some e =>
      dsimp only
      split
      · have h := emitBitOn_runs sclk mosi (bitAt e.buf e.k) s
        refine h.andThen fun t ht => ?_
        have hp : t.params = s.params := by have := h.params; rwa [ht] at this
        have := ih (t.advance 1)
        simp only [State.advance_params, hp] at this
        exact this.of_start
      · exact Runs.refl _ s

theorem swEngine_runs (sclk mosi : Pin) (buf : List Byte) (nbits : Nat) (s : State) :
    Runs (SwCall sclk mosi s.params.tHoldUs) s (swEngine sclk mosi buf nbits s) :=
  (Runs.of_start (s' := s) (swLoop_runs sclk mosi nbits (s.startEngine buf nbits))).map

@[simp] theorem swEngine_engine (sclk mosi : Pin) (buf : List Byte) (nbits : Nat) (s : State) :
    (swEngine sclk mosi buf nbits s).state.engine = none := by
  simp [swEngine]

/-! ### The hardware engine -/

/-- The engine's count stays within its buffer. -/
def EngineFits (s : State) : Prop := ∀ e, s.engine = some e → e.nbits ≤ 8 * e.buf.length

theorem hwLoop_runs (ch : Channel) (fuel : Nat) (s : State) (hs : EngineFits s) :
    Runs (HwCall ch) s (hwLoop ch fuel s) := by
  induction fuel generalizing s with
  | zero => exact Runs.refl _ s
  | succ fuel ih =>
    unfold hwLoop
    split
    · exact Runs.refl _ s
    · rename_i e he
      dsimp only
      split
      · rename_i hk
        have hfit := hs e he
        have hne : (e.buf.drop (e.k / 8)).take (chunkSize s.draws.takeChunk.1 (e.nbits / 8 - e.k / 8)) ≠ [] := by
          have : e.k / 8 < e.buf.length := by omega
          simp only [ne_eq, List.take_eq_nil_iff, List.drop_eq_nil_iff, chunkSize]
          omega
        have h := (Runs.of_start (s' := s)
          (spiWrite_runs ch ((e.buf.drop (e.k / 8)).take (chunkSize s.draws.takeChunk.1 (e.nbits / 8 - e.k / 8)))
            { s with draws := s.draws.takeChunk.2 })).mono (D := HwCall ch) (by rintro c rfl; exact ⟨rfl, hne⟩)
        refine h.andThen fun t ht => ?_
        have hen := spiWrite_engine ch
          ((e.buf.drop (e.k / 8)).take (chunkSize s.draws.takeChunk.1 (e.nbits / 8 - e.k / 8)))
          { s with draws := s.draws.takeChunk.2 }
        rw [ht] at hen
        refine (ih (t.advance _) ?_).of_start
        intro e' he'
        simp only [Progress.state_going] at hen
        simp only [State.advance_engine, hen, he, Option.map_some, Option.some.injEq] at he'
        subst he'
        exact hfit
      · exact Runs.refl _ s

theorem hwEngine_runs (ch : Channel) (buf : List Byte) (nbits : Nat) (s : State) (h : nbits ≤ 8 * buf.length) :
    Runs (HwCall ch) s (hwEngine ch buf nbits s) :=
  (Runs.of_start (s' := s) (hwLoop_runs ch (nbits / 8) (s.startEngine buf nbits) (by
    intro e he
    simp only [State.startEngine_engine, Option.some.injEq] at he
    subst he
    exact h))).map

@[simp] theorem hwEngine_engine (ch : Channel) (buf : List Byte) (nbits : Nat) (s : State) :
    (hwEngine ch buf nbits s).state.engine = none := by
  simp [hwEngine]

/-! ### The writer -/

theorem writeStream_runs (cfg : TransmitterConfig) (buf : List Byte) (nbits : Nat) (s : State)
    (h : nbits ≤ 8 * buf.length) : Runs (WriterCall s.params.tHoldUs cfg) s (writeStream cfg buf nbits s) := by
  cases cfg with
  | software sclk mosi cs => exact swEngine_runs sclk mosi buf nbits s
  | hardware ch => exact hwEngine_runs ch buf nbits s h

@[simp] theorem writeStream_engine (cfg : TransmitterConfig) (buf : List Byte) (nbits : Nat) (s : State) :
    (writeStream cfg buf nbits s).state.engine = none := by
  cases cfg <;> simp [writeStream]

/-! ### The mode calls and the priming write -/

/-- R71: the mode calls of a pin list. -/
def ModeCall (pins : List Pin) : Call → Prop
  | .gpioMode p => p ∈ pins
  | .gpioWrite _ _ => False
  | .delay _ => False
  | .spiSetup _ _ => False
  | .spiWrite _ _ => False

/-- R70 to R72: the calls of `initSoftware`. -/
def InitCall (sclk : Pin) (pins : List Pin) : Call → Prop
  | .gpioMode p => p ∈ pins
  | .gpioWrite p l => p = sclk ∧ l = .high
  | .delay _ => False
  | .spiSetup _ _ => False
  | .spiWrite _ _ => False

theorem modeCalls_runs (fuel : Nat) (pins : List Pin) (s : State) :
    Runs (ModeCall pins) s (modeCalls fuel pins s) := by
  induction fuel generalizing pins s with
  | zero => exact Runs.refl _ s
  | succ fuel ih =>
    simp only [modeCalls]
    split
    · exact Runs.refl _ s
    · rename_i p hp
      have h := (Runs.of_start (s' := s) (gpioMode_runs p { s with draws := s.draws.takeOrder.2 })).mono
        (D := ModeCall pins) (by rintro c rfl; exact List.mem_of_getElem? hp)
      refine h.andThen fun t _ => ?_
      refine (ih (pins.eraseIdx (s.draws.takeOrder.1 % pins.length)) t).mono fun c hc => ?_
      cases c with
      | gpioMode q => exact List.mem_of_mem_eraseIdx hc
      | gpioWrite _ _ => exact hc
      | delay _ => exact hc
      | spiSetup _ _ => exact hc
      | spiWrite _ _ => exact hc

@[simp] theorem modeCalls_engine (fuel : Nat) (pins : List Pin) (s : State) :
    (modeCalls fuel pins s).state.engine = s.engine := by
  induction fuel generalizing pins s with
  | zero => rfl
  | succ fuel ih =>
    simp only [modeCalls]
    split
    · rfl
    · rename_i p _
      have := gpioMode_engine p { s with draws := s.draws.takeOrder.2 }
      exact andThen_engine (s := s) this (ih _)

/-- No mode call reaches the wire. -/
@[simp] theorem modeCalls_wire (fuel : Nat) (pins : List Pin) (s : State) :
    (modeCalls fuel pins s).state.wire = s.wire := by
  induction fuel generalizing pins s with
  | zero => rfl
  | succ fuel ih =>
    simp only [modeCalls]
    split
    · rfl
    · rename_i p _
      rcases callCollaborator_cases (.gpioMode p) (fun s => (s.setMode p .output).setLevel p none)
        (fun s => (s.setMode p .unspecified).setLevel p none) { s with draws := s.draws.takeOrder.2 }
        with ⟨-, h⟩ | ⟨-, h⟩
      · rw [gpioMode, h, Progress.going_andThen, ih]; rfl
      · rw [gpioMode, h, Progress.aborted_andThen]; rfl

theorem primeClock_runs (sclk mosi : Pin) (cs : Option Pin) (pins : List Pin) (s : State) :
    Runs (InitCall sclk pins) s (primeClock sclk mosi cs s) := by
  cases cs with
  | none => exact Runs.refl _ s
  | some _ => exact (gpioWrite_runs sclk mosi sclk .high s).mono (by rintro c rfl; exact ⟨rfl, rfl⟩)

@[simp] theorem primeClock_engine (sclk mosi : Pin) (cs : Option Pin) (s : State) :
    (primeClock sclk mosi cs s).state.engine = s.engine := by
  cases cs with
  | none => rfl
  | some _ => exact gpioWrite_engine ..

/-- All the calls of `initSoftware`. -/
theorem initCalls_runs (sclk mosi : Pin) (cs : Option Pin) (s : State) :
    Runs (InitCall sclk (modePins sclk mosi cs)) s
      ((modeCalls (modePins sclk mosi cs).length (modePins sclk mosi cs) s).andThen (primeClock sclk mosi cs)) := by
  refine Runs.andThen ((modeCalls_runs _ _ s).mono fun c hc => ?_) fun t _ => primeClock_runs sclk mosi cs _ t
  cases c with
  | gpioMode q => exact hc
  | gpioWrite _ _ => exact hc.elim
  | delay _ => exact hc
  | spiSetup _ _ => exact hc
  | spiWrite _ _ => exact hc

end Sys2Proof.Machine
end

