-- ==== Sys2Proof/Laws/Operands.lean ====
section
/-! SUPPORT. The range checks of the operands: what each accepts and rejects; the length of a stream. -/

namespace Sys2Proof.Machine

theorem pinOf_some {i : Int} (h : 0 ≤ i ∧ i ≤ 29) : ∃ p, pinOf i = some p ∧ (p.val : Int) = i := by
  have h' : Config.pinMin ≤ i ∧ i ≤ Config.pinMax := h
  unfold pinOf
  rw [dif_pos h']
  exact ⟨_, rfl, by simp; omega⟩

theorem pinOf_none {i : Int} (h : ¬ (0 ≤ i ∧ i ≤ 29)) : pinOf i = none := by
  have h' : ¬ (Config.pinMin ≤ i ∧ i ≤ Config.pinMax) := h
  unfold pinOf
  rw [dif_neg h']

theorem pinOf_val (p : Pin) : pinOf (p.val : Int) = some p := by
  obtain ⟨q, h1, h2⟩ := pinOf_some (i := (p.val : Int)) (by omega)
  rw [h1]
  congr 1
  apply Fin.ext
  omega

theorem val_of_pinOf {i : Int} {p : Pin} (h : pinOf i = some p) : (p.val : Int) = i := by
  by_cases hi : 0 ≤ i ∧ i ≤ 29
  · obtain ⟨q, h1, h2⟩ := pinOf_some hi
    rw [h1] at h
    cases h
    exact h2
  · rw [pinOf_none hi] at h
    cases h

theorem csOf_csOperand (cs : Option Pin) : csOf (csOperand cs) = some cs := by
  cases cs with
  | none => rfl
  | some p =>
    unfold csOf csOperand
    rw [if_neg]
    · simp only [pinOf_val, Option.map_some]
    · simp [Config.csNone]

theorem csOf_some {i : Int} (h : -1 ≤ i ∧ i ≤ 29) : ∃ cs, csOf i = some cs := by
  unfold csOf
  split
  · exact ⟨_, rfl⟩
  · rename_i hn
    simp only [Config.csNone] at hn
    obtain ⟨q, hq, -⟩ := pinOf_some (i := i) (by omega)
    exact ⟨_, by rw [hq]; rfl⟩

theorem csOf_none {i : Int} (h : ¬ (-1 ≤ i ∧ i ≤ 29)) : csOf i = none := by
  unfold csOf
  rw [if_neg (by simp only [Config.csNone]; omega), pinOf_none (by omega)]
  rfl

theorem val_of_csOf {i : Int} {p : Pin} (h : csOf i = some (some p)) : (p.val : Int) = i := by
  unfold csOf at h
  split at h
  · cases h
  · cases hp : pinOf i with
    | none => rw [hp] at h; cases h
    | some q =>
      rw [hp] at h
      cases h
      exact val_of_pinOf hp

theorem channelOf_val (ch : Channel) : channelOf (ch.val : Int) = some ch := by
  fin_cases ch <;> rfl

theorem val_of_channelOf {i : Int} {ch : Channel} (h : channelOf i = some ch) : i = (ch.val : Int) := by
  unfold channelOf at h
  split at h
  · cases h; assumption
  · split at h
    · cases h; assumption
    · cases h

theorem length_flatMap_ledBytes (fs : List LedFrame) : (fs.flatMap ledBytes).length = 4 * fs.length := by
  induction fs with
  | nil => rfl
  | cons f fs ih => simp only [List.flatMap_cons, List.length_append, ih, ledBytes, List.length_cons, List.length_nil]; omega

/-- R78: the start frame, four bytes a frame, the end frame. -/
theorem length_stream (fs : List LedFrame) : (stream fs).length = 4 + 4 * fs.length + endBytes fs.length := by
  simp only [stream, List.length_append, length_flatMap_ledBytes, startFrame, endFrame, List.length_replicate,
    Config.startBytes]

end Sys2Proof.Machine
end

