-- ==== Sys2Proof/Laws/Exec.lean ====
section
/-! SUPPORT. What an instruction can do when it answers a next state, said once for all of them. -/

namespace Sys2Proof.Machine

/-- R58: the instruction is an emission of these bytes, and the stream it continues comes to `next`. -/
inductive EmissionOf (i : Instr) (s : State) : List Byte → Option Emission → Prop where
  | start (call : i = .fStart) (position : s.emission = none) : EmissionOf i s startFrame (some (.leds 0))
  | led (brightness : BitVec 5) (blue green red : Byte) (n : Nat) (call : i = .fLed brightness blue green red)
      (position : s.emission = some (.leds n)) (bound : withinNMax s.params.nMax (n + 1) = true) :
      EmissionOf i s (ledBytes { brightness := brightness, blue := blue, green := green, red := red })
        (some (.leds (n + 1)))
  | firstEnd (n : Nat) (call : i = .fEnd) (position : s.emission = some (.leds n)) (some_led : n ≠ 0) :
      EmissionOf i s [Config.endByte] (endsAfter n 1)
  | nextEnd (n m : Nat) (call : i = .fEnd) (position : s.emission = some (.ends n m)) :
      EmissionOf i s [Config.endByte] (endsAfter n (m + 1))

/-- The ways an instruction comes to a next state. -/
inductive OpEffect (i : Instr) (s t : State) : Prop where
  /-- R97, R98: rejected before any call. -/
  | rejected (c : Cause) (idle : s.engine = none) (result : t = s.ret (.invalidArgument c))
  /-- R63: a record was built. -/
  | made (f : LedFrame) (call : ∃ r g b br, i = .makeFrame r g b br) (result : t = s.ret (.ok (.frame f)))
  /-- R86: a bit writer ran on the configuration. -/
  | wrote (cfg : TransmitterConfig) (p : Progress) (idle : s.Idle) (config : s.inst = .configured cfg)
      (call : isEmission i = false) (runs : Runs (WriterCall s.params.tHoldUs cfg) s p) (done : p.state.engine = none)
      (result : t = p.finish .unit)
  /-- R81: an emission of a stream ran on the configuration, where the stream has it. -/
  | emitted (cfg : TransmitterConfig) (bytes : List Byte) (next : Option Emission) (quiet : s.engine = none)
      (config : s.inst = .configured cfg) (call : EmissionOf i s bytes next)
      (runs : Runs (WriterCall s.params.tHoldUs cfg) s (writeStream cfg bytes (8 * bytes.length) s))
      (done : (writeStream cfg bytes (8 * bytes.length) s).state.engine = none)
      (result : t = (writeStream cfg bytes (8 * bytes.length) s).emitted next)
  /-- R67: a channel was set up. -/
  | setUpHardware (c : Int) (ch : Channel) (idle : s.Idle) (call : i = .initHardware c)
      (operand : channelOf c = some ch) (result : t = (spiSetup ch Config.hwFreqHz s).configure (.hardware ch))
  /-- R70: pins were made outputs. -/
  | setUpSoftware (a b c : Int) (sclk mosi : Pin) (cs : Option Pin) (idle : s.Idle)
      (ready : s.gpioReady = true) (call : i = .initSoftware a b c) (sclkOperand : pinOf a = some sclk)
      (mosiOperand : pinOf b = some mosi) (csOperand : csOf c = some cs)
      (result : t = ((modeCalls (modePins sclk mosi cs).length (modePins sclk mosi cs) s).andThen
        (primeClock sclk mosi cs)).configure (.software sclk mosi cs))

theorem withConfig_next {s t : State} {f : TransmitterConfig → State → Host.Outcome State Fault Refusal}
    (h : withConfig s f = .next t) : ∃ cfg, s.inst = .configured cfg ∧ f cfg s = .next t := by
  unfold withConfig at h
  split at h
  · cases h
  · exact ⟨_, by assumption, h⟩

theorem withDevice_next {s t : State} {f : TransmitterConfig → State → Host.Outcome State Fault Refusal}
    (h : withDevice s f = .next t) :
    t = s.ret (.invalidArgument .noDevice) ∨ ∃ cfg, s.inst = .configured cfg ∧ f cfg s = .next t := by
  unfold withDevice at h
  split at h
  · cases h; exact .inl rfl
  · exact .inr ⟨_, by assumption, h⟩

theorem checkedWrite_next {cfg : TransmitterConfig} {buf : List Byte} {nbits : Nat} {s t : State}
    (h : checkedWrite cfg buf nbits s = .next t) :
    nbits ≤ 8 * buf.length ∧ (∀ ch, cfg = .hardware ch → nbits % 8 = 0) ∧
      t = (writeStream cfg buf nbits s).finish .unit := by
  unfold checkedWrite at h
  split at h
  · rename_i hfit
    refine ⟨by simpa [countFits] using hfit, ?_⟩
    split at h
    · cases h; exact ⟨by rintro ch ⟨⟩, rfl⟩
    · split at h
      · rename_i hw; cases h; exact ⟨fun _ _ => by simpa [wholeBytes] using hw, rfl⟩
      · cases h
  · cases h

theorem OpEffect.of_stream {i : Instr} {cfg : TransmitterConfig} {buf : List Byte} {nbits : Nat} {s t : State}
    (hi : s.Idle) (hc : s.inst = .configured cfg) (he : isEmission i = false) (hn : nbits ≤ 8 * buf.length)
    (ht : t = (writeStream cfg buf nbits s).finish .unit) : OpEffect i s t :=
  .wrote cfg _ hi hc he (writeStream_runs cfg buf nbits s hn) (writeStream_engine cfg buf nbits s) ht

theorem emitFrame_next {bytes : List Byte} {next : Except Refusal (Option Emission)} {s t : State}
    (h : emitFrame bytes next s = .next t) :
    s.engine = none ∧ (t = s.ret (.invalidArgument .noDevice) ∨ ∃ cfg e, s.inst = .configured cfg ∧ next = .ok e ∧
      t = (writeStream cfg bytes (8 * bytes.length) s).emitted e) := by
  obtain ⟨hi, h⟩ := whenNoWriter_next h
  refine ⟨hi, ?_⟩
  rcases withDevice_next h with rfl | ⟨cfg, hc, h⟩
  · exact .inl rfl
  · cases next with
    | error r => cases h
    | ok e => cases h; exact .inr ⟨cfg, e, hc, rfl, rfl⟩

theorem afterStart_ok {p e : Option Emission} (h : afterStart p = .ok e) : p = none ∧ e = some (.leds 0) := by
  cases p with
  | none => cases h; exact ⟨rfl, rfl⟩
  | some _ => cases h

theorem afterLed_ok {nMax : Option Nat} {p e : Option Emission} (h : afterLed nMax p = .ok e) :
    ∃ n, p = some (.leds n) ∧ withinNMax nMax (n + 1) = true ∧ e = some (.leds (n + 1)) := by
  unfold afterLed at h
  split at h
  · split at h
    · cases h; exact ⟨_, rfl, by assumption, rfl⟩
    · cases h
  · cases h
  · cases h

theorem afterEnd_ok {p e : Option Emission} (h : afterEnd p = .ok e) :
    (∃ n, p = some (.leds n) ∧ n ≠ 0 ∧ e = endsAfter n 1) ∨ ∃ n m, p = some (.ends n m) ∧ e = endsAfter n (m + 1) := by
  unfold afterEnd at h
  split at h
  · split at h
    · cases h
    · cases h; exact .inl ⟨_, rfl, by assumption, rfl⟩
  · cases h; exact .inr ⟨_, _, rfl, rfl⟩
  · cases h

theorem emitFrame_effect {i : Instr} {bytes : List Byte} {next : Except Refusal (Option Emission)} {s t : State}
    (h : emitFrame bytes next s = .next t) (hcall : ∀ e, next = .ok e → EmissionOf i s bytes e) : OpEffect i s t := by
  obtain ⟨hi, rfl | ⟨cfg, e, hc, he, ht⟩⟩ := emitFrame_next h
  · exact .rejected _ hi rfl
  · exact .emitted cfg bytes e hi hc (hcall e he) (writeStream_runs cfg bytes _ s (le_refl _))
      (writeStream_engine cfg bytes _ s) ht

/-- Every next state of every instruction is one of `OpEffect`. -/
theorem exec_effect {i : Instr} {s t : State} (h : exec i s = .next t) : OpEffect i s t := by
  cases i with
  | fStart =>
    refine emitFrame_effect h fun e he => ?_
    obtain ⟨hp, rfl⟩ := afterStart_ok he
    exact .start rfl hp
  | fLed br b g r =>
    refine emitFrame_effect h fun e he => ?_
    obtain ⟨n, hp, hn, rfl⟩ := afterLed_ok he
    exact .led br b g r n rfl hp hn
  | fEnd =>
    refine emitFrame_effect h fun e he => ?_
    rcases afterEnd_ok he with ⟨n, hp, hn, rfl⟩ | ⟨n, m, hp, rfl⟩
    · exact .firstEnd n rfl hp hn
    · exact .nextEnd n m rfl hp
  | makeFrame r g b br => cases h; exact .made _ ⟨r, g, b, br, rfl⟩ rfl
  | initHardware c =>
    unfold exec execInitHardware at h
    obtain ⟨hi, h⟩ := whenIdle_next h
    split at h
    · cases h; exact .rejected _ hi.1 rfl
    · cases h; exact .setUpHardware c _ hi rfl (by assumption) rfl
  | initSoftware a b c =>
    unfold exec execInitSoftware at h
    obtain ⟨hi, h⟩ := whenIdle_next h
    split at h
    · rename_i hr
      split at h
      · cases h; exact .rejected _ hi.1 rfl
      · split at h
        · cases h; exact .rejected _ hi.1 rfl
        · split at h
          · cases h; exact .rejected _ hi.1 rfl
          · cases h
            exact .setUpSoftware a b c _ _ _ hi hr rfl (by assumption) (by assumption) (by assumption) rfl
    · cases h
  | update frames =>
    unfold exec execUpdate at h
    obtain ⟨hi, h⟩ := whenIdle_next h
    rcases withDevice_next h with rfl | ⟨cfg, hc, h⟩
    · exact .rejected _ hi.1 rfl
    · split at h
      · cases h; exact .rejected _ hi.1 rfl
      · cases h; exact .rejected _ hi.1 rfl
      · split at h
        · cases h; exact OpEffect.of_stream hi hc rfl (le_refl _) rfl
        · cases h
  | writeBits buf nbits =>
    unfold exec execWriteBits at h
    obtain ⟨hi, h⟩ := whenIdle_next h
    obtain ⟨cfg, hc, h⟩ := withConfig_next h
    obtain ⟨hn, -, ht⟩ := checkedWrite_next h
    exact OpEffect.of_stream hi hc rfl hn ht
  | swWriteBits buf nbits =>
    unfold exec execSwWriteBits at h
    obtain ⟨hi, h⟩ := whenIdle_next h
    obtain ⟨cfg, hc, h⟩ := withConfig_next h
    split at h
    · obtain ⟨hn, -, ht⟩ := checkedWrite_next h
      exact OpEffect.of_stream hi hc rfl hn ht
    · cases h
  | emitBit bit =>
    unfold exec execEmitBit at h
    obtain ⟨hi, h⟩ := whenIdle_next h
    obtain ⟨cfg, hc, h⟩ := withConfig_next h
    split at h
    · cases h
      exact .wrote _ _ hi hc rfl (emitBitOn_runs _ _ bit s) ((emitBitOn_engine _ _ bit s).trans hi.1) rfl
    · cases h
  | hwWriteBits buf nbits =>
    unfold exec execHwWriteBits at h
    obtain ⟨hi, h⟩ := whenIdle_next h
    obtain ⟨cfg, hc, h⟩ := withConfig_next h
    split at h
    · obtain ⟨hn, -, ht⟩ := checkedWrite_next h
      exact OpEffect.of_stream hi hc rfl hn ht
    · cases h

/-- With no stream begun, an operation that ends returns as an emission that ends a stream. -/
theorem finish_eq_emitted {p : Progress} (h : p.state.emission = none) : p.finish .unit = p.emitted none := by
  cases p with
  | going s => simp only [Progress.state_going] at h; simp only [Progress.finish, Progress.emitted, State.setEmission, ← h]
  | aborted s =>
    simp only [Progress.state_aborted] at h; simp only [Progress.finish, Progress.emitted, State.setEmission, ← h]

/-- R44, R81, R82: an instruction that hands bits to the writer was rejected before any call, or the writer of the
configured engine ran on exactly those bits and the instruction returned what it came to; the stream it belongs to, if
it is an emission of one, goes on with success, and ends with a failure. -/
theorem exec_sends {i : Instr} {buf : List Byte} {nbits : Nat} {s t : State} (hs : sends i = some (buf, nbits))
    (h : exec i s = .next t) :
    s.engine = none ∧ ((∃ c, t = s.ret (.invalidArgument c)) ∨
      ∃ cfg next, s.inst = .configured cfg ∧ nbits ≤ 8 * buf.length ∧ (∀ ch, cfg = .hardware ch → nbits % 8 = 0) ∧
        (isEmission i = false → s.Idle ∧ next = none) ∧ (isEmission i = true → EmissionOf i s buf next) ∧
        t = (writeStream cfg buf nbits s).emitted next) := by
  have emission : ∀ {bytes : List Byte} {next : Except Refusal (Option Emission)}, isEmission i = true →
      buf = bytes → nbits = 8 * bytes.length → emitFrame bytes next s = .next t →
      (∀ e, next = .ok e → EmissionOf i s bytes e) →
      s.engine = none ∧ ((∃ c, t = s.ret (.invalidArgument c)) ∨
        ∃ cfg next, s.inst = .configured cfg ∧ nbits ≤ 8 * buf.length ∧ (∀ ch, cfg = .hardware ch → nbits % 8 = 0) ∧
          (isEmission i = false → s.Idle ∧ next = none) ∧ (isEmission i = true → EmissionOf i s buf next) ∧
          t = (writeStream cfg buf nbits s).emitted next) := by
    rintro bytes next hi rfl rfl h hcall
    obtain ⟨hq, rfl | ⟨cfg, e, hc, he, ht⟩⟩ := emitFrame_next h
    · exact ⟨hq, .inl ⟨_, rfl⟩⟩
    · exact ⟨hq, .inr ⟨cfg, e, hc, le_refl _, fun _ _ => by omega, by simp [hi], fun _ => hcall e he, ht⟩⟩
  have plain : ∀ {cfg : TransmitterConfig}, isEmission i = false → s.Idle → s.inst = .configured cfg →
      nbits ≤ 8 * buf.length → (∀ ch, cfg = .hardware ch → nbits % 8 = 0) →
      t = (writeStream cfg buf nbits s).finish .unit →
      s.engine = none ∧ ((∃ c, t = s.ret (.invalidArgument c)) ∨
        ∃ cfg next, s.inst = .configured cfg ∧ nbits ≤ 8 * buf.length ∧ (∀ ch, cfg = .hardware ch → nbits % 8 = 0) ∧
          (isEmission i = false → s.Idle ∧ next = none) ∧ (isEmission i = true → EmissionOf i s buf next) ∧
          t = (writeStream cfg buf nbits s).emitted next) := by
    intro cfg he hi hc hn h8 ht
    refine ⟨hi.1, .inr ⟨cfg, none, hc, hn, h8, fun _ => ⟨hi, rfl⟩, by simp [he], ht.trans (finish_eq_emitted ?_)⟩⟩
    exact (writeStream_runs cfg buf nbits s hn).emission.trans hi.2
  cases i with
  | fStart =>
    cases hs
    exact emission rfl rfl rfl h fun e he => by obtain ⟨hp, rfl⟩ := afterStart_ok he; exact .start rfl hp
  | fLed br b g r =>
    cases hs
    exact emission rfl rfl rfl h fun e he => by
      obtain ⟨n, hp, hn, rfl⟩ := afterLed_ok he; exact .led br b g r n rfl hp hn
  | fEnd =>
    cases hs
    exact emission rfl rfl rfl h fun e he => by
      rcases afterEnd_ok he with ⟨n, hp, hn, rfl⟩ | ⟨n, m, hp, rfl⟩
      · exact .firstEnd n rfl hp hn
      · exact .nextEnd n m rfl hp
  | makeFrame r g b br => cases hs
  | initHardware c => cases hs
  | initSoftware a b c => cases hs
  | emitBit bit => cases hs
  | update frames =>
    unfold exec execUpdate at h
    obtain ⟨hi, h⟩ := whenIdle_next h
    rcases withDevice_next h with rfl | ⟨cfg, hc, h⟩
    · exact ⟨hi.1, .inl ⟨_, rfl⟩⟩
    · rcases frames with _ | _ | ⟨f, fs⟩
      · cases hs
      · cases h; exact ⟨hi.1, .inl ⟨_, rfl⟩⟩
      · dsimp only at h
        split at h
        · cases h
          have hlen : 8 * (stream ((f :: fs).map frameValue)).length =
              32 + 32 * (f :: fs).length + 8 * endBytes (f :: fs).length := by
            rw [length_stream, List.length_map]; omega
          cases hs
          rw [← hlen]
          rw [← hlen] at plain
          exact plain rfl hi hc (le_refl _) (fun _ _ => Nat.mul_mod_right ..) rfl
        · cases h
  | writeBits b n =>
    cases hs
    unfold exec execWriteBits at h
    obtain ⟨hi, h⟩ := whenIdle_next h
    obtain ⟨cfg, hc, h⟩ := withConfig_next h
    obtain ⟨hn, h8, ht⟩ := checkedWrite_next h
    exact plain rfl hi hc hn h8 ht
  | swWriteBits b n =>
    cases hs
    unfold exec execSwWriteBits at h
    obtain ⟨hi, h⟩ := whenIdle_next h
    obtain ⟨cfg, hc, h⟩ := withConfig_next h
    split at h
    · obtain ⟨hn, h8, ht⟩ := checkedWrite_next h
      exact plain rfl hi hc hn h8 ht
    · cases h
  | hwWriteBits b n =>
    cases hs
    unfold exec execHwWriteBits at h
    obtain ⟨hi, h⟩ := whenIdle_next h
    obtain ⟨cfg, hc, h⟩ := withConfig_next h
    split at h
    · obtain ⟨hn, h8, ht⟩ := checkedWrite_next h
      exact plain rfl hi hc hn h8 ht
    · cases h

end Sys2Proof.Machine
end

