-- ==== Sys2Proof/Laws/Success.lean ====
section
/-! SUPPORT. What the engines and the mode calls do when every call they make is answered ok. -/

namespace Sys2Proof.Machine

/-! ### One write -/

/-- The edges of a write and the draws after it: none off the clock pin, one of R91 on it, from a level it may find. -/
structure EdgesOf (clk dat p : Pin) (lvl : Level) (s : State) (w : List WireEvent) (d : Draws) : Prop where
  off : p ≠ clk → w = [] ∧ d.wasLow = s.draws.wasLow
  on : p = clk → ∃ b, ClockMayBe s clk b ∧ w = edgeOf clk b lvl (s.level dat)

theorem ClockMayBe.of_known {s : State} {clk : Pin} {l b : Level} (h : ClockMayBe s clk l) (hl : s.level clk = some b) :
    l = b := h.known b hl

/-- What a write on the clock may find depends on its level and the draw alone. -/
theorem ClockMayBe.of_eq {s t : State} {clk : Pin} {l : Level} (h : ClockMayBe t clk l) (hl : t.level clk = s.level clk)
    (hd : t.draws.wasLow = s.draws.wasLow) : ClockMayBe s clk l :=
  ⟨fun b hb => h.known b (hl.trans hb), fun hn low rest hw => h.drawn (hl.trans hn) low rest (hd.trans hw)⟩

theorem clockEdges_spec (clk dat p : Pin) (lvl : Level) (s : State) :
    ∃ w d, clockEdges clk dat p lvl s = ({ s with draws := d } : State).onWire w ∧ d.fail = s.draws.fail ∧
      EdgesOf clk dat p lvl s w d := by
  unfold clockEdges
  split
  · rename_i hp
    split
    · rename_i b hb
      refine ⟨_, s.draws, rfl, rfl, fun h => absurd hp h, fun _ => ⟨b, ⟨fun b' hb' => ?_, fun h => ?_⟩, rfl⟩⟩
      · rw [hb] at hb'; cases hb'; rfl
      · rw [hb] at h; cases h
    · rename_i hb
      have hf := s.draws.takeWasLow_fail
      have hw : ∀ low rest, s.draws.wasLow = low :: rest → s.draws.takeWasLow.1 = low := by
        intro low rest h; simp [Draws.takeWasLow, h]
      rcases hd : s.draws.takeWasLow with ⟨low, d⟩
      rw [hd] at hf hw
      cases low
      · refine ⟨_, d, rfl, hf, fun h => absurd hp h, fun _ => ⟨.high, ⟨fun b' hb' => ?_, fun _ low rest h => ?_⟩, rfl⟩⟩
        · rw [hb] at hb'; cases hb'
        · rw [← hw low rest h]; rfl
      · refine ⟨_, d, rfl, hf, fun h => absurd hp h, fun _ => ⟨.low, ⟨fun b' hb' => ?_, fun _ low rest h => ?_⟩, rfl⟩⟩
        · rw [hb] at hb'; cases hb'
        · rw [← hw low rest h]; rfl
  · rename_i hp
    exact ⟨[], s.draws, by simp [State.onWire], rfl, fun _ => ⟨rfl, rfl⟩, fun h => absurd h hp⟩

/-- The draw of FAIL and the logged event change nothing of the edges. -/
theorem EdgesOf.of_log {clk dat p : Pin} {lvl : Level} {s : State} {w : List WireEvent} {d e : Draws} {c : Call}
    {m : Mark} (h : EdgesOf clk dat p lvl (({ s with draws := e } : State).log c m) w d)
    (he : e.wasLow = s.draws.wasLow) : EdgesOf clk dat p lvl s w d :=
  ⟨fun hp => ⟨(h.off hp).1, (h.off hp).2.trans he⟩, fun hp =>
    let ⟨b, hb, hw⟩ := h.on hp
    ⟨b, hb.of_eq rfl he, hw⟩⟩

/-- A write answered ok. -/
theorem gpioWrite_ok {clk dat p : Pin} {lvl : Level} {s : State} {rest : List Bool}
    (h : s.draws.fail = false :: rest) :
    ∃ w d, gpioWrite clk dat p lvl s = .going
        { s with
          levels := s.levels.set p.val (some lvl)
          trace := s.trace ++ [okEvent (.gpioWrite p lvl)]
          wire := s.wire ++ w
          draws := d } ∧ d.fail = rest ∧ EdgesOf clk dat p lvl s w d := by
  unfold gpioWrite
  rw [callCollaborator_ok h]
  obtain ⟨w, d, he, hf, hw⟩ := clockEdges_spec clk dat p lvl
    (({ s with draws := { s.draws with fail := rest, index := s.draws.index + 1 } } : State).log (.gpioWrite p lvl) .ok)
  rw [he]
  exact ⟨w, d, rfl, hf, hw.of_log rfl⟩

/-! ### One bit -/

/-- The pin levels after one bit (R89): the data level, then the clock high and low. -/
def bitLevels (sclk mosi : Pin) (bit : Bool) (s : State) : Vector PinLevel 30 :=
  ((s.levels.set mosi.val (some (levelOfBit bit))).set sclk.val (some .high)).set sclk.val (some .low)

/-- R91: what one bit puts on the wire of two different pins, by the clock level it starts from. -/
def BitOnWire (sclk mosi : Pin) (bit : Bool) (s : State) (w : List WireEvent) : Prop :=
  sclk ≠ mosi → ∃ b, ClockMayBe s sclk b ∧ w = edgeOf sclk b .high (some (levelOfBit bit)) ++ [.falling sclk]

theorem BitOnWire.fromLow {sclk mosi : Pin} {bit : Bool} {s : State} {w : List WireEvent}
    (h : BitOnWire sclk mosi bit s w) (hne : sclk ≠ mosi) (hl : s.level sclk = some .low) :
    w = [.rising sclk (some (levelOfBit bit)), .falling sclk] := by
  obtain ⟨b, hb, rfl⟩ := h hne
  rw [hb.of_known hl]
  rfl

theorem BitOnWire.fromHigh {sclk mosi : Pin} {bit : Bool} {s : State} {w : List WireEvent}
    (h : BitOnWire sclk mosi bit s w) (hne : sclk ≠ mosi) (hl : s.level sclk = some .high) : w = [.falling sclk] := by
  obtain ⟨b, hb, rfl⟩ := h hne
  rw [hb.of_known hl]
  rfl

theorem BitOnWire.fromUnknown {sclk mosi : Pin} {bit : Bool} {s : State} {w : List WireEvent}
    (h : BitOnWire sclk mosi bit s w) (hne : sclk ≠ mosi) :
    w = [.rising sclk (some (levelOfBit bit)), .falling sclk] ∨ w = [.falling sclk] := by
  obtain ⟨b, -, rfl⟩ := h hne
  cases b
  · exact .inl rfl
  · exact .inr rfl

/-- The state after the data write of a bit. -/
def afterData (mosi : Pin) (bit : Bool) (w : List WireEvent) (d : Draws) (s : State) : State :=
  { s with
    levels := s.levels.set mosi.val (some (levelOfBit bit))
    trace := s.trace ++ [okEvent (.gpioWrite mosi (levelOfBit bit))]
    wire := s.wire ++ w
    draws := d }

/-- The state after the rising clock write and the first delay of a bit. -/
def afterRise (sclk mosi : Pin) (bit : Bool) (w : List WireEvent) (d : Draws) (s : State) : State :=
  { s with
    levels := (s.levels.set mosi.val (some (levelOfBit bit))).set sclk.val (some .high)
    trace := s.trace ++ [okEvent (.gpioWrite mosi (levelOfBit bit)), okEvent (.gpioWrite sclk .high),
      okEvent (.delay s.params.tHoldUs)]
    wire := s.wire ++ w
    draws := d }

theorem afterData_mosi (mosi : Pin) (bit : Bool) (w : List WireEvent) (d : Draws) (s : State) :
    (afterData mosi bit w d s).level mosi = some (levelOfBit bit) := by
  simp [State.level, afterData]

theorem afterData_other {mosi p : Pin} (bit : Bool) (w : List WireEvent) (d : Draws) (s : State) (h : p ≠ mosi) :
    (afterData mosi bit w d s).level p = s.level p := by
  have : mosi.val ≠ p.val := fun e => h (Fin.ext e.symm)
  simp [State.level, afterData, this]

theorem afterRise_sclk (sclk mosi : Pin) (bit : Bool) (w : List WireEvent) (d : Draws) (s : State) :
    (afterRise sclk mosi bit w d s).level sclk = some .high := by
  simp [State.level, afterRise]

/-- R91: the edges of one bit's three writes. -/
theorem bitOnWire_of_edges {sclk mosi : Pin} {bit : Bool} {s : State} {w1 w2 w3 : List WireEvent} {d1 d2 d3 : Draws}
    (e1 : EdgesOf sclk mosi mosi (levelOfBit bit) s w1 d1)
    (e2 : EdgesOf sclk mosi sclk .high (afterData mosi bit w1 d1 s) w2 d2)
    (e3 : EdgesOf sclk mosi sclk .low (afterRise sclk mosi bit (w1 ++ w2) d2 s) w3 d3) :
    BitOnWire sclk mosi bit s (w1 ++ w2 ++ w3) := by
  intro hne
  obtain ⟨h1, hd⟩ := e1.off (Ne.symm hne)
  obtain ⟨b, hb, h2⟩ := e2.on rfl
  obtain ⟨c, hc, h3⟩ := e3.on rfl
  refine ⟨b, hb.of_eq (afterData_other bit w1 d1 s hne) hd, ?_⟩
  rw [h1, h2, h3, hc.of_known (afterRise_sclk ..), afterData_mosi]
  rfl

/-- The first two writes and the first delay of a bit. -/
theorem rise_of_writes {sclk mosi : Pin} {bit : Bool} {s : State} {w1 w2 : List WireEvent} {d1 d2 : Draws}
    (h1 : gpioWrite sclk mosi mosi (levelOfBit bit) s = .going (afterData mosi bit w1 d1 s))
    (h2 : gpioWrite sclk mosi sclk .high (afterData mosi bit w1 d1 s) = .going
      { afterData mosi bit w1 d1 s with
        levels := (afterData mosi bit w1 d1 s).levels.set sclk.val (some .high)
        trace := (afterData mosi bit w1 d1 s).trace ++ [okEvent (.gpioWrite sclk .high)]
        wire := (afterData mosi bit w1 d1 s).wire ++ w2
        draws := d2 }) :
    ((gpioWrite sclk mosi mosi (levelOfBit bit) s).andThen (gpioWrite sclk mosi sclk .high)).andThen delay =
      .going (afterRise sclk mosi bit (w1 ++ w2) d2 s) := by
  rw [h1, Progress.going_andThen, h2]
  simp [delay, State.log, afterData, afterRise, okEvent]

/-- The last write and the last delay of a bit. -/
theorem emitBitOn_of_rise {sclk mosi : Pin} {bit : Bool} {s : State} {w w3 : List WireEvent} {d2 d3 : Draws}
    (h12 : ((gpioWrite sclk mosi mosi (levelOfBit bit) s).andThen (gpioWrite sclk mosi sclk .high)).andThen delay =
      .going (afterRise sclk mosi bit w d2 s))
    (h3 : gpioWrite sclk mosi sclk .low (afterRise sclk mosi bit w d2 s) = .going
      { afterRise sclk mosi bit w d2 s with
        levels := (afterRise sclk mosi bit w d2 s).levels.set sclk.val (some .low)
        trace := (afterRise sclk mosi bit w d2 s).trace ++ [okEvent (.gpioWrite sclk .low)]
        wire := (afterRise sclk mosi bit w d2 s).wire ++ w3
        draws := d3 }) :
    emitBitOn sclk mosi bit s = .going
      { s with
        levels := bitLevels sclk mosi bit s
        trace := s.trace ++ bitEvents sclk mosi s.params.tHoldUs bit
        wire := s.wire ++ (w ++ w3)
        draws := d3 } := by
  rw [emitBitOn, h12, Progress.going_andThen, h3]
  simp [delay, State.log, afterRise, bitLevels, bitEvents, okEvent]

/-- R100: the state after a failed write. -/
def afterFailed (p : Pin) (lvl : Level) (d : Draws) (s : State) : State :=
  { s with
    levels := s.levels.set p.val none
    trace := s.trace ++ [failedEvent (.gpioWrite p lvl)]
    draws := d }

/-- A write, whatever the answer: it goes on, or it is the failed last call (R99, R100). -/
theorem gpioWrite_cases (clk dat p : Pin) (lvl : Level) (s : State) :
    (∃ w d, gpioWrite clk dat p lvl s = .going
        { s with
          levels := s.levels.set p.val (some lvl)
          trace := s.trace ++ [okEvent (.gpioWrite p lvl)]
          wire := s.wire ++ w
          draws := d } ∧ EdgesOf clk dat p lvl s w d) ∨
    ∃ d, gpioWrite clk dat p lvl s = .aborted (afterFailed p lvl d s) := by
  unfold gpioWrite
  rcases callCollaborator_cases (.gpioWrite p lvl) (fun s => (clockEdges clk dat p lvl s).setLevel p (some lvl))
    (fun s => s.setLevel p none) s with ⟨-, h⟩ | ⟨-, h⟩
  · obtain ⟨w, d, he, -, hw⟩ := clockEdges_spec clk dat p lvl
      (({ s with draws := s.draws.takeFail.2 } : State).log (.gpioWrite p lvl) .ok)
    rw [h, he]
    exact .inl ⟨w, d, rfl, hw.of_log s.draws.takeFail_wasLow⟩
  · exact .inr ⟨_, h⟩

/-- A write answered failed. -/
theorem gpioWrite_failed {clk dat p : Pin} {lvl : Level} {s : State} {rest : List Bool}
    (h : s.draws.fail = true :: rest) :
    gpioWrite clk dat p lvl s =
      .aborted (afterFailed p lvl { s.draws with fail := rest, index := s.draws.index + 1 } s) := by
  unfold gpioWrite
  rw [callCollaborator_failed h]
  rfl

/-- R89, R101: the states in which one bit stops, at its first, its second or its third write. -/
inductive BitStopped (sclk mosi : Pin) (bit : Bool) (s : State) : State → Prop where
  | data (d : Draws) : BitStopped sclk mosi bit s (afterFailed mosi (levelOfBit bit) d s)
  | rise (w1 : List WireEvent) (d1 d : Draws) (edges : EdgesOf sclk mosi mosi (levelOfBit bit) s w1 d1) :
    BitStopped sclk mosi bit s (afterFailed sclk .high d (afterData mosi bit w1 d1 s))
  | fall (w1 w2 : List WireEvent) (d1 d2 d : Draws) (dataEdges : EdgesOf sclk mosi mosi (levelOfBit bit) s w1 d1)
    (riseEdges : EdgesOf sclk mosi sclk .high (afterData mosi bit w1 d1 s) w2 d2) :
    BitStopped sclk mosi bit s (afterFailed sclk .low d (afterRise sclk mosi bit (w1 ++ w2) d2 s))

/-- R44, R100, R101: what was called is a prefix of the bit's events, the last one failed and its pin's level unknown. -/
theorem BitStopped.trace {sclk mosi : Pin} {bit : Bool} {s u : State} (h : BitStopped sclk mosi bit s u) :
    ∃ before p lvl, before ++ [okEvent (.gpioWrite p lvl)] <+: bitEvents sclk mosi s.params.tHoldUs bit ∧
      u.trace = s.trace ++ before ++ [failedEvent (.gpioWrite p lvl)] ∧ u.level p = none := by
  cases h with
  | data d =>
    exact ⟨[], mosi, levelOfBit bit, by simp [bitEvents], by simp [afterFailed], by simp [State.level, afterFailed]⟩
  | rise w1 d1 d edges =>
    exact ⟨[okEvent (.gpioWrite mosi (levelOfBit bit))], sclk, .high, by simp [bitEvents],
      by simp [afterFailed, afterData], by simp [State.level, afterFailed]⟩
  | fall w1 w2 d1 d2 d _ _ =>
    exact ⟨[okEvent (.gpioWrite mosi (levelOfBit bit)), okEvent (.gpioWrite sclk .high),
      okEvent (.delay s.params.tHoldUs)], sclk, .low, ⟨[okEvent (.delay s.params.tHoldUs)], by simp [bitEvents]⟩,
      by simp [afterFailed, afterRise], by simp [State.level, afterFailed]⟩

theorem BitStopped.modes {sclk mosi : Pin} {bit : Bool} {s u : State} (h : BitStopped sclk mosi bit s u) :
    u.modes = s.modes := by
  cases h <;> rfl

theorem BitStopped.spi {sclk mosi : Pin} {bit : Bool} {s u : State} (h : BitStopped sclk mosi bit s u) :
    u.spi = s.spi := by
  cases h <;> rfl

/-- R89, R101: one bit, whatever the answers: it is sent, or it stops at the first failed write. -/
theorem emitBitOn_cases (sclk mosi : Pin) (bit : Bool) (s : State) :
    (∃ w d, emitBitOn sclk mosi bit s = .going
        { s with
          levels := bitLevels sclk mosi bit s
          trace := s.trace ++ bitEvents sclk mosi s.params.tHoldUs bit
          wire := s.wire ++ w
          draws := d } ∧ BitOnWire sclk mosi bit s w) ∨
    ∃ u, emitBitOn sclk mosi bit s = .aborted u ∧ BitStopped sclk mosi bit s u := by
  rcases gpioWrite_cases sclk mosi mosi (levelOfBit bit) s with ⟨w1, d1, h1, e1⟩ | ⟨d, h⟩
  swap
  · refine .inr ⟨_, ?_, .data d⟩
    rw [emitBitOn, h]; rfl
  rcases gpioWrite_cases sclk mosi sclk .high (afterData mosi bit w1 d1 s) with ⟨w2, d2, h2, e2⟩ | ⟨d, h⟩
  swap
  · refine .inr ⟨_, ?_, .rise w1 d1 d e1⟩
    rw [emitBitOn, h1]
    change (((gpioWrite sclk mosi sclk .high (afterData mosi bit w1 d1 s)).andThen _).andThen _).andThen _ = _
    rw [h]; rfl
  have h12 := rise_of_writes h1 h2
  rcases gpioWrite_cases sclk mosi sclk .low (afterRise sclk mosi bit (w1 ++ w2) d2 s) with ⟨w3, d3, h3, e3⟩ | ⟨d, h⟩
  · exact .inl ⟨w1 ++ w2 ++ w3, d3, emitBitOn_of_rise h12 h3, bitOnWire_of_edges e1 e2 e3⟩
  · refine .inr ⟨_, ?_, .fall w1 w2 d1 d2 d e1 e2⟩
    rw [emitBitOn, h12, Progress.going_andThen, h, Progress.aborted_andThen]

/-- R89: one bit with its three writes answered ok. -/
theorem emitBitOn_ok {sclk mosi : Pin} {bit : Bool} {s : State} {rest : List Bool}
    (h : s.draws.fail = false :: false :: false :: rest) :
    ∃ w d, emitBitOn sclk mosi bit s = .going
        { s with
          levels := bitLevels sclk mosi bit s
          trace := s.trace ++ bitEvents sclk mosi s.params.tHoldUs bit
          wire := s.wire ++ w
          draws := d } ∧ d.fail = rest ∧ BitOnWire sclk mosi bit s w := by
  obtain ⟨w1, d1, h1, f1, e1⟩ := gpioWrite_ok (clk := sclk) (dat := mosi) (p := mosi) (lvl := levelOfBit bit) h
  obtain ⟨w2, d2, h2, f2, e2⟩ := gpioWrite_ok (clk := sclk) (dat := mosi) (p := sclk) (lvl := .high)
    (s := afterData mosi bit w1 d1 s) f1
  obtain ⟨w3, d3, h3, f3, e3⟩ := gpioWrite_ok (clk := sclk) (dat := mosi) (p := sclk) (lvl := .low)
    (s := afterRise sclk mosi bit (w1 ++ w2) d2 s) f2
  exact ⟨w1 ++ w2 ++ w3, d3, emitBitOn_of_rise (rise_of_writes h1 h2) h3, f3, bitOnWire_of_edges e1 e2 e3⟩

theorem bitLevels_sclk (sclk mosi : Pin) (bit : Bool) (s : State) :
    (bitLevels sclk mosi bit s)[sclk.val] = some .low := by
  simp [bitLevels]

theorem bitLevels_mosi {sclk mosi : Pin} (bit : Bool) (s : State) (h : mosi ≠ sclk) :
    (bitLevels sclk mosi bit s)[mosi.val] = some (levelOfBit bit) := by
  have : sclk.val ≠ mosi.val := fun e => h (Fin.ext e.symm)
  simp [bitLevels, this]

theorem bitLevels_other {sclk mosi p : Pin} (bit : Bool) (s : State) (h : p ≠ sclk) (h' : p ≠ mosi) :
    (bitLevels sclk mosi bit s)[p.val] = s.level p := by
  have h1 : sclk.val ≠ p.val := fun e => h (Fin.ext e.symm)
  have h2 : mosi.val ≠ p.val := fun e => h' (Fin.ext e.symm)
  simp [bitLevels, State.level, h1, h2]

/-! ### The software engine -/

/-- The bits of the stream from `k` on, `m` of them. -/
def bitsFrom (buf : List Byte) (k m : Nat) : List Bool := (List.range' k m).map (bitAt buf)

theorem bitsFrom_zero (buf : List Byte) (nbits : Nat) : bitsFrom buf 0 nbits = bitsOf buf nbits := by
  simp [bitsFrom, bitsOf, List.range_eq_range']

theorem bitsFrom_succ (buf : List Byte) (k m : Nat) :
    bitsFrom buf k (m + 1) = bitAt buf k :: bitsFrom buf (k + 1) m := by
  simp [bitsFrom, List.range'_succ]

/-- The wire of bits sent from a LOW clock: one rising edge carrying each, one falling edge after it (R91). -/
def pulses (sclk : Pin) (bits : List Bool) : List WireEvent :=
  bits.flatMap fun b => [.rising sclk (some (levelOfBit b)), .falling sclk]

/-- The pin levels, trace and wire of `bits` sent with every call answered ok. -/
structure SwSent (sclk mosi : Pin) (bits : List Bool) (s t : State) : Prop where
  trace : t.trace = s.trace ++ swEvents sclk mosi s.params.tHoldUs bits
  clockLow : bits ≠ [] → t.level sclk = some .low
  dataLast : mosi ≠ sclk → ∀ bit, bits.getLast? = some bit → t.level mosi = some (levelOfBit bit)
  noBits : bits = [] → t.levels = s.levels
  otherPins : ∀ p, p ≠ sclk → p ≠ mosi → t.level p = s.level p
  wireLow : sclk ≠ mosi → s.level sclk = some .low → t.wire = s.wire ++ pulses sclk bits
  wireHigh : sclk ≠ mosi → s.level sclk = some .high → ∀ b rest, bits = b :: rest →
    t.wire = s.wire ++ [.falling sclk] ++ pulses sclk rest
  wireUnknown : sclk ≠ mosi → s.level sclk = none → ∀ b rest, bits = b :: rest →
    t.wire = s.wire ++ pulses sclk bits ∨ t.wire = s.wire ++ [.falling sclk] ++ pulses sclk rest
  modes : t.modes = s.modes
  spi : t.spi = s.spi

theorem SwSent.nil (sclk mosi : Pin) (s : State) : SwSent sclk mosi [] s s := by
  constructor <;> simp [swEvents, pulses]

/-- One bit, then the others. -/
theorem SwSent.cons {sclk mosi : Pin} {bit : Bool} {bits : List Bool} {s u t : State} {w : List WireEvent} {d : Draws}
    {e : Option Engine}
    (hu : u = { s with
      levels := bitLevels sclk mosi bit s
      trace := s.trace ++ bitEvents sclk mosi s.params.tHoldUs bit
      wire := s.wire ++ w
      draws := d
      engine := e }) (hw : BitOnWire sclk mosi bit s w) (h : SwSent sclk mosi bits u t) :
    SwSent sclk mosi (bit :: bits) s t := by
  have hlow : u.level sclk = some .low := by rw [hu]; exact bitLevels_sclk sclk mosi bit s
  constructor
  · rw [h.trace, hu]; simp [swEvents]
  · intro _
    rcases List.eq_nil_or_concat bits with rfl | ⟨_, _, hb⟩
    · rw [← hlow]; simp [State.level, h.noBits rfl]
    · exact h.clockLow (by rw [hb]; simp)
  · intro hne b hb
    cases bits with
    | nil =>
      simp only [List.getLast?_singleton, Option.some.injEq] at hb
      subst hb
      have : t.level mosi = u.level mosi := by simp [State.level, h.noBits rfl]
      rw [this, hu]; exact bitLevels_mosi bit s hne
    | cons b' rest => exact h.dataLast hne b (by simpa using hb)
  · intro hb; cases hb
  · intro p h1 h2
    rw [h.otherPins p h1 h2, hu]; exact bitLevels_other bit s h1 h2
  · intro hne hl
    rw [h.wireLow hne hlow, hu]
    simp [hw.fromLow hne hl, pulses]
  · rintro hne hl b rest hb
    obtain ⟨rfl, rfl⟩ := List.cons.inj hb
    rw [h.wireLow hne hlow, hu]
    simp [hw.fromHigh hne hl]
  · rintro hne hl b rest hb
    obtain ⟨rfl, rfl⟩ := List.cons.inj hb
    rw [h.wireLow hne hlow, hu]
    rcases hw.fromUnknown hne with hw | hw <;> simp [hw, pulses]
  · rw [h.modes, hu]
  · rw [h.spi, hu]

/-- R87: the bits from the cursor on, every call answered ok. -/
theorem swLoop_ok {sclk mosi : Pin} {buf : List Byte} {nbits : Nat} (m fuel k : Nat) (s : State)
    (he : s.engine = some { buf := buf, nbits := nbits, k := k }) (hk : k + m = nbits) (hfuel : m ≤ fuel)
    (hok : s.draws.okFor (3 * m)) :
    ∃ t, swLoop sclk mosi fuel s = .going t ∧ SwSent sclk mosi (bitsFrom buf k m) s t ∧
      t.draws.fail = s.draws.fail.drop (3 * m) ∧ t.engine = some { buf := buf, nbits := nbits, k := nbits } := by
  induction m generalizing fuel k s with
  | zero =>
    have hk' : k = nbits := by omega
    subst hk'
    refine ⟨s, ?_, by simpa [bitsFrom] using SwSent.nil sclk mosi s, by simp, he⟩
    cases fuel with
    | zero => rfl
    | succ fuel => simp [swLoop, he]
  | succ m ih =>
    cases fuel with
    | zero => omega
    | succ fuel =>
      obtain ⟨r1, h1, g1⟩ := Draws.okFor_succ (n := 3 * m + 2) hok
      obtain ⟨r2, h2, g2⟩ := Draws.okFor_succ (d := { s.draws with fail := r1 }) (n := 3 * m + 1) g1
      obtain ⟨r3, h3, g3⟩ := Draws.okFor_succ (d := { s.draws with fail := r2 }) (n := 3 * m) g2
      simp only at h2 h3
      subst h2 h3
      obtain ⟨w, d, hb, hd, hw⟩ := emitBitOn_ok (sclk := sclk) (mosi := mosi) (bit := bitAt buf k) h1
      obtain ⟨t, ht, hs, hdt, het⟩ := ih fuel (k + 1)
        (State.advance { s with
          levels := bitLevels sclk mosi (bitAt buf k) s
          trace := s.trace ++ bitEvents sclk mosi s.params.tHoldUs (bitAt buf k)
          wire := s.wire ++ w
          draws := d } 1) (by simp [he]) (by omega) (by omega) (by simpa [Draws.okFor, hd] using g3)
      refine ⟨t, ?_, ?_, ?_, het⟩
      · simp only [swLoop, he]
        have hlt : k < nbits := by omega
        rw [if_pos hlt, hb]
        exact ht
      · rw [bitsFrom_succ]
        exact SwSent.cons rfl hw hs
      · rw [hdt]
        have e3 : 3 * (m + 1) = 3 * m + 3 := by omega
        simp [hd, h1, e3]

/-- R87, R92: the software engine with every call answered ok. -/
theorem swEngine_ok {sclk mosi : Pin} {buf : List Byte} {nbits : Nat} {s : State} (hok : s.draws.okFor (3 * nbits)) :
    ∃ t, swEngine sclk mosi buf nbits s = .going t ∧ SwSent sclk mosi (bitsOf buf nbits) s t ∧
      t.draws.fail = s.draws.fail.drop (3 * nbits) ∧ t.engine = none := by
  obtain ⟨t, ht, hs, hd, -⟩ := swLoop_ok (sclk := sclk) (mosi := mosi) nbits nbits 0 (s.startEngine buf nbits) rfl
    (by omega) (le_refl _) hok
  refine ⟨t.stopEngine, by simp [swEngine, ht], ?_, hd, rfl⟩
  rw [bitsFrom_zero] at hs
  exact ⟨hs.trace, hs.clockLow, hs.dataLast, hs.noBits, hs.otherPins, hs.wireLow, hs.wireHigh, hs.wireUnknown, hs.modes,
    hs.spi⟩

/-! ### The hardware engine -/

/-- A chunk answered ok: its bits are on the wire, most significant first (R95). -/
theorem spiWrite_ok {ch : Channel} {bytes : List Byte} {s : State} {rest : List Bool}
    (h : s.draws.fail = false :: rest) :
    spiWrite ch bytes s = .going
      { s with
        trace := s.trace ++ [okEvent (.spiWrite ch bytes)]
        wire := s.wire ++ spiEvents ch s.params.spiMode (bitsOf bytes (8 * bytes.length))
        draws := { s.draws with fail := rest, index := s.draws.index + 1 } } := by
  unfold spiWrite
  rw [callCollaborator_ok h]
  rfl

theorem bitsOf_append (a b : List Byte) :
    bitsOf (a ++ b) (8 * (a ++ b).length) = bitsOf a (8 * a.length) ++ bitsOf b (8 * b.length) := by
  apply List.ext_getElem
  · simp [bitsOf]; omega
  · intro i h1 h2
    simp only [bitsOf, List.length_map, List.length_range] at h1
    by_cases hi : i < 8 * a.length
    · rw [List.getElem_append_left (by simpa [bitsOf] using hi)]
      have : i / 8 < a.length := by omega
      simp [bitsOf, bitAt, List.getD_eq_getElem?_getD, List.getElem?_append_left this]
    · rw [List.getElem_append_right (by simpa [bitsOf] using hi)]
      have h8 : a.length ≤ i / 8 := by omega
      have e1 : (i - 8 * a.length) / 8 = i / 8 - a.length := by omega
      have e2 : (i - 8 * a.length) % 8 = i % 8 := by omega
      simp [bitsOf, bitAt, List.getD_eq_getElem?_getD, List.getElem?_append_right h8, e1, e2]

/-- The trace and wire of whole bytes sent in chunks with every call answered ok. -/
structure HwSent (ch : Channel) (bytes : List Byte) (s t : State) : Prop where
  trace : ∃ chunks, IsSplit chunks bytes ∧ t.trace = s.trace ++ hwEvents ch chunks
  wire : t.wire = s.wire ++ spiEvents ch s.params.spiMode (bitsOf bytes (8 * bytes.length))
  levels : t.levels = s.levels
  modes : t.modes = s.modes
  spi : t.spi = s.spi

/-- R93: a chunk is at least one byte and at most those left. -/
theorem chunk_bounds (draw : Nat) {left : Nat} (h : 0 < left) :
    1 ≤ chunkSize draw left ∧ chunkSize draw left ≤ left := by
  have := Nat.mod_lt draw h
  simp only [chunkSize]
  omega

/-- R93: the first chunk and the bytes after it. -/
theorem take_chunk (buf : List Byte) (j : Nat) {size m : Nat} (h : size ≤ m) :
    (buf.drop j).take m = (buf.drop j).take size ++ (buf.drop (j + size)).take (m - size) := by
  have e : m = size + (m - size) := by omega
  conv_lhs => rw [e]
  rw [List.take_add, List.drop_drop]

/-- R93: the bytes from the cursor on, every call answered ok. -/
theorem hwLoop_ok {ch : Channel} {buf : List Byte} {total : Nat} (htotal : total ≤ buf.length) (fuel m j : Nat)
    (s : State) (he : s.engine = some { buf := buf, nbits := 8 * total, k := 8 * j }) (hj : j + m = total)
    (hfuel : m ≤ fuel) (hok : s.draws.okFor m) :
    ∃ t, hwLoop ch fuel s = .going t ∧ HwSent ch ((buf.drop j).take m) s t ∧
      ∃ used, used ≤ m ∧ t.draws.fail = s.draws.fail.drop used := by
  induction fuel generalizing m j s with
  | zero =>
    have hm : m = 0 := by omega
    subst hm
    exact ⟨s, rfl, ⟨⟨[], by simp [IsSplit], by simp [hwEvents]⟩, by simp [bitsOf, spiEvents], rfl, rfl, rfl⟩, 0,
      le_refl _, rfl⟩
  | succ fuel ih =>
    by_cases hm : m = 0
    · subst hm
      refine ⟨s, ?_, ⟨⟨[], by simp [IsSplit], by simp [hwEvents]⟩, by simp [bitsOf, spiEvents], rfl, rfl, rfl⟩, 0,
        le_refl _, rfl⟩
      have : ¬ 8 * j < 8 * total := by omega
      simp [hwLoop, he, this]
    · have hlt : 8 * j < 8 * total := by omega
      have ej : 8 * j / 8 = j := by omega
      have el : 8 * total / 8 - j = m := by omega
      obtain ⟨size, hsize, h1, h2⟩ : ∃ size, size = chunkSize s.draws.takeChunk.1 m ∧ 1 ≤ size ∧ size ≤ m := by
        exact ⟨_, rfl, chunk_bounds _ (Nat.pos_of_ne_zero hm)⟩
      have hstep : hwLoop ch (fuel + 1) s =
          (spiWrite ch ((buf.drop j).take size) { s with draws := s.draws.takeChunk.2 }).andThen fun s =>
            hwLoop ch fuel (s.advance (8 * size)) := by
        conv_lhs => unfold hwLoop
        simp only [he, if_pos hlt, ej, el, hsize]
      obtain ⟨rest, hf, hrest⟩ := Draws.okFor_succ (d := s.draws.takeChunk.2) (n := m - 1) (by
        have e : m - 1 + 1 = m := by omega
        simpa [Draws.okFor, e] using hok)
      rw [hstep, spiWrite_ok hf]
      simp only [Progress.going_andThen]
      have hle : size - 1 ≤ m - 1 := by omega
      obtain ⟨t, ht, hs, used, hu, hd⟩ := ih (m - size) (j + size)
        (State.advance { s with
          trace := s.trace ++ [okEvent (.spiWrite ch ((buf.drop j).take size))]
          wire := s.wire ++ spiEvents ch s.params.spiMode
            (bitsOf ((buf.drop j).take size) (8 * ((buf.drop j).take size).length))
          draws := { s.draws.takeChunk.2 with fail := rest, index := s.draws.takeChunk.2.index + 1 } } (8 * size))
        (by simp [he]; omega) (by omega) (by omega) (by
          have e : min (m - size) (m - 1) = m - size := by omega
          have := congrArg (List.take (m - size)) hrest
          simpa [Draws.okFor, List.take_take, e, List.take_replicate] using this)
      obtain ⟨chunks, ⟨hc1, hc2⟩, htr⟩ := hs.trace
      have hdata := take_chunk buf j h2
      refine ⟨t, ht, ⟨⟨((buf.drop j).take size) :: chunks, ⟨?_, ?_⟩, ?_⟩, ?_, hs.levels, hs.modes, hs.spi⟩, used + 1,
        by omega, ?_⟩
      · simp [hc1, hdata]
      · intro c hc
        rcases List.mem_cons.1 hc with rfl | hc
        · simp only [ne_eq, List.take_eq_nil_iff, List.drop_eq_nil_iff]
          omega
        · exact hc2 c hc
      · rw [htr]; simp [hwEvents]
      · rw [hs.wire, hdata, bitsOf_append]
        simp [spiEvents]
      · rw [hd, ← Draws.takeChunk_fail s.draws, hf]
        rfl

/-- R93, R95: the hardware engine with every call answered ok. -/
theorem hwEngine_ok {ch : Channel} {buf : List Byte} {nbits : Nat} {s : State} (hfit : nbits ≤ 8 * buf.length)
    (hwhole : nbits % 8 = 0) (hok : s.draws.okFor (nbits / 8)) :
    ∃ t, hwEngine ch buf nbits s = .going t ∧ HwSent ch (buf.take (nbits / 8)) s t ∧ t.engine = none ∧
      ∃ used, used ≤ nbits / 8 ∧ t.draws.fail = s.draws.fail.drop used := by
  have e : 8 * (nbits / 8) = nbits := by omega
  obtain ⟨t, ht, hs, hd⟩ := hwLoop_ok (ch := ch) (buf := buf) (total := nbits / 8) (by omega) (nbits / 8) (nbits / 8) 0
    (s.startEngine buf nbits) (by simp [e]) (by omega) (le_refl _) hok
  refine ⟨t.stopEngine, by simp [hwEngine, ht], ?_, rfl, hd⟩
  rw [List.drop_zero] at hs
  exact ⟨hs.trace, hs.wire, hs.levels, hs.modes, hs.spi⟩

end Sys2Proof.Machine
end

