-- ==== Sys2Proof/Laws/Modes.lean ====
section
/-! SUPPORT. The mode calls of `initSoftware` when every call is answered ok: some order of the pins, each once per role. -/

namespace Sys2Proof.Machine

/-- A mode call answered ok. -/
theorem gpioMode_ok {p : Pin} {s : State} {rest : List Bool} (h : s.draws.fail = false :: rest) :
    gpioMode p s = .going
      { s with
        modes := s.modes.set p.val .output
        levels := s.levels.set p.val none
        trace := s.trace ++ [okEvent (.gpioMode p)]
        draws := { s.draws with fail := rest, index := s.draws.index + 1 } } := by
  unfold gpioMode
  rw [callCollaborator_ok h]
  rfl

/-- What the mode calls of `pins` leave when every call is answered ok. -/
structure ModesSet (pins : List Pin) (s t : State) : Prop where
  trace : ∃ order : List Pin, order.Perm pins ∧ t.trace = s.trace ++ order.map fun p => okEvent (.gpioMode p)
  outputs : ∀ p ∈ pins, t.mode p = .output ∧ t.level p = none
  others : ∀ p, p ∉ pins → t.mode p = s.mode p ∧ t.level p = s.level p
  wire : t.wire = s.wire
  wasLow : t.draws.wasLow = s.draws.wasLow
  spi : t.spi = s.spi

theorem modeCalls_ok (pins : List Pin) (s : State) (hok : s.draws.okFor pins.length) :
    ∃ t, modeCalls pins.length pins s = .going t ∧ ModesSet pins s t ∧
      t.draws.fail = s.draws.fail.drop pins.length := by
  generalize hn : pins.length = n at hok
  induction n generalizing pins s with
  | zero =>
    have : pins = [] := List.length_eq_zero_iff.1 hn
    subst this
    exact ⟨s, rfl, ⟨⟨[], by simp, by simp⟩, by simp, by simp, rfl, rfl, rfl⟩, by simp⟩
  | succ n ih =>
    obtain ⟨i, hi, hlt⟩ : ∃ i, i = s.draws.takeOrder.1 % pins.length ∧ i < pins.length :=
      ⟨_, rfl, Nat.mod_lt _ (by omega)⟩
    obtain ⟨rest, hf, hrest⟩ := Draws.okFor_succ (d := s.draws.takeOrder.2) (n := n) (by simpa [Draws.okFor] using hok)
    have hfs : s.draws.fail = false :: rest := by rw [← hf]; exact (Draws.takeOrder_fail _).symm
    obtain ⟨t, ht, hm, hd⟩ := ih (pins.eraseIdx i)
      { s with
        modes := s.modes.set pins[i].val .output
        levels := s.levels.set pins[i].val none
        trace := s.trace ++ [okEvent (.gpioMode pins[i])]
        draws := { s.draws.takeOrder.2 with fail := rest, index := s.draws.takeOrder.2.index + 1 } }
      (by rw [List.length_eraseIdx_of_lt hlt]; omega) hrest
    have hstep : modeCalls (n + 1) pins s = .going t := by
      simp only [modeCalls, ← hi, List.getElem?_eq_getElem hlt]
      rw [gpioMode_ok (s := { s with draws := s.draws.takeOrder.2 }) hf]
      exact ht
    have hperm : (pins[i] :: pins.eraseIdx i).Perm pins := List.getElem_cons_eraseIdx_perm hlt
    have hset : ∀ p, p ≠ pins[i] → pins[i].val ≠ p.val := fun p h e => h (Fin.ext e.symm)
    obtain ⟨order, ho, htr⟩ := hm.trace
    refine ⟨t, hstep, ⟨⟨pins[i] :: order, (ho.cons _).trans hperm, ?_⟩, ?_, ?_, hm.wire,
      hm.wasLow.trans s.draws.takeOrder_wasLow, hm.spi⟩, ?_⟩
    · rw [htr]; simp
    · intro p hp
      by_cases hpe : p ∈ pins.eraseIdx i
      · exact hm.outputs p hpe
      · obtain ⟨h1, h2⟩ := hm.others p hpe
        have : p = pins[i] := by
          rcases List.mem_cons.1 (hperm.mem_iff.2 hp) with h | h
          · exact h
          · exact absurd h hpe
        subst this
        rw [h1, h2]
        simp [State.mode, State.level]
    · intro p hp
      have hne : p ≠ pins[i] := fun e => hp (e ▸ List.getElem_mem hlt)
      obtain ⟨h1, h2⟩ := hm.others p (fun h => hp (List.mem_of_mem_eraseIdx h))
      rw [h1, h2]
      simp [State.mode, State.level, hset p hne]
    · rw [hd, hfs]; simp

end Sys2Proof.Machine
end

