-- ==== Sys2Proof/Laws/Notation.lean ====
section
/-! SUPPORT. The program notation of R62: what is written is read back, piece by piece. -/

namespace Sys2Proof

/-! ### Characters to tokens -/

/-- A character of a word. -/
def PlainChar (c : Char) : Prop := isComment c = false ∧ isBlank c = false ∧ symbolOf c = none

/-- A word that is read back as one token. -/
def PlainWord (w : List Char) : Prop := w ≠ [] ∧ ∀ c ∈ w, PlainChar c

/-- Tokens whose words are plain and never stand side by side. -/
def Spaced : List Token → Prop
  | [] => True
  | .word w :: rest => PlainWord w ∧ (∀ w' r, rest ≠ .word w' :: r) ∧ Spaced rest
  | _ :: rest => Spaced rest

theorem lexFrom_plain (w cs rest : List Char) (h : ∀ c ∈ cs, PlainChar c) :
    lexFrom w (cs ++ rest) = lexFrom (w ++ cs) rest := by
  induction cs generalizing w with
  | nil => simp
  | cons c cs ih =>
    obtain ⟨h1, h2, h3⟩ := h c (by simp)
    have := ih (w ++ [c]) fun d hd => h d (by simp [hd])
    simp [lexFrom, h1, h2, h3, this]

/-- The symbols are read back. -/
theorem lexFrom_symbol (w : List Char) (t : Token) (rest : List Char) (h : ∀ w', t ≠ .word w') :
    lexFrom w (showToken t ++ rest) = closeWord w (t :: lexFrom [] rest) := by
  cases t with
  | word w' => exact absurd rfl (h w')
  | lpar => rfl
  | rpar => rfl
  | lbrk => rfl
  | rbrk => rfl
  | lbrace => rfl
  | rbrace => rfl
  | comma => rfl

theorem lex_showTokens (ts : List Token) (h : Spaced ts) : lex (showTokens ts) = ts := by
  unfold lex
  induction ts with
  | nil => rfl
  | cons t ts ih =>
    by_cases hw : ∃ w, t = .word w
    · obtain ⟨w, rfl⟩ := hw
      obtain ⟨⟨hne, hp⟩, hadj, hs⟩ := h
      have : showTokens (.word w :: ts) = w ++ showTokens ts := by simp [showTokens, showToken]
      rw [this, lexFrom_plain [] w _ hp, List.nil_append]
      cases ts with
      | nil => simp [showTokens, lexFrom, closeWord, hne]
      | cons u us =>
        have hu : ∀ w', u ≠ .word w' := fun w' e => hadj w' us (by rw [e])
        have e : showTokens (u :: us) = showToken u ++ showTokens us := by simp [showTokens]
        have ih' := ih hs
        rw [e, lexFrom_symbol [] u _ hu] at ih'
        rw [e, lexFrom_symbol w u _ hu]
        simp only [closeWord, if_pos, hne, if_false] at ih' ⊢
        rw [ih']
    · have hu : ∀ w', t ≠ .word w' := fun w' e => hw ⟨w', e⟩
      have hs : Spaced ts := by
        cases t with
        | word w => exact absurd rfl (hu w)
        | lpar => exact h
        | rpar => exact h
        | lbrk => exact h
        | rbrk => exact h
        | lbrace => exact h
        | rbrace => exact h
        | comma => exact h
      have e : showTokens (t :: ts) = showToken t ++ showTokens ts := by simp [showTokens]
      rw [e, lexFrom_symbol [] t _ hu, ih hs]
      rfl

/-! ### Numbers -/

theorem digitVal_digit (d : Nat) (h : d < 10) : digitVal (Char.ofNat (0x30 + d)) = some d := by
  interval_cases d <;> decide

theorem plainChar_digit (d : Nat) (h : d < 10) : PlainChar (Char.ofNat (0x30 + d)) := by
  interval_cases d <;> exact ⟨by decide, by decide, by decide⟩

theorem digit_ne (d : Nat) (h : d < 10) : Char.ofNat (0x30 + d) ≠ 'x' ∧ Char.ofNat (0x30 + d) ≠ '-' := by
  interval_cases d <;> decide

/-- The written digits are digits. -/
theorem digitsOf_mem (fuel n : Nat) : ∀ c ∈ digitsOf fuel n, ∃ d, d < 10 ∧ c = Char.ofNat (0x30 + d) := by
  induction fuel generalizing n with
  | zero => simp [digitsOf]
  | succ fuel ih =>
    intro c hc
    unfold digitsOf at hc
    split at hc
    · rename_i hn
      exact ⟨n, hn, by simpa using hc⟩
    · rcases List.mem_append.1 hc with hc | hc
      · exact ih _ c hc
      · exact ⟨n % 10, Nat.mod_lt _ (by omega), by simpa using hc⟩

theorem digitsOf_ne_nil (fuel n : Nat) : digitsOf (fuel + 1) n ≠ [] := by
  unfold digitsOf
  split <;> simp

theorem readDigits_append (base acc : Nat) (as bs : List Char) :
    readDigits base acc (as ++ bs) = (readDigits base acc as).bind fun v => readDigits base v bs := by
  induction as generalizing acc with
  | nil => rfl
  | cons c cs ih =>
    simp only [List.cons_append, readDigits]
    split
    · split
      · exact ih _
      · rfl
    · rfl

theorem readDigits_digitsOf (fuel n : Nat) (h : n < fuel) : readDigits 10 0 (digitsOf fuel n) = some n := by
  induction fuel generalizing n with
  | zero => omega
  | succ fuel ih =>
    unfold digitsOf
    split
    · rename_i hn
      simp [readDigits, digitVal_digit n hn, hn]
    · have hd : n % 10 < 10 := Nat.mod_lt _ (by omega)
      rw [readDigits_append, ih (n / 10) (by omega)]
      simp only [Option.bind_some, readDigits, digitVal_digit _ hd, if_pos hd, Option.some.injEq]
      omega

theorem showNat_mem (n : Nat) : ∀ c ∈ showNat n, ∃ d, d < 10 ∧ c = Char.ofNat (0x30 + d) := digitsOf_mem _ _

theorem readNat_showNat (n : Nat) : readNat (showNat n) = some n := by
  have hr : readDigits 10 0 (showNat n) = some n := readDigits_digitsOf (n + 1) n (by omega)
  have hm := showNat_mem n
  unfold readNat
  split
  · rename_i h
    exact absurd h (digitsOf_ne_nil n n)
  · rename_i ds h
    obtain ⟨d, hd, hx⟩ := hm 'x' (by rw [h]; simp)
    exact absurd hx.symm (digit_ne d hd).1
  · exact hr

theorem readInt_showInt (i : Int) : readInt (showInt i) = some i := by
  cases i with
  | ofNat n =>
    have hm := showNat_mem n
    simp only [showInt]
    unfold readInt
    split
    · rename_i ds h
      obtain ⟨d, hd, hx⟩ := hm '-' (by rw [h]; simp)
      exact absurd hx.symm (digit_ne d hd).2
    · simp [readNat_showNat]
  | negSucc n =>
    change (readNat (showNat (n + 1))).map Int.negOfNat = some (Int.negSucc n)
    rw [readNat_showNat]
    rfl

theorem plainWord_showNat (n : Nat) : PlainWord (showNat n) := by
  refine ⟨digitsOf_ne_nil n n, fun c hc => ?_⟩
  obtain ⟨d, hd, rfl⟩ := showNat_mem n c hc
  exact plainChar_digit d hd

theorem plainWord_showInt (i : Int) : PlainWord (showInt i) := by
  cases i with
  | ofNat n => exact plainWord_showNat n
  | negSucc n =>
    refine ⟨by simp [showInt], fun c hc => ?_⟩
    rcases List.mem_cons.1 hc with rfl | hc
    · exact ⟨by decide, by decide, by decide⟩
    · exact (plainWord_showNat (n + 1)).2 c hc

/-! ### Operands -/

theorem byteOf_byteInt (b : Byte) : byteOf (byteInt b) = .ok b := by
  have := b.isLt
  have h : 0 ≤ (b.toNat : Int) ∧ (b.toNat : Int) < 256 := ⟨by omega, by omega⟩
  simp [byteOf, byteInt, h.2]

theorem brightnessOf_byteInt (b : BitVec 5) : brightnessOf (byteInt b) = .ok b := by
  have := b.isLt
  have h : 0 ≤ (b.toNat : Int) ∧ (b.toNat : Int) < 32 := ⟨by omega, by omega⟩
  simp [brightnessOf, byteInt, h.2]

theorem bytesOf_map (bs : List Byte) : bytesOf (bs.map byteInt) = .ok bs := by
  induction bs with
  | nil => rfl
  | cons b bs ih => simp [bytesOf, byteOf_byteInt, ih]

/-- A token that ends a list of integers. -/
def Ends (ts : List Token) : Prop := ∀ t r, ts = t :: r → t ≠ .comma ∧ ∀ w, t ≠ .word w

theorem readInts_intsTokens (is : List Int) (rest : List Token) (h : Ends rest) :
    readInts (intsTokens is ++ rest) = some (is, rest) := by
  induction is with
  | nil =>
    simp only [intsTokens, List.nil_append]
    cases rest with
    | nil => rfl
    | cons t r =>
      have hw := (h t r rfl).2
      cases t with
      | word w => exact absurd rfl (hw w)
      | lpar => rfl
      | rpar => rfl
      | lbrk => rfl
      | rbrk => rfl
      | lbrace => rfl
      | rbrace => rfl
      | comma => rfl
  | cons i is ih =>
    cases is with
    | nil =>
      simp only [intsTokens, intWord, List.cons_append, List.nil_append]
      cases rest with
      | nil => simp [readInts, readInt_showInt]
      | cons t r =>
        have hc := (h t r rfl).1
        cases t with
        | comma => exact absurd rfl hc
        | word w => simp [readInts, readInt_showInt]
        | lpar => simp [readInts, readInt_showInt]
        | rpar => simp [readInts, readInt_showInt]
        | lbrk => simp [readInts, readInt_showInt]
        | rbrk => simp [readInts, readInt_showInt]
        | lbrace => simp [readInts, readInt_showInt]
        | rbrace => simp [readInts, readInt_showInt]
    | cons j js => simp [intsTokens, intWord, readInts, readInt_showInt] at ih ⊢; simp [ih]

theorem closedInts_intsTokens (is : List Int) : closedInts (intsTokens is ++ [.rpar]) = some is := by
  rw [closedInts, readInts_intsTokens is [.rpar] (by intro t r h; cases h; simp)]

theorem fourInts_show (a b c d : Int) :
    fourInts (showInt a) (showInt b) (showInt c) (showInt d) = .ok [a, b, c, d] := by
  simp [fourInts, readInt_showInt]

theorem readFrame_frameTokens (f : FrameArg) (rest : List Token) : readFrame (frameTokens f ++ rest) = .ok (f, rest) := by
  cases f with
  | tuple br b g r =>
    simp [frameTokens, intsTokens, intWord, readFrame, fourInts_show, tupleOf, brightnessOf_byteInt, byteOf_byteInt]
  | made r g b br =>
    simp [frameTokens, callTokens, intsTokens, intWord, readFrame, fourInts_show, madeOf, byteOf_byteInt]

theorem readFrames_framesTokens (fs : List FrameArg) (hne : fs ≠ []) (fuel : Nat) (h : fs.length ≤ fuel) :
    readFrames fuel (framesTokens fs ++ [.rbrk, .rpar]) = .ok fs := by
  induction fs generalizing fuel with
  | nil => exact absurd rfl hne
  | cons f fs ih =>
    cases fuel with
    | zero => simp at h
    | succ fuel =>
      cases fs with
      | nil => simp [framesTokens, readFrames, readFrame_frameTokens]
      | cons g gs =>
        have hrest := ih (by simp) fuel (by simpa using h)
        have e : framesTokens (f :: g :: gs) ++ [.rbrk, .rpar] =
            frameTokens f ++ .comma :: (framesTokens (g :: gs) ++ [.rbrk, .rpar]) := by simp [framesTokens]
        rw [e, readFrames, readFrame_frameTokens]
        dsimp only
        rw [hrest]

/-! ### The tokens the encoder writes are spaced -/

theorem spaced_append {as bs : List Token} (ha : Spaced as) (hb : Spaced bs) (h : ∀ w r, bs ≠ .word w :: r) :
    Spaced (as ++ bs) := by
  induction as with
  | nil => exact hb
  | cons t ts ih =>
    cases t with
    | word w =>
      obtain ⟨h1, h2, h3⟩ := ha
      refine ⟨h1, ?_, ih h3⟩
      intro w' r e
      cases ts with
      | nil => exact h w' r e
      | cons u us =>
        exact h2 w' us (by rw [(List.cons.inj e).1])
    | lpar => exact ih ha
    | rpar => exact ih ha
    | lbrk => exact ih ha
    | rbrk => exact ih ha
    | lbrace => exact ih ha
    | rbrace => exact ih ha
    | comma => exact ih ha

theorem spaced_intsTokens (is : List Int) : Spaced (intsTokens is) := by
  induction is with
  | nil => trivial
  | cons i is ih =>
    cases is with
    | nil => exact ⟨plainWord_showInt i, by simp, trivial⟩
    | cons j js => exact ⟨plainWord_showInt i, by simp, ih⟩

theorem spaced_callTokens (name : List Char) (is : List Int) (h : PlainWord name) : Spaced (callTokens name is) :=
  ⟨h, by simp, spaced_append (spaced_intsTokens is) (bs := [.rpar]) trivial (by simp)⟩

theorem plainWord_makeFrame : PlainWord Name.makeFrame :=
  ⟨by decide, by intro c hc; simp only [Name.makeFrame, List.mem_cons, List.not_mem_nil, or_false] at hc
                 rcases hc with rfl | rfl | rfl | rfl | rfl | rfl | rfl | rfl | rfl <;>
                   exact ⟨by decide, by decide, by decide⟩⟩

theorem spaced_frameTokens (f : FrameArg) : Spaced (frameTokens f) := by
  cases f with
  | tuple br b g r => exact spaced_append (spaced_intsTokens _) (bs := [.rbrace]) trivial (by simp)
  | made r g b br => exact spaced_callTokens _ _ plainWord_makeFrame

theorem spaced_framesTokens (fs : List FrameArg) : Spaced (framesTokens fs) := by
  induction fs with
  | nil => trivial
  | cons f fs ih =>
    cases fs with
    | nil => exact spaced_frameTokens f
    | cons g gs => exact spaced_append (spaced_frameTokens f) (bs := .comma :: framesTokens (g :: gs)) ih (by simp)

theorem spaced_bufferTokens (name : List Char) (buf : List Byte) (nbits : Nat) (h : PlainWord name) :
    Spaced (bufferTokens name buf nbits) :=
  ⟨h, by simp, spaced_append (spaced_intsTokens _) (bs := [.rbrk, .comma, intWord nbits, .rpar])
    ⟨plainWord_showInt _, by simp, trivial⟩ (by simp)⟩

end Sys2Proof
end

