-- ==== Sys2Proof/Laws/Outcome.lean ====
section
/-! SUPPORT. What the engines come to, whatever the answers of their calls: everything is sent, or a prefix of it up to
the first failed call. -/

namespace Sys2Proof.Machine

/-! ### The software engine -/

/-- R44, R100, R101: the software engine stopped inside `bits`: its calls are a prefix of the events, the last one failed
and its pin's level unknown. -/
structure SwStopped (sclk mosi : Pin) (bits : List Bool) (s u : State) : Prop where
  trace : ∃ before p lvl, before ++ [okEvent (.gpioWrite p lvl)] <+: swEvents sclk mosi s.params.tHoldUs bits ∧
    u.trace = s.trace ++ before ++ [failedEvent (.gpioWrite p lvl)] ∧ u.level p = none
  modes : u.modes = s.modes
  spi : u.spi = s.spi

theorem swLoop_cases {sclk mosi : Pin} {buf : List Byte} {nbits : Nat} (m fuel k : Nat) (s : State)
    (he : s.engine = some { buf := buf, nbits := nbits, k := k }) (hk : k + m = nbits) (hfuel : m ≤ fuel) :
    (∃ t, swLoop sclk mosi fuel s = .going t ∧ SwSent sclk mosi (bitsFrom buf k m) s t) ∨
    ∃ u, swLoop sclk mosi fuel s = .aborted u ∧ SwStopped sclk mosi (bitsFrom buf k m) s u := by
  induction m generalizing fuel k s with
  | zero =>
    have hk' : k = nbits := by omega
    subst hk'
    refine .inl ⟨s, ?_, by simpa [bitsFrom] using SwSent.nil sclk mosi s⟩
    cases fuel with
    | zero => rfl
    | succ fuel => simp [swLoop, he]
  | succ m ih =>
    cases fuel with
    | zero => omega
    | succ fuel =>
      have hlt : k < nbits := by omega
      rw [bitsFrom_succ]
      rcases emitBitOn_cases sclk mosi (bitAt buf k) s with ⟨w, d, hb, hw⟩ | ⟨u, hb, hstop⟩
      · have hstep : swLoop sclk mosi (fuel + 1) s = swLoop sclk mosi fuel (State.advance { s with
            levels := bitLevels sclk mosi (bitAt buf k) s
            trace := s.trace ++ bitEvents sclk mosi s.params.tHoldUs (bitAt buf k)
            wire := s.wire ++ w
            draws := d } 1) := by
          conv_lhs => unfold swLoop
          simp only [he, if_pos hlt, hb, Progress.going_andThen]
        rw [hstep]
        rcases ih fuel (k + 1) (State.advance { s with
            levels := bitLevels sclk mosi (bitAt buf k) s
            trace := s.trace ++ bitEvents sclk mosi s.params.tHoldUs (bitAt buf k)
            wire := s.wire ++ w
            draws := d } 1) (by simp [he]) (by omega) (by omega) with ⟨t, ht, hsent⟩ | ⟨u, hu, hstop⟩
        · exact .inl ⟨t, ht, SwSent.cons rfl hw hsent⟩
        · refine .inr ⟨u, hu, ?_, hstop.modes, hstop.spi⟩
          obtain ⟨before, p, lvl, ⟨rest, hrest⟩, htr, hl⟩ := hstop.trace
          refine ⟨bitEvents sclk mosi s.params.tHoldUs (bitAt buf k) ++ before, p, lvl, ⟨rest, ?_⟩, ?_, hl⟩
          · simp only [State.advance_params] at hrest
            simp only [swEvents, List.flatMap_cons, List.append_assoc] at hrest ⊢
            rw [hrest]
          · rw [htr]; simp
      · obtain ⟨before, p, lvl, hpre, htr⟩ := hstop.trace
        refine .inr ⟨u, ?_, ⟨before, p, lvl, ?_, htr⟩, hstop.modes, hstop.spi⟩
        · simp only [swLoop, he]
          rw [if_pos hlt, hb]
          rfl
        · exact hpre.trans ⟨swEvents sclk mosi s.params.tHoldUs (bitsFrom buf (k + 1) m), by simp [swEvents]⟩

/-- R87, R101: the software engine sends all the bits, or stops at its first failed write. -/
theorem swEngine_cases (sclk mosi : Pin) (buf : List Byte) (nbits : Nat) (s : State) :
    (∃ t, swEngine sclk mosi buf nbits s = .going t ∧ SwSent sclk mosi (bitsOf buf nbits) s t) ∨
    ∃ u, swEngine sclk mosi buf nbits s = .aborted u ∧ SwStopped sclk mosi (bitsOf buf nbits) s u := by
  rw [← bitsFrom_zero]
  rcases swLoop_cases (sclk := sclk) (mosi := mosi) nbits nbits 0 (s.startEngine buf nbits) rfl (by omega) (le_refl _)
    with ⟨t, ht, h⟩ | ⟨u, hu, h⟩
  · exact .inl ⟨t.stopEngine, by simp [swEngine, ht], h.trace, h.clockLow, h.dataLast, h.noBits, h.otherPins, h.wireLow,
      h.wireHigh, h.wireUnknown, h.modes, h.spi⟩
  · exact .inr ⟨u.stopEngine, by simp [swEngine, hu], h.trace, h.modes, h.spi⟩

/-! ### The hardware engine -/

/-- R44, R100, R101: the hardware engine stopped inside `bytes`: some whole chunks, then a failed one of which some
prefix is on the wire. -/
structure HwStopped (ch : Channel) (bytes : List Byte) (s u : State) : Prop where
  split : ∃ chunks c n, chunks.flatten ++ c <+: bytes ∧ (∀ d ∈ chunks, d ≠ []) ∧ c ≠ [] ∧
    u.trace = s.trace ++ hwEvents ch chunks ++ [failedEvent (.spiWrite ch c)] ∧ n ≤ 8 * c.length ∧
    u.wire = s.wire ++
      spiEvents ch s.params.spiMode (bitsOf chunks.flatten (8 * chunks.flatten.length) ++ bitsOf c n)
  levels : u.levels = s.levels
  modes : u.modes = s.modes
  spi : u.spi = s.spi

/-- A chunk, whatever the answer. -/
theorem spiWrite_cases (ch : Channel) (bytes : List Byte) (s : State) :
    (∃ d, spiWrite ch bytes s = .going
      { s with
        trace := s.trace ++ [okEvent (.spiWrite ch bytes)]
        wire := s.wire ++ spiEvents ch s.params.spiMode (bitsOf bytes (8 * bytes.length))
        draws := d }) ∨
    ∃ n d, n ≤ 8 * bytes.length ∧ spiWrite ch bytes s = .aborted
      { s with
        trace := s.trace ++ [failedEvent (.spiWrite ch bytes)]
        wire := s.wire ++ spiEvents ch s.params.spiMode (bitsOf bytes n)
        draws := d } := by
  unfold spiWrite
  rcases callCollaborator_cases (.spiWrite ch bytes)
    (fun s => s.onWire (spiEvents ch s.params.spiMode (bitsOf bytes (8 * bytes.length)))) (spiPrefix ch bytes) s
    with ⟨-, h⟩ | ⟨-, h⟩
  · exact .inl ⟨_, h⟩
  · refine .inr ⟨_, _, ?_, h⟩
    exact Nat.lt_succ_iff.1 (Nat.mod_lt _ (Nat.succ_pos _))

theorem hwLoop_cases {ch : Channel} {buf : List Byte} {total : Nat} (htotal : total ≤ buf.length) (fuel m j : Nat)
    (s : State) (he : s.engine = some { buf := buf, nbits := 8 * total, k := 8 * j }) (hj : j + m = total)
    (hfuel : m ≤ fuel) :
    (∃ t, hwLoop ch fuel s = .going t ∧ HwSent ch ((buf.drop j).take m) s t) ∨
    ∃ u, hwLoop ch fuel s = .aborted u ∧ HwStopped ch ((buf.drop j).take m) s u := by
  induction fuel generalizing m j s with
  | zero =>
    have hm : m = 0 := by omega
    subst hm
    exact .inl ⟨s, rfl, ⟨⟨[], by simp [IsSplit], by simp [hwEvents]⟩, by simp [bitsOf, spiEvents], rfl, rfl, rfl⟩⟩
  | succ fuel ih =>
    by_cases hm : m = 0
    · subst hm
      refine .inl ⟨s, ?_, ⟨⟨[], by simp [IsSplit], by simp [hwEvents]⟩, by simp [bitsOf, spiEvents], rfl, rfl, rfl⟩⟩
      have : ¬ 8 * j < 8 * total := by omega
      simp [hwLoop, he, this]
    · have hlt : 8 * j < 8 * total := by omega
      have ej : 8 * j / 8 = j := by omega
      have el : 8 * total / 8 - j = m := by omega
      obtain ⟨h1, h2⟩ := chunk_bounds s.draws.takeChunk.1 (Nat.pos_of_ne_zero hm)
      have hstep : hwLoop ch (fuel + 1) s =
          (spiWrite ch ((buf.drop j).take (chunkSize s.draws.takeChunk.1 m))
            { s with draws := s.draws.takeChunk.2 }).andThen fun u =>
              hwLoop ch fuel (u.advance (8 * chunkSize s.draws.takeChunk.1 m)) := by
        conv_lhs => unfold hwLoop
        simp only [he, if_pos hlt, ej, el]
      revert hstep h1 h2
      generalize chunkSize s.draws.takeChunk.1 m = size
      intro h1 h2 hstep
      have hne : (buf.drop j).take size ≠ [] := by
        simp only [ne_eq, List.take_eq_nil_iff, List.drop_eq_nil_iff]
        omega
      rw [hstep]
      rcases spiWrite_cases ch ((buf.drop j).take size) { s with draws := s.draws.takeChunk.2 }
        with ⟨d, hw⟩ | ⟨n, d, hn, hw⟩
      · rw [hw, Progress.going_andThen]
        rcases ih (m - size) (j + size) (State.advance { s with
            trace := s.trace ++ [okEvent (.spiWrite ch ((buf.drop j).take size))]
            wire := s.wire ++ spiEvents ch s.params.spiMode
              (bitsOf ((buf.drop j).take size) (8 * ((buf.drop j).take size).length))
            draws := d } (8 * size)) (by simp [he]; omega) (by omega) (by omega) with ⟨t, ht, hs⟩ | ⟨u, hu, hs⟩
        · obtain ⟨chunks, ⟨hc1, hc2⟩, htr⟩ := hs.trace
          refine .inl ⟨t, ht, ⟨⟨((buf.drop j).take size) :: chunks, ⟨?_, ?_⟩, ?_⟩, ?_, hs.levels, hs.modes, hs.spi⟩⟩
          · rw [List.flatten_cons, hc1, ← take_chunk buf j h2]
          · exact List.forall_mem_cons.2 ⟨hne, hc2⟩
          · rw [htr]; simp [hwEvents]
          · rw [hs.wire, take_chunk buf j h2, bitsOf_append]
            simp [spiEvents]
        · obtain ⟨chunks, c, n, ⟨rest, hrest⟩, hc, hcne, htr, hn, hwire⟩ := hs.split
          refine .inr ⟨u, hu, ⟨((buf.drop j).take size) :: chunks, c, n, ⟨rest, ?_⟩, ?_, hcne, ?_, hn, ?_⟩, hs.levels,
            hs.modes, hs.spi⟩
          · rw [take_chunk buf j h2, ← hrest]; simp
          · exact List.forall_mem_cons.2 ⟨hne, hc⟩
          · rw [htr]; simp [hwEvents]
          · rw [hwire, List.flatten_cons, bitsOf_append]
            simp [spiEvents]
      · rw [hw, Progress.aborted_andThen]
        refine .inr ⟨_, rfl, ⟨[], (buf.drop j).take size, n, ?_, by simp, hne, by simp [hwEvents], hn,
          by simp [bitsOf]⟩, rfl, rfl, rfl⟩
        rw [take_chunk buf j h2]
        exact List.prefix_append _ _

/-- R93, R101: the hardware engine sends all the bytes, or stops at its first failed chunk. -/
theorem hwEngine_cases {ch : Channel} {buf : List Byte} {nbits : Nat} (s : State) (hfit : nbits ≤ 8 * buf.length)
    (hwhole : nbits % 8 = 0) :
    (∃ t, hwEngine ch buf nbits s = .going t ∧ HwSent ch (buf.take (nbits / 8)) s t) ∨
    ∃ u, hwEngine ch buf nbits s = .aborted u ∧ HwStopped ch (buf.take (nbits / 8)) s u := by
  have e : 8 * (nbits / 8) = nbits := by omega
  have h := hwLoop_cases (ch := ch) (buf := buf) (total := nbits / 8) (by omega) (nbits / 8) (nbits / 8) 0
    (s.startEngine buf nbits) (by simp [e]) (by omega) (le_refl _)
  rw [List.drop_zero] at h
  rcases h with ⟨t, ht, h⟩ | ⟨u, hu, h⟩
  · exact .inl ⟨t.stopEngine, by simp [hwEngine, ht], h.trace, h.wire, h.levels, h.modes, h.spi⟩
  · exact .inr ⟨u.stopEngine, by simp [hwEngine, hu], h.split, h.levels, h.modes, h.spi⟩

end Sys2Proof.Machine
end

