-- ==== Sys2Proof/Laws/PerInstr.lean ====
section
/-! SUPPORT. A fact about every instruction as syntax, one lemma per constructor. -/

namespace Sys2Proof.Laws.WrittenForm

/-- The width the opcode table gives a wire format; the operations have none (N2). -/
def tableWidth : Instr → Option Nat
  | .fStart => some 32
  | .fLed _ _ _ _ => some 32
  | .fEnd => some 8
  | .makeFrame _ _ _ _ => none
  | .initHardware _ => none
  | .initSoftware _ _ _ => none
  | .update _ => none
  | .writeBits _ _ => none
  | .swWriteBits _ _ => none
  | .emitBit _ => none
  | .hwWriteBits _ _ => none

/-- A wire format is written as bytes of its table width (R51), an operation as a line (R62). -/
def Statement (i : Instr) : Prop :=
  match encode i, tableWidth i with
  | .wire bytes, some w => 8 * bytes.length = w
  | .line text, none => text ≠ []
  | _, _ => False

theorem fStart : Statement .fStart := rfl

theorem fLed (br : BitVec 5) (b g r : Byte) : Statement (.fLed br b g r) := rfl

theorem fEnd : Statement .fEnd := rfl

theorem makeFrame (r g b br : Byte) : Statement (.makeFrame r g b br) := List.cons_ne_nil _ _

theorem initHardware (c : Int) : Statement (.initHardware c) := List.cons_ne_nil _ _

theorem initSoftware (a b c : Int) : Statement (.initSoftware a b c) := List.cons_ne_nil _ _

theorem update (frames : Option (List FrameArg)) : Statement (.update frames) := by
  cases frames <;> exact List.cons_ne_nil _ _

theorem writeBits (buf : List Byte) (nbits : Nat) : Statement (.writeBits buf nbits) := List.cons_ne_nil _ _

theorem swWriteBits (buf : List Byte) (nbits : Nat) : Statement (.swWriteBits buf nbits) := List.cons_ne_nil _ _

theorem emitBit (bit : Bool) : Statement (.emitBit bit) := List.cons_ne_nil _ _

theorem hwWriteBits (buf : List Byte) (nbits : Nat) : Statement (.hwWriteBits buf nbits) := List.cons_ne_nil _ _

end Sys2Proof.Laws.WrittenForm
end

