-- ==== Sys2Proof/Laws/Wire.lean ====
section
/-! SUPPORT. Words and bytes of the wire formats, and what each row of the table admits. -/

namespace Sys2Proof

theorem WireRow.admits_iff (r : WireRow) (w : Word) : r.admits w = true ↔ w &&& r.mask = r.pattern := beq_iff_eq

theorem bytesWord_wordBytes (w : Word) :
    bytesWord (w.extractLsb' 24 8) (w.extractLsb' 16 8) (w.extractLsb' 8 8) (w.extractLsb' 0 8) = w := by
  apply BitVec.eq_of_getLsbD_eq
  intro i hi
  simp only [bytesWord, BitVec.getLsbD_append, BitVec.getLsbD_extractLsb']
  interval_cases i <;> simp

theorem wordBytes_bytesWord (a b c d : Byte) : wordBytes (bytesWord a b c d) = [a, b, c, d] := by
  simp only [wordBytes, bytesWord, List.cons.injEq, and_true]
  refine ⟨?_, ?_, ?_, ?_⟩ <;>
    (apply BitVec.eq_of_getLsbD_eq
     intro i hi
     simp only [BitVec.getLsbD_append, BitVec.getLsbD_extractLsb']
     interval_cases i <;> simp)

/-- F_START admits the zero word alone (R52). -/
theorem startRow_admits (w : Word) : startRow.admits w = true ↔ w = startWord := by
  have h : w &&& 0xFFFFFFFF#32 = w := by
    apply BitVec.eq_of_getLsbD_eq
    intro i hi
    rw [BitVec.getLsbD_and]
    interval_cases i <;> simp
  rw [WireRow.admits_iff]
  simp only [startRow, startWord, h]

/-- F_LED admits the words whose bits 31:29 are 0b111 (R53). -/
theorem ledRow_admits (w : Word) : ledRow.admits w = true ↔ w.extractLsb' 29 3 = 0b111#3 := by
  rw [WireRow.admits_iff]
  simp only [ledRow]
  constructor
  · intro h
    apply BitVec.eq_of_getLsbD_eq
    intro i hi
    have hb := congrArg (fun v => v.getLsbD (29 + i)) h
    simp only [BitVec.getLsbD_and] at hb
    simp only [BitVec.getLsbD_extractLsb']
    interval_cases i <;> simp at hb ⊢ <;> simp [hb]
  · intro h
    apply BitVec.eq_of_getLsbD_eq
    intro i hi
    have hb := fun j => congrArg (fun v => v.getLsbD j) h
    have h0 := hb 0
    have h1 := hb 1
    have h2 := hb 2
    simp only [BitVec.getLsbD_extractLsb'] at h0 h1 h2
    rw [BitVec.getLsbD_and]
    interval_cases i <;> simp at h0 h1 h2 ⊢ <;> simp [h0, h1, h2]

theorem wordFrame_ledWord (f : LedFrame) : wordFrame (ledWord f) = f := by
  obtain ⟨br, b, g, r⟩ := f
  simp only [wordFrame, LedFrame.mk.injEq]
  refine ⟨?_, ?_, ?_, ?_⟩ <;>
    (apply BitVec.eq_of_getLsbD_eq
     intro i hi
     simp only [ledWord, BitVec.getLsbD_append, BitVec.getLsbD_extractLsb']
     interval_cases i <;> simp)

theorem ledWord_wordFrame (w : Word) (h : w.extractLsb' 29 3 = 0b111#3) : ledWord (wordFrame w) = w := by
  have hw : w.extractLsb' 29 3 ++ w.extractLsb' 24 5 ++ w.extractLsb' 16 8 ++ w.extractLsb' 8 8 ++ w.extractLsb' 0 8 = w := by
    apply BitVec.eq_of_getLsbD_eq
    intro i hi
    simp only [BitVec.getLsbD_append, BitVec.getLsbD_extractLsb']
    interval_cases i <;> simp
  rw [h] at hw
  exact hw

theorem ledWord_prefix (f : LedFrame) : (ledWord f).extractLsb' 29 3 = 0b111#3 := by
  apply BitVec.eq_of_getLsbD_eq
  intro i hi
  simp only [ledWord, BitVec.getLsbD_append, BitVec.getLsbD_extractLsb']
  interval_cases i <;> simp

end Sys2Proof
end

