-- ==== Sys2Proof/Tests/Slice0.lean ====
section
/-! SUPPORT. Tests: ill-formed terms, decoding from forms written out from the spec, one-step tests whose expected
results are those of spec/95_test_vectors.md, and a witness for the hypotheses of each statement. -/

open Sys2Proof Sys2Proof.Machine

namespace Sys2Proof.Tests

/-! ### Small states -/

/-- The state a step answers. -/
def after (o : Host.Outcome State Fault Refusal) : Option State :=
  match o with
  | .next s => some s
  | .fault _ => none
  | .refused _ => none

/-- The reason a step is refused. -/
def refusal (o : Host.Outcome State Fault Refusal) : Option Refusal :=
  match o with
  | .next _ => none
  | .fault _ => none
  | .refused r => some r

/-- An unconfigured instance after the GPIO setup, T_HOLD_US = 5, the FAIL draws as given. -/
def ready (fails : List Bool) : State :=
  { State.reset with
    gpioReady := true
    params := { nMax := none, tHoldUs := 5, spiMode := { cpol := false, cpha := false } }
    draws := { fail := fails, chunk := [3, 3, 0], order := [0, 0, 0], wasLow := [true], spiBits := [9], index := 0 } }

/-- On pins sclk 11, mosi 10, cs 8, the clock at `clock`. -/
def onSoftware (clock : PinLevel) (fails : List Bool) : State :=
  { ready fails with
    inst := .configured (.software 11 10 (some 8))
    levels := (ready fails).levels.set 11 clock }

/-- On channel 0. -/
def onHardware (fails : List Bool) : State := { ready fails with inst := .configured (.hardware 0) }

/-- While a bit writer runs. -/
def busy : State := { onHardware [] with engine := some { buf := [0xFF], nbits := 8, k := 0 } }

/-- With at most `n` LEDs. -/
def atMost (n : Nat) (s : State) : State := { s with params := { s.params with nMax := some n } }

/-- After a part of a stream issued emission by emission. -/
def begun (e : Emission) (s : State) : State := { s with emission := some e }

/-- A green LED and its only frame. -/
def oneFrame : List FrameArg := [.tuple 31 0 0 0xFF]

/-- `n` calls answered ok. -/
def oks (n : Nat) : List Bool := List.replicate n false

theorem okFor_of_oks {d : Draws} {m n : Nat} (h : d.fail = oks m) (hn : n ≤ m) : d.okFor n := by
  simp [Draws.okFor, h, oks, List.take_replicate, Nat.min_eq_left hn]

/-! ### Well-formedness (R86, R94) -/

theorem test_writeBits_count_beyond_buffer_illformed : (Instr.writeBits [0xFF] 9).wellFormed = false := by decide

theorem test_writeBits_count_beyond_buffer_refused :
    refusal (exec (.writeBits [0xFF] 9) (onSoftware none (oks 30))) = some .countBeyondBuffer := by decide

theorem test_swWriteBits_count_beyond_buffer_illformed : (Instr.swWriteBits [] 1).wellFormed = false := by decide

theorem test_swWriteBits_count_beyond_buffer_refused :
    refusal (exec (.swWriteBits [] 1) (onSoftware none (oks 30))) = some .countBeyondBuffer := by decide

theorem test_hwWriteBits_partial_byte_illformed : (Instr.hwWriteBits [0xC0] 2).wellFormed = false := by decide

theorem test_hwWriteBits_partial_byte_refused :
    refusal (exec (.hwWriteBits [0xC0] 2) (onHardware (oks 2))) = some .partialByte := by decide

theorem test_hwWriteBits_count_beyond_buffer_illformed : (Instr.hwWriteBits [0xC0] 16).wellFormed = false := by decide

theorem test_hwWriteBits_count_beyond_buffer_refused :
    refusal (exec (.hwWriteBits [0xC0] 16) (onHardware (oks 2))) = some .countBeyondBuffer := by decide

/-! ### Decoding: words and lines written out from 30_encoding.md -/

/-- R52. -/
theorem test_decode_fStart : decodeTableWord 32 0b00000000000000000000000000000000 = some .fStart := by decide

/-- R53, bits 111 11111 00011110 00010100 00001010 (S1: FF 1E 14 0A). -/
theorem test_decode_fLed :
    decodeTableWord 32 0b11111111000111100001010000001010 = some (.fLed 31 30 20 10) := by decide

/-- R41: the wire order of the same word. -/
theorem test_decode_fLed_bytes : decode (.wire [0xFF, 0x1E, 0x14, 0x0A]) = .ok (.fLed 31 30 20 10) := by decide

/-- R54. -/
theorem test_decode_fEnd : decodeTableWord 8 0b11111111 = some .fEnd := by decide

/-- R58. -/
theorem test_decode_reserved_word : decode (.wire [0x1F, 0x1E, 0x14, 0x0A]) = .error .reservedWord := by decide

/-- R58. -/
theorem test_decode_reserved_byte : decode (.wire [0xFE]) = .error .reservedByte := by decide

/-- R62, S1. -/
theorem test_decode_makeFrame :
    decode (.line "makeFrame(10, 20, 30, 31)".toList) = .ok (.makeFrame 10 20 30 31) := by decide

/-- R62: hexadecimal. -/
theorem test_decode_makeFrame_hex :
    decode (.line "makeFrame(1, 64, 128, 0x55)".toList) = .ok (.makeFrame 1 64 128 85) := by decide

/-- D12, U15. -/
theorem test_decode_makeFrame_out_of_range :
    decode (.line "makeFrame(256, 0, 0, 0)".toList) = .error .operandRange := by decide

/-- R57: an illegal channel reaches validation. -/
theorem test_decode_initHardware : decode (.line "initHardware(2)".toList) = .ok (.initHardware 2) := by decide

/-- Program P1: a comment ends the line. -/
theorem test_decode_initSoftware :
    decode (.line "initSoftware(11, 10, -1)             ; sclk = 11, mosi = 10, no cs".toList) =
      .ok (.initSoftware 11 10 (-1)) := by decide

/-- Program P1. -/
theorem test_decode_update_made :
    decode (.line "update([makeFrame(255, 0, 0, 31)])".toList) = .ok (.update (some [.made 255 0 0 31])) := by decide

/-- Program P3; the braces are written by their codes. -/
theorem test_decode_update_tuple :
    decode (.line ("update([".toList ++ [Char.ofNat 0x7B] ++ "31, 0, 0, 0xFF".toList ++ [Char.ofNat 0x7D] ++
      "])".toList)) = .ok (.update (some [.tuple 31 0 0 255])) := by decide

/-- R77: the empty list is a call; its refusal is validation's. -/
theorem test_decode_update_empty : decode (.line "update([])".toList) = .ok (.update (some [])) := by decide

/-- Log 2: the word for an absent list. -/
theorem test_decode_update_absent : decode (.line "update(null)".toList) = .ok (.update none) := by decide

/-- Section 2.6. -/
theorem test_decode_writeBits : decode (.line "writeBits([0x80, 0xFF], 9)".toList) = .ok (.writeBits [128, 255] 9) := by
  decide

theorem test_decode_swWriteBits : decode (.line "swWriteBits([0xA5], 8)".toList) = .ok (.swWriteBits [165] 8) := by
  decide

theorem test_decode_hwWriteBits : decode (.line "hwWriteBits([], 0)".toList) = .ok (.hwWriteBits [] 0) := by decide

theorem test_decode_emitBit : decode (.line "emitBit(1)".toList) = .ok (.emitBit true) := by decide

/-- Log 2: no comma after the last integer. -/
theorem test_decode_trailing_comma_call : decode (.line "initHardware(0,)".toList) = .error .malformedLine := by decide

theorem test_decode_trailing_comma_bytes :
    decode (.line "writeBits([1,], 8)".toList) = .error .malformedLine := by decide

/-- R57: no other operation. -/
theorem test_decode_unknown_operation : decode (.line "rgbToHsv(1)".toList) = .error .unknownOperation := by decide

theorem test_encode_fLed : encode (.fLed 21 128 64 1) = .wire [0xF5, 0x80, 0x40, 0x01] := by decide

/-- A table word placed after reset runs on the first step: an emission without a device (log 1, log 3). -/
theorem test_fetch_word_after_reset :
    (after (step (State.reset.withFetchWord 32 0xFF1E140A))).map (fun t => (t.results, t.pending)) =
      some ([.invalidArgument .noDevice], []) := by decide

/-! ### makeFrame, the stream (sections 1, 2.1, 2.2, programs P2 and P4) -/

theorem test_makeFrame_masks_32 :
    (after (exec (.makeFrame 3 2 1 32) State.reset)).map State.results =
      some [.ok (.frame { brightness := 0, blue := 1, green := 2, red := 3 })] := by decide

theorem test_makeFrame_wire_bytes : ledBytes (madeFrame 1 64 128 0x55) = [0xF5, 0x80, 0x40, 0x01] := by decide

theorem test_end_frame_table :
    [1, 2, 3, 15, 16, 17, 32, 33, 48, 49, 100, 144, 1000].map endBytes = [1, 1, 1, 1, 1, 2, 2, 3, 3, 4, 7, 9, 63] := by
  decide

theorem test_stream_P2 :
    stream ([.made 10 20 30 31, .tuple 1 0 0xFF 0, .tuple 16 0x12 0x34 0x56].map frameValue) =
      [0x00, 0x00, 0x00, 0x00, 0xFF, 0x1E, 0x14, 0x0A, 0xE1, 0x00, 0xFF, 0x00, 0xF0, 0x12, 0x34, 0x56, 0xFF] := by
  decide

/-! ### Initialisation (sections 2.3, 2.4) -/

theorem test_initHardware_calls_setup :
    (after (exec (.initHardware 1) (ready [false]))).map (fun t => (t.inst, t.trace)) =
      some (.configured (.hardware 1), [okEvent (.spiSetup 1 500000)]) := by decide

theorem test_initHardware_failed_call :
    (after (exec (.initHardware 0) (ready [true]))).map (fun t => (t.inst, t.trace, t.results)) =
      some (.unconfigured, [failedEvent (.spiSetup 0 500000)], [.transportError]) := by decide

theorem test_initSoftware_primes_the_clock :
    (after (exec (.initSoftware 11 10 8) (ready (oks 4)))).map (fun t => (t.inst, t.trace, t.level 11)) =
      some (.configured (.software 11 10 (some 8)),
        [okEvent (.gpioMode 11), okEvent (.gpioMode 10), okEvent (.gpioMode 8), okEvent (.gpioWrite 11 .high)],
        some .high) := by decide

theorem test_initSoftware_failed_call :
    (after (exec (.initSoftware 11 10 8) (ready [false, true]))).map (fun t => (t.inst, t.trace, t.results)) =
      some (.unconfigured, [okEvent (.gpioMode 11), failedEvent (.gpioMode 10)], [.transportError]) := by decide

/-! ### The bit writer (sections 2.6, 2.7) -/

theorem test_emitBit_one :
    (after (exec (.emitBit true) (onSoftware none (oks 3)))).map State.trace =
      some [okEvent (.gpioWrite 10 .high), okEvent (.gpioWrite 11 .high), okEvent (.delay 5),
        okEvent (.gpioWrite 11 .low), okEvent (.delay 5)] := by decide

theorem test_emitBit_failed_call :
    (after (exec (.emitBit false) (onSoftware none [false, true]))).map (fun t => (t.trace, t.results, t.level 11)) =
      some ([okEvent (.gpioWrite 10 .low), failedEvent (.gpioWrite 11 .high)], [.transportError], none) := by decide

theorem test_writeBits_A5_order : bitsOf [0xA5] 8 = [true, false, true, false, false, true, false, true] := by decide

theorem test_writeBits_partial_byte :
    (after (exec (.writeBits [0xC0] 2) (onSoftware none (oks 6)))).map State.trace =
      some (bitEvents 11 10 5 true ++ bitEvents 11 10 5 true) := by decide

theorem test_swWriteBits_zero_bits :
    (after (exec (.swWriteBits [0xFF] 0) (onSoftware none []))).map (fun t => (t.trace, t.results)) =
      some ([], [.ok .unit]) := by decide

theorem test_swWriteBits_nine_bits :
    (after (exec (.swWriteBits [0x80, 0xFF] 9) (onSoftware (some .low) (oks 27)))).map
      (fun t => (t.trace.length, wireBits t.wire)) =
      some (45, [some .high, some .low, some .low, some .low, some .low, some .low, some .low, some .low,
        some .high]) := by decide

theorem test_hwWriteBits_chunks :
    (after (exec (.hwWriteBits [0, 0, 0, 0, 0xFF, 0x1E, 0x14, 0x0A, 0xFF] 72) (onHardware (oks 9)))).map State.trace =
      some [okEvent (.spiWrite 0 [0, 0, 0, 0]), okEvent (.spiWrite 0 [0xFF, 0x1E, 0x14, 0x0A]),
        okEvent (.spiWrite 0 [0xFF])] := by decide

theorem test_hwWriteBits_failed_chunk :
    (after (exec (.hwWriteBits [0, 0, 0, 0, 0xFF, 0x1E, 0x14, 0x0A, 0xFF] 72) (onHardware [false, true]))).map
      (fun t => (t.trace, t.results)) =
      some ([okEvent (.spiWrite 0 [0, 0, 0, 0]), failedEvent (.spiWrite 0 [0xFF, 0x1E, 0x14, 0x0A])],
        [.transportError]) := by decide

/-! ### update and the emission steps (sections 2.5, 3) -/

theorem test_update_no_device :
    (after (exec (.update (some [.tuple 1 2 3 4])) (ready []))).map (fun t => (t.trace, t.results)) =
      some ([], [.invalidArgument .noDevice]) := by decide

/-- Program P3: the first update after priming makes 71 rising edges, which carry bits 1 to 71. -/
theorem test_update_first_bit_lost :
    (after (exec (.update (some oneFrame)) (onSoftware (some .high) (oks 216)))).map
      (fun t => (t.trace.length, wireBits t.wire)) =
      some (360, List.replicate 31 (some .low) ++ List.replicate 8 (some .high) ++ List.replicate 16 (some .low) ++
        List.replicate 16 (some .high)) := by decide +kernel

theorem test_fStart_bytes :
    (after (exec .fStart (onHardware (oks 4)))).map State.trace = some [okEvent (.spiWrite 0 [0, 0, 0, 0])] := by decide

theorem test_fLed_bytes :
    (after (exec (.fLed 0 1 2 3) (begun (.leds 0) (onHardware (oks 4))))).map (fun t => (t.trace, t.emission)) =
      some ([okEvent (.spiWrite 0 [0xE0, 1, 2, 3])], some (.leds 1)) := by decide

theorem test_fEnd_bits :
    (after (exec .fEnd (begun (.leds 1) (onSoftware (some .low) (oks 24))))).map
      (fun t => (wireBits t.wire, t.emission)) = some (List.replicate 8 (some .high), none) := by decide

/-- R58: no stream has an LED frame before the start frame. -/
theorem test_fLed_alone_refused : refusal (exec (.fLed 0 1 2 3) (onHardware (oks 4))) = some .outOfStream := by decide

/-- R58: nor an end-frame byte. -/
theorem test_fEnd_alone_refused : refusal (exec .fEnd (onHardware (oks 1))) = some .outOfStream := by decide

/-- R58: nor a second start frame. -/
theorem test_fStart_again_refused :
    refusal (exec .fStart (begun (.leds 0) (onHardware (oks 4)))) = some .outOfStream := by decide

/-! ### Witnesses: the hypotheses of each statement are met together -/

theorem witness_DecodedWireBytesAreTheEncoding :
    decodeWire [0, 0, 0, 0] = .ok .fStart ∧ decodeWire [0xE0, 0, 0, 0] = .ok (.fLed 0 0 0 0) ∧
      decodeWire [0xFF] = .ok .fEnd := by decide

theorem witness_ReservedWireFormsRefused :
    ((1 : Word) ≠ 0 ∧ (1 : Word).extractLsb' 29 3 ≠ 0b111#3) ∧
      ((0xDFFFFFFF : Word) ≠ 0 ∧ (0xDFFFFFFF : Word).extractLsb' 29 3 ≠ 0b111#3) ∧
      ((0xFE : Byte) ≠ 0xFF#8 ∧ (0 : Byte) ≠ 0xFF#8) ∧
      (([] : List Byte).length ≠ 4 ∧ ([] : List Byte).length ≠ 1) ∧
      ([0, 0] : List Byte).length ≠ 4 ∧ ([0, 0] : List Byte).length ≠ 1 := by decide

theorem witness_EndFrameLength :
    (endBytes 1 = 1 ∧ endBytes 16 = 1) ∧ (endBytes 17 = 2 ∧ endBytes 32 = 2) ∧
      (16 * (3 - 1) < 33 ∧ 33 ≤ 16 * 3) ∧ (16 * (3 - 1) < 48 ∧ 48 ≤ 16 * 3) := by decide

theorem witness_StreamLengthAndBitCount :
    [madeFrame 0 0 0 0, madeFrame 1 2 3 4, madeFrame 255 255 255 255].length = 3 := by decide

theorem witness_CursorPhasesGiveTheBits :
    8 * (stream (oneFrame.map frameValue)).length = 72 ∧ phaseOf 1 0 = .start ∧ phaseOf 1 31 = .start ∧
      phaseOf 1 32 = .led 0 ∧ phaseOf 1 63 = .led 0 ∧ phaseOf 1 64 = .finish ∧ phaseOf 1 71 = .finish := by decide

theorem witness_InitHardwareRejectsOtherChannels :
    State.reset.Idle ∧ ((-1 : Int) ≠ 0 ∧ (-1 : Int) ≠ 1) ∧ (2 : Int) ≠ 0 ∧ (2 : Int) ≠ 1 := by decide

theorem witness_InitHardwareSetsUpTheChannel :
    (ready []).Idle ∧ (ready [false]).draws.fail = [false] ∧ (ready [true]).draws.fail = [true] := by decide

/-- Each clause at the ends of the operand ranges. -/
theorem witness_InitSoftwareRejectsExactlyBadPins :
    (ready []).Idle ∧ (ready []).gpioReady = true ∧
      ((0 : Int) ≤ 0 ∧ (29 : Int) ≤ 29) ∧ ¬ ((0 : Int) ≤ -1) ∧ ¬ ((30 : Int) ≤ 29) ∧
      ((-1 : Int) ≤ -1 ∧ (-1 : Int) ≤ 29) ∧ ¬ ((-1 : Int) ≤ -2) := by decide

/-- Both sides of the equivalence are met: by a bad pin and by good ones. -/
theorem witness_InitSoftwareRejectsExactlyBadPins_both :
    (after (exec (.initSoftware 30 10 (-1)) (ready []))).map State.results = some [.invalidArgument .badSclk] ∧
      (after (exec (.initSoftware 0 29 29) (ready (oks 4)))).map State.results =
        some [.ok (.transmitter (.software 0 29 (some 29)))] := by decide

/-- Each clause at the ends of its ranges, and each label. -/
theorem witness_InitSoftwareLabelsTheFirstBadPin :
    (ready []).Idle ∧ (ready []).gpioReady = true ∧ ¬ ((0 : Int) ≤ -1) ∧ ¬ ((30 : Int) ≤ 29) ∧
      ((0 : Int) ≤ 0 ∧ (0 : Int) ≤ 29) ∧ ((0 : Int) ≤ 29 ∧ (29 : Int) ≤ 29) ∧ ¬ ((-1 : Int) ≤ -2) ∧
      [exec (.initSoftware 30 30 30) (ready []), exec (.initSoftware 0 (-1) 30) (ready []),
        exec (.initSoftware 0 29 (-2)) (ready [])].map (fun o => (after o).map State.results) =
        [some [.invalidArgument .badSclk], some [.invalidArgument .badMosi], some [.invalidArgument .badCs]] := by
  decide

theorem witness_InitSoftwareConfiguresThePins :
    (ready (oks 4)).Idle ∧ (ready (oks 4)).gpioReady = true ∧
      (ready (oks 4)).draws.okFor (initCalls (modePins 11 10 (some 8)) 11 (some 8)).length ∧
      (ready (oks 4)).draws.okFor (initCalls (modePins 5 5 none) 5 none).length := by
  exact ⟨⟨rfl, rfl⟩, rfl, okFor_of_oks (m := 4) rfl (by decide), okFor_of_oks (m := 4) rfl (by decide)⟩

theorem witness_EveryModeOrderIsAdmitted :
    ([8, 10, 11] : List Pin).Perm (modePins 11 10 (some 8)) ∧ (ready (oks 4)).gpioReady = true ∧
      (ready (oks 4)).Idle ∧
      (ready (oks 4)).draws.okFor (initCalls (modePins 11 10 (some 8)) 11 (some 8)).length := by
  exact ⟨by decide, rfl, ⟨rfl, rfl⟩, okFor_of_oks (m := 4) rfl (by decide)⟩

/-- The first call and the last one, the priming write. -/
theorem witness_InitSoftwareStopsAtTheFailedCall :
    (ready [true]).Idle ∧ (ready [true]).gpioReady = true ∧
      (ready [true]).draws.fail = List.replicate 0 false ++ true :: [] ∧
      0 < (initCalls (modePins 5 5 none) 5 none).length ∧
      (ready [false, false, false, true]).Idle ∧ (ready [false, false, false, true]).gpioReady = true ∧
      (ready [false, false, false, true]).draws.fail = List.replicate 3 false ++ true :: [] ∧
      3 < (initCalls (modePins 11 10 (some 8)) 11 (some 8)).length := by decide

theorem witness_InitSoftwareNeedsTheGpioSetup :
    State.reset.Idle ∧ State.reset.gpioReady = false := by decide

/-- The software configuration, and a scripted answer for every call of a short operation. -/
theorem witness_EmitBitMakesItsFiveCalls :
    (onSoftware none (oks 3)).Idle ∧
      (onSoftware none (oks 3)).inst = .configured (.software 11 10 (some 8)) ∧
      (onSoftware none (oks 3)).draws.okFor 3 := ⟨⟨rfl, rfl⟩, rfl, rfl⟩

/-- On two pins and on one pin for both. -/
theorem witness_EmitBitStopsAtTheFailedWrite :
    (onSoftware none []).Idle ∧ (onSoftware none []).inst = .configured (.software 11 10 (some 8)) ∧ (11 : Pin) ≠ 10 ∧
      (onSoftware none [true]).draws.fail = true :: [] ∧
      (onSoftware none [false, true]).draws.fail = false :: true :: [] ∧
      (onSoftware none [false, false, true]).draws.fail = false :: false :: true :: [] ∧
      ({ onSoftware none [] with inst := .configured (.software 5 5 none) } : State).inst =
        .configured (.software 5 5 none) := by decide

/-- Each stop: the levels of clock and data pin, and the wire. -/
theorem witness_EmitBitStopsAtTheFailedWrite_levels :
    [[true], [false, true], [false, false, true]].map (fun fails =>
      (after (exec (.emitBit true) (onSoftware (some .low) fails))).map fun t => (t.level 10, t.level 11, t.wire)) =
      [some (none, some .low, []), some (some .high, none, []),
        some (some .high, none, [.rising 11 (some .high)])] := by decide

theorem witness_EmitBitClockEdges :
    ∀ clock : PinLevel, (onSoftware clock (oks 3)).Idle ∧
      (onSoftware clock (oks 3)).inst = .configured (.software 11 10 (some 8)) ∧ (11 : Pin) ≠ 10 ∧
      (onSoftware clock (oks 3)).level 11 = clock ∧ (onSoftware clock (oks 3)).draws.wasLow = true :: [] ∧
      (onSoftware clock (oks 3)).draws.okFor 3 :=
  fun _ => ⟨⟨rfl, rfl⟩, rfl, by decide, rfl, rfl, rfl⟩

theorem witness_SoftwareWriterSendsTheBits :
    (onSoftware none (oks 24)).Idle ∧
      (onSoftware none (oks 24)).inst = .configured (.software 11 10 (some 8)) ∧
      (8 ≤ 8 * ([0xA5] : List Byte).length ∧ (onSoftware none (oks 24)).draws.okFor (3 * 8)) ∧
      0 ≤ 8 * ([] : List Byte).length ∧ (onSoftware none (oks 24)).draws.okFor (3 * 0) :=
  ⟨⟨rfl, rfl⟩, rfl, ⟨by decide, rfl⟩, by decide, rfl⟩

/-- A failed writer, a failed `update` and a failed emission. -/
theorem witness_SoftwareFailureSendsAPrefix :
    (onSoftware none [false, true]).inst = .configured (.software 11 10 (some 8)) ∧
      (after (exec (.swWriteBits [0xA5] 8) (onSoftware none [false, true]))).map State.results =
        some ((onSoftware none [false, true]).results ++ [.transportError]) ∧
      (after (exec (.update (some oneFrame)) (onSoftware none [true]))).map State.results =
        some ((onSoftware none [true]).results ++ [.transportError]) ∧
      (after (exec .fStart (onSoftware none [true]))).map State.results =
        some ((onSoftware none [true]).results ++ [.transportError]) ∧
      [sends (.swWriteBits [0xA5] 8), sends (.update (some oneFrame)), sends .fStart] =
        [some ([0xA5], 8), some (stream (oneFrame.map frameValue), 72), some ([0, 0, 0, 0], 32)] := by decide

theorem witness_HardwareWriterSendsTheBytes :
    (onHardware (oks 2)).Idle ∧ (onHardware (oks 2)).inst = .configured (.hardware 0) ∧
      16 ≤ 8 * ([1, 2] : List Byte).length ∧ 16 % 8 = 0 ∧ (onHardware (oks 2)).draws.okFor (16 / 8) :=
  ⟨⟨rfl, rfl⟩, rfl, by decide, rfl, rfl⟩

theorem witness_EverySplitIsAdmitted :
    (onHardware (oks 2)).Idle ∧ (onHardware (oks 2)).inst = .configured (.hardware 0) ∧
      24 ≤ 8 * ([1, 2, 3] : List Byte).length ∧ 24 % 8 = 0 ∧
      IsSplit [[1], [2, 3]] (([1, 2, 3] : List Byte).take (24 / 8)) ∧
      (onHardware (oks 2)).draws.okFor ([[1], [2, 3]] : List (List Byte)).length :=
  ⟨⟨rfl, rfl⟩, rfl, by decide, rfl, ⟨rfl, by decide⟩, rfl⟩

theorem witness_HardwareFailureSendsAPrefix :
    (onHardware [false, true]).inst = .configured (.hardware 0) ∧
      (after (exec (.hwWriteBits [0, 0, 0, 0, 0xFF] 40) (onHardware [false, true]))).map State.results =
        some ((onHardware [false, true]).results ++ [.transportError]) ∧
      (after (exec (.update (some oneFrame)) (onHardware [false, true]))).map State.results =
        some ((onHardware [false, true]).results ++ [.transportError]) ∧
      (after (exec (.fLed 0 1 2 3) (begun (.leds 0) (onHardware [true])))).map State.results =
        some ((begun (.leds 0) (onHardware [true])).results ++ [.transportError]) ∧
      [sends (.hwWriteBits [0, 0, 0, 0, 0xFF] 40), sends (.fLed 0 1 2 3)] =
        [some ([0, 0, 0, 0, 0xFF], 40), some ([0xE0, 1, 2, 3], 32)] := by decide

theorem witness_WriteBitsIsTheConfiguredEngine :
    (onSoftware none []).inst = .configured (.software 11 10 (some 8)) ∧
      (onHardware []).inst = .configured (.hardware 0) := ⟨rfl, rfl⟩

theorem witness_BadBitCountsRefused :
    ((onSoftware none []).Idle ∧ (onSoftware none []).inst = .configured (.software 11 10 (some 8)) ∧
      8 * ([0xFF] : List Byte).length < 9) ∧
    ((onHardware []).Idle ∧ (onHardware []).inst = .configured (.hardware 0) ∧
      8 * ([] : List Byte).length < 1 ∧ 2 ≤ 8 * ([0xC0] : List Byte).length ∧ 2 % 8 ≠ 0) := by decide

theorem witness_InternalOperationsNeedTheirConfiguration :
    (ready []).Idle ∧ (ready []).inst = .unconfigured ∧ (onHardware []).Idle ∧
      (onHardware []).inst = .configured (.hardware 0) ∧ (onSoftware none []).Idle ∧
      (onSoftware none []).inst = .configured (.software 11 10 (some 8)) := by decide

/-- N_MAX = 1 turns two frames away; one frame is accepted at that bound, and without one. -/
theorem witness_UpdateValidation :
    ((ready []).Idle ∧ (ready []).inst = .unconfigured) ∧
    ((onHardware []).Idle ∧ (onHardware []).inst = .configured (.hardware 0)) ∧
    ((atMost 1 (onHardware [])).Idle ∧ (atMost 1 (onHardware [])).inst = .configured (.hardware 0) ∧
      (atMost 1 (onHardware [])).params.nMax = some 1 ∧ 1 < (oneFrame ++ oneFrame).length ∧
      oneFrame ++ oneFrame ≠ []) ∧
    oneFrame.length ≤ 1 ∧ (onHardware []).params.nMax = none ∧ oneFrame ≠ [] := by decide

/-- N = N_MAX, for one frame. -/
theorem oneFrame_within {s : State} {m : Nat} (h : (atMost 1 s).params.nMax = some m) : oneFrame.length ≤ m := by
  cases h
  decide

/-- 216 calls for one frame, from each clock level, at N = N_MAX. -/
theorem witness_SoftwareUpdateSendsTheStream :
    ∀ clock : PinLevel, (atMost 1 (onSoftware clock (oks 216))).Idle ∧
      (atMost 1 (onSoftware clock (oks 216))).inst = .configured (.software 11 10 (some 8)) ∧ oneFrame ≠ [] ∧
      (∀ m, (atMost 1 (onSoftware clock (oks 216))).params.nMax = some m → oneFrame.length ≤ m) ∧
      (atMost 1 (onSoftware clock (oks 216))).draws.okFor
        (3 * (32 + 32 * oneFrame.length + 8 * endBytes oneFrame.length)) :=
  fun _ => ⟨⟨rfl, rfl⟩, rfl, by decide, fun _ => oneFrame_within, okFor_of_oks (m := 216) rfl (by decide)⟩

theorem witness_HardwareUpdateSendsTheStream :
    (atMost 1 (onHardware (oks 9))).Idle ∧ (atMost 1 (onHardware (oks 9))).inst = .configured (.hardware 0) ∧
      oneFrame ≠ [] ∧ (∀ m, (atMost 1 (onHardware (oks 9))).params.nMax = some m → oneFrame.length ≤ m) ∧
      (atMost 1 (onHardware (oks 9))).draws.okFor (4 + 4 * oneFrame.length + endBytes oneFrame.length) :=
  ⟨⟨rfl, rfl⟩, rfl, by decide, fun _ => oneFrame_within, okFor_of_oks (m := 9) rfl (by decide)⟩

theorem witness_BothEnginesSendTheSameBits :
    oneFrame ≠ [] ∧ (atMost 1 (onSoftware (some .low) (oks 216))).Idle ∧ (atMost 1 (onHardware (oks 9))).Idle ∧
      (atMost 1 (onSoftware (some .low) (oks 216))).inst = .configured (.software 11 10 (some 8)) ∧
      (atMost 1 (onHardware (oks 9))).inst = .configured (.hardware 0) ∧ (11 : Pin) ≠ 10 ∧
      (atMost 1 (onSoftware (some .low) (oks 216))).level 11 = some .low ∧
      (∀ m, (atMost 1 (onSoftware (some .low) (oks 216))).params.nMax = some m → oneFrame.length ≤ m) ∧
      (∀ m, (atMost 1 (onHardware (oks 9))).params.nMax = some m → oneFrame.length ≤ m) ∧
      (atMost 1 (onSoftware (some .low) (oks 216))).draws.okFor
        (3 * (32 + 32 * oneFrame.length + 8 * endBytes oneFrame.length)) ∧
      (atMost 1 (onHardware (oks 9))).draws.okFor (4 + 4 * oneFrame.length + endBytes oneFrame.length) :=
  ⟨by decide, ⟨rfl, rfl⟩, ⟨rfl, rfl⟩, rfl, rfl, by decide, rfl, fun _ => oneFrame_within, fun _ => oneFrame_within,
    okFor_of_oks (m := 216) rfl (by decide), okFor_of_oks (m := 9) rfl (by decide)⟩

theorem witness_FirstBitIsLostOnAHighClock :
    ∀ clock : PinLevel, oneFrame ≠ [] ∧ (atMost 1 (onSoftware clock (oks 216))).Idle ∧
      (atMost 1 (onSoftware clock (oks 216))).inst = .configured (.software 11 10 (some 8)) ∧ (11 : Pin) ≠ 10 ∧
      (∀ m, (atMost 1 (onSoftware clock (oks 216))).params.nMax = some m → oneFrame.length ≤ m) ∧
      (atMost 1 (onSoftware clock (oks 216))).level 11 = clock ∧
      (atMost 1 (onSoftware clock (oks 216))).draws.okFor
        (3 * (32 + 32 * oneFrame.length + 8 * endBytes oneFrame.length)) :=
  fun _ => ⟨by decide, ⟨rfl, rfl⟩, rfl, by decide, fun _ => oneFrame_within, rfl,
    okFor_of_oks (m := 216) rfl (by decide)⟩

/-- Two updates, each of one step, both ok. -/
theorem witness_LaterUpdatesAreFullyClocked :
    oneFrame ≠ [] ∧ (onSoftware (some .high) (oks 432)).inst = .configured (.software 11 10 (some 8)) ∧
      (11 : Pin) ≠ 10 ∧ (onSoftware (some .high) (oks 432)).results = [] ∧
      ((after (exec (.update (some oneFrame)) (onSoftware (some .high) (oks 432)))).bind fun t =>
        (after (exec (.update (some oneFrame)) t)).map fun u => (t.results, u.results)) =
        some ([.ok .unit], [.ok .unit] ++ [.ok .unit]) := by decide +kernel

theorem witness_UpdateIsItsEmissionsInOrder :
    oneFrame ≠ [] ∧ (atMost 1 (onSoftware none (oks 216))).Idle ∧
      (atMost 1 (onSoftware none (oks 216))).inst = .configured (.software 11 10 (some 8)) ∧
      (∀ m, (atMost 1 (onSoftware none (oks 216))).params.nMax = some m → oneFrame.length ≤ m) ∧
      (atMost 1 (onSoftware none (oks 216))).draws.okFor
        (3 * (32 + 32 * oneFrame.length + 8 * endBytes oneFrame.length)) :=
  ⟨by decide, ⟨rfl, rfl⟩, rfl, fun _ => oneFrame_within, okFor_of_oks (m := 216) rfl (by decide)⟩

theorem witness_EmissionsOnTheHardwareEngine :
    [madeFrame 1 2 3 4] ≠ [] ∧ (atMost 1 (onHardware (oks 9))).Idle ∧
      (atMost 1 (onHardware (oks 9))).inst = .configured (.hardware 0) ∧
      (∀ m, (atMost 1 (onHardware (oks 9))).params.nMax = some m → [madeFrame 1 2 3 4].length ≤ m) ∧
      (atMost 1 (onHardware (oks 9))).draws.okFor
        (4 + 4 * [madeFrame 1 2 3 4].length + endBytes [madeFrame 1 2 3 4].length) :=
  ⟨by decide, ⟨rfl, rfl⟩, rfl, fun _ => oneFrame_within, okFor_of_oks (m := 9) rfl (by decide)⟩

/-- The positions of a stream in which each wire format runs, at their ends: the bound met by the last LED frame, the
first and the last end-frame byte. -/
theorem witness_WireFormatsOnTheSoftwareEngine :
    (onSoftware none (oks 96)).engine = none ∧
      (onSoftware none (oks 96)).inst = .configured (.software 11 10 (some 8)) ∧
      (onSoftware none (oks 96)).emission = none ∧
      ((atMost 1 (begun (.leds 0) (onSoftware none (oks 96)))).engine = none ∧
        (atMost 1 (begun (.leds 0) (onSoftware none (oks 96)))).emission = some (.leds 0) ∧
        ∀ m, (atMost 1 (begun (.leds 0) (onSoftware none (oks 96)))).params.nMax = some m → 0 + 1 ≤ m) ∧
      ((begun (.leds 1) (onSoftware none (oks 24))).emission = some (.leds 1) ∧ 1 ≤ 1) ∧
      (begun (.ends 17 1) (onSoftware none (oks 24))).emission = some (.ends 17 1) ∧
      (onSoftware none (oks 96)).draws.okFor 96 ∧ (onSoftware none (oks 24)).draws.okFor 24 :=
  ⟨rfl, rfl, rfl, ⟨rfl, rfl, fun _ => oneFrame_within⟩, ⟨rfl, le_refl _⟩, rfl, rfl, rfl⟩

theorem witness_WireFormatsOnTheHardwareEngine :
    (onHardware (oks 4)).engine = none ∧ (onHardware (oks 4)).inst = .configured (.hardware 0) ∧
      (onHardware (oks 4)).emission = none ∧
      ((atMost 1 (begun (.leds 0) (onHardware (oks 4)))).engine = none ∧
        (atMost 1 (begun (.leds 0) (onHardware (oks 4)))).emission = some (.leds 0) ∧
        ∀ m, (atMost 1 (begun (.leds 0) (onHardware (oks 4)))).params.nMax = some m → 0 + 1 ≤ m) ∧
      ((begun (.leds 1) (onHardware (oks 1))).emission = some (.leds 1) ∧ 1 ≤ 1) ∧
      (begun (.ends 17 1) (onHardware (oks 1))).emission = some (.ends 17 1) ∧
      (onHardware (oks 4)).draws.okFor 4 ∧ (onHardware (oks 1)).draws.okFor 1 :=
  ⟨rfl, rfl, rfl, ⟨rfl, rfl, fun _ => oneFrame_within⟩, ⟨rfl, le_refl _⟩, rfl, rfl, rfl⟩

/-- A stream of one frame, emission by emission. -/
theorem witness_EmissionsFormWholeStreams :
    (onHardware (oks 9)).Idle ∧ (∀ i ∈ emissions [madeFrame 1 2 3 4], isEmission i = true) ∧
      (after (execAll (emissions [madeFrame 1 2 3 4]) (onHardware (oks 9)))).map (fun t => (t.results, t.emission)) =
        some ((onHardware (oks 9)).results ++
          List.replicate (emissions [madeFrame 1 2 3 4]).length (.ok .unit), none) := by decide

theorem witness_EmissionsOutOfStreamRefused :
    ((begun (.leds 0) (onHardware [])).engine = none ∧
      (begun (.leds 0) (onHardware [])).inst = .configured (.hardware 0) ∧
      (begun (.leds 0) (onHardware [])).emission = some (.leds 0)) ∧
    ((onHardware []).engine = none ∧ (onHardware []).emission = none) ∧
    (begun (.ends 17 1) (onHardware [])).emission = some (.ends 17 1) ∧
    ((atMost 0 (begun (.leds 0) (onHardware []))).emission = some (.leds 0) ∧
      (atMost 0 (begun (.leds 0) (onHardware []))).params.nMax = some 0 ∧ 0 < 0 + 1) := by decide

theorem witness_WireFormatsNeedADevice : State.reset.engine = none ∧ State.reset.inst = .unconfigured := ⟨rfl, rfl⟩

theorem witness_InvalidArgumentChangesNothing :
    (after (exec (.update (some [])) (onHardware []))).map State.results =
      some ((onHardware []).results ++ [.invalidArgument .emptyFrames]) := by decide

/-- A return value of each kind. -/
theorem witness_AFailedCallEndsTheOperation :
    (after (exec (.emitBit true) (onSoftware none (oks 3)))).map State.results = some [.ok .unit] ∧
      (after (exec (.emitBit true) (onSoftware none [true]))).map State.results = some [.transportError] := by decide

theorem witness_OnlyASuccessfulInitChangesInst :
    (after (exec (.initHardware 1) (onSoftware none [false]))).map State.inst = some (.configured (.hardware 1)) ∧
      (after (exec (.initHardware 1) (onSoftware none [true]))).map State.inst =
        some (.configured (.software 11 10 (some 8))) := by decide

/-- A configured write, the priming write, and a chip-select pin that is neither clock nor data pin. -/
theorem witness_OnlyClockAndDataPinsAreWritten :
    (onSoftware none (oks 3)).inst = .configured (.software 11 10 (some 8)) ∧
      (after (exec (.emitBit true) (onSoftware none (oks 3)))).isSome = true ∧
      (after (exec (.initSoftware 11 10 8) (ready (oks 4)))).isSome = true ∧ (8 : Pin) ≠ 11 ∧ (8 : Pin) ≠ 10 := by
  decide

theorem witness_HardwareOptionMakesNoGpioCall :
    (onHardware (oks 9)).inst = .configured (.hardware 0) ∧
      (after (exec (.update (some oneFrame)) (onHardware (oks 9)))).isSome = true := by decide

theorem witness_OnlyInitsWriteModesAndSetups :
    (after (exec (.initSoftware 11 10 (-1)) (ready (oks 2)))).map (fun t => t.mode 11) = some .output ∧
      (ready (oks 2)).mode 11 = .unspecified ∧
      (after (exec (.initHardware 0) (ready [true]))).map (fun t => t.spiOf 0) = some .unspecified ∧
      (ready [true]).spiOf 0 = .notSetUp := by decide

theorem witness_OperationsLeaveTheEnvironment :
    (after (exec (.emitBit true) (onSoftware none [true]))).isSome = true ∧
      (after (exec (.makeFrame 1 2 3 4) busy)).isSome = true := by decide

/-- Each internal operation, with each of the two return values. -/
theorem witness_InternalOperationsHaveNoInvalidArgument :
    [exec (.writeBits [1] 8) (onHardware [false]), exec (.writeBits [1] 8) (onHardware [true]),
      exec (.swWriteBits [1] 1) (onSoftware none (oks 3)), exec (.swWriteBits [1] 1) (onSoftware none [true]),
      exec (.hwWriteBits [1] 8) (onHardware [false]), exec (.hwWriteBits [1] 8) (onHardware [true]),
      exec (.emitBit true) (onSoftware none (oks 3)), exec (.emitBit true) (onSoftware none [true])].map
        (fun o => (after o).map State.results) =
      [some [.ok .unit], some [.transportError], some [.ok .unit], some [.transportError], some [.ok .unit],
        some [.transportError], some [.ok .unit], some [.transportError]] := by decide

/-- While a bit writer runs, and while a stream is begun. -/
theorem witness_OverlappingOperationsRefused :
    busy.engine ≠ none ∧ (begun (.leds 0) (onHardware [])).emission ≠ none ∧ isEmission (.update none) = false ∧
      ({ busy with pending := [.actorWrite 11 none] } : State).pending = .actorWrite 11 none :: [] ∧
      ({ busy with pending := [.gpioSetup] } : State).pending = .gpioSetup :: [] ∧
      ({ begun (.leds 0) (onHardware []) with pending := [.gpioSetup] } : State).pending = .gpioSetup :: [] := by
  decide

theorem witness_StepRunsTheDecodedInstruction :
    ({ State.reset with pending := [.fetch (.wire [0xFF])] } : State).pending = .fetch (.wire [0xFF]) :: [] ∧
      decode (.wire [0xFF]) = .ok .fEnd := ⟨rfl, by decide⟩

theorem witness_StepTakesTheOtherInputs :
    State.reset.pending = [] ∧ (ready []).Idle ∧
      ({ ready [] with pending := [.gpioSetup] } : State).pending = .gpioSetup :: [] ∧
      ({ ready [] with pending := [.actorWrite 29 (some .low)] } : State).pending = .actorWrite 29 (some .low) :: [] ∧
      decode (.wire [0xFE]) = .error .reservedByte := ⟨rfl, ⟨rfl, rfl⟩, rfl, rfl, by decide⟩

theorem witness_FetchWordRunsNext :
    decodeTableWord 32 0xFF1E140A = some (.fLed 31 30 20 10) ∧ decodeTableWord 8 0xFF = some .fEnd := by decide

/-- A channel 0 transmitter after its set-up call, in a stream of at most one LED, with its LED frame to come. -/
def configured : State :=
  { atMost 1 (begun (.leds 0) (onHardware (oks 4))) with
    spi := (onHardware []).spi.set 0 (.setUp 500000)
    trace := [okEvent (.spiSetup 0 500000)]
    pending := [.fetch (.wire [0xE0, 1, 2, 3])] }

theorem witness_StepKeepsTheInvariant : configured.Inv ∧ (after (step configured)).isSome = true := by
  refine ⟨⟨rfl, by decide, ?_, List.mem_singleton.2 rfl, ?_, ?_⟩, by decide⟩
  · rintro (_ | ⟨e, _ | ⟨e', before⟩⟩) after p lvl mark h <;> simp [configured, okEvent] at h
  · intro ch hz h
    fin_cases ch <;> simp [configured, State.spiOf, onHardware, ready, State.reset, atMost, begun] at h
    simp [Config.hwFreqHz, ← h]
  · rintro e ⟨⟩
    exact ⟨by decide, rfl⟩

end Sys2Proof.Tests
end

section
/-! SUPPORT. What no instruction changes: the state outside the transmitter, and the engine slot. -/

namespace Sys2Proof.Machine

/-! ### How an operation returns -/

/-- However an operation ends, it adds one return value to the state its calls came to. -/
theorem Progress.finish_eq_ret (p : Progress) (v : OkValue) : ∃ r, p.finish v = p.state.ret r := by
  cases p <;> exact ⟨_, rfl⟩

/-- R75: an init may change `inst` besides. -/
theorem Progress.configure_eq_ret (p : Progress) (cfg : TransmitterConfig) :
    ∃ v r, p.configure cfg = (p.state.setInst v).ret r := by
  cases p with
  | going s => exact ⟨.configured cfg, _, rfl⟩
  | aborted s => exact ⟨s.inst, _, rfl⟩

/-- R81: an emission may move the stream's position besides. -/
theorem Progress.emitted_eq_ret (p : Progress) (next : Option Emission) :
    ∃ e r, p.emitted next = (p.state.setEmission e).ret r := by
  cases p <;> exact ⟨_, _, rfl⟩

/-- The bytes of an emission come only from an emission step. -/
theorem EmissionOf.isEmission_eq_true {i : Instr} {s : State} {bytes : List Byte} {next : Option Emission}
    (h : EmissionOf i s bytes next) : isEmission i = true := by
  cases h <;> subst i <;> rfl

/-! ### The environment -/

/-- R10, R25, R34, R110: what is not the operations' to write. -/
structure SameEnvironment (s t : State) : Prop where
  params : t.params = s.params
  gpioReady : t.gpioReady = s.gpioReady
  pending : t.pending = s.pending
  engine : t.engine = s.engine

theorem SameEnvironment.ret (s : State) (r : Result) : SameEnvironment s (s.ret r) := ⟨rfl, rfl, rfl, rfl⟩

/-- Collaborator calls leave the environment; the engine slot `Runs` does not see. -/
theorem Runs.sameEnvironment {C : Call → Prop} {s : State} {p : Progress} (h : Runs C s p)
    (he : p.state.engine = s.engine) : SameEnvironment s p.state :=
  ⟨h.params, h.gpioReady, h.pending, he⟩

theorem SameEnvironment.finish {s : State} {p : Progress} (h : SameEnvironment s p.state) (v : OkValue) :
    SameEnvironment s (p.finish v) := by
  obtain ⟨r, hr⟩ := p.finish_eq_ret v
  rw [hr]
  exact ⟨h.params, h.gpioReady, h.pending, h.engine⟩

theorem SameEnvironment.configure {s : State} {p : Progress} (h : SameEnvironment s p.state)
    (cfg : TransmitterConfig) : SameEnvironment s (p.configure cfg) := by
  obtain ⟨v, r, hr⟩ := p.configure_eq_ret cfg
  rw [hr]
  exact ⟨h.params, h.gpioReady, h.pending, h.engine⟩

theorem SameEnvironment.emitted {s : State} {p : Progress} (h : SameEnvironment s p.state)
    (next : Option Emission) : SameEnvironment s (p.emitted next) := by
  obtain ⟨e, r, hr⟩ := p.emitted_eq_ret next
  rw [hr]
  exact ⟨h.params, h.gpioReady, h.pending, h.engine⟩

/-- The calls of `initSoftware` leave the engine slot. -/
theorem initCalls_engine (sclk mosi : Pin) (cs : Option Pin) (s : State) :
    ((modeCalls (modePins sclk mosi cs).length (modePins sclk mosi cs) s).andThen
      (primeClock sclk mosi cs)).state.engine = s.engine :=
  andThen_engine (modeCalls_engine _ _ s) (primeClock_engine sclk mosi cs)

theorem exec_sameEnvironment {i : Instr} {s t : State} (h : exec i s = .next t) : SameEnvironment s t := by
  cases exec_effect h with
  | rejected c _ result => exact result ▸ SameEnvironment.ret s _
  | made f _ result => exact result ▸ SameEnvironment.ret s _
  | wrote cfg p idle _ _ runs done result =>
    exact result ▸ (runs.sameEnvironment (done.trans idle.1.symm)).finish _
  | emitted cfg bytes next quiet _ _ runs done result =>
    exact result ▸ (runs.sameEnvironment (done.trans quiet.symm)).emitted _
  | setUpHardware c ch _ _ _ result =>
    exact result ▸ ((spiSetup_runs ch _ s).sameEnvironment (spiSetup_engine ch _ s)).configure _
  | setUpSoftware a b c sclk mosi cs _ _ _ _ _ _ result =>
    exact result ▸ ((initCalls_runs sclk mosi cs s).sameEnvironment (initCalls_engine sclk mosi cs s)).configure _

/-! ### The position of a stream issued emission by emission -/

theorem Progress.finish_emission (p : Progress) (v : OkValue) : (p.finish v).emission = p.state.emission := by
  obtain ⟨r, hr⟩ := p.finish_eq_ret v
  rw [hr, State.ret_emission]

theorem Progress.configure_emission (p : Progress) (cfg : TransmitterConfig) :
    (p.configure cfg).emission = p.state.emission := by
  obtain ⟨v, r, hr⟩ := p.configure_eq_ret cfg
  rw [hr, State.ret_emission, State.setInst_emission]

/-- Log 1: an operation that is no emission step leaves the position where it was. -/
theorem exec_emission {i : Instr} {s t : State} (hi : isEmission i = false) (h : exec i s = .next t) :
    t.emission = s.emission := by
  cases exec_effect h with
  | rejected c _ result => rw [result, State.ret_emission]
  | made f _ result => rw [result, State.ret_emission]
  | wrote cfg p _ _ _ runs _ result => rw [result, Progress.finish_emission, runs.emission]
  | emitted cfg bytes next _ _ call _ _ _ => exact absurd call.isEmission_eq_true (by simp [hi])
  | setUpHardware c ch _ _ _ result =>
    rw [result, Progress.configure_emission, (spiSetup_runs ch _ s).emission]
  | setUpSoftware a b c sclk mosi cs _ _ _ _ _ _ result =>
    rw [result, Progress.configure_emission, (initCalls_runs sclk mosi cs s).emission]

/-- Settles O49, from the ways an instruction comes to a next state (`exec_effect`). -/
theorem operationsLeaveTheEnvironment : Obligations.OperationsLeaveTheEnvironment := by
  unfold Obligations.OperationsLeaveTheEnvironment
  intro i s t h
  obtain ⟨hparams, hready, hpending, hengine⟩ := exec_sameEnvironment h
  exact ⟨hparams, hready, hpending, hengine, fun hi => exec_emission hi h⟩

end Sys2Proof.Machine
end

section
/-! SUPPORT. What one step does with each input, and that every step keeps the invariant of `State.Inv`. -/

namespace Sys2Proof.Machine

/-! ### One step -/

theorem step_of_nil {s : State} (h : s.pending = []) : step s = .next s := by
  unfold step
  simp only [h]

theorem step_of_gpioSetup {s : State} {rest : List Input} (h : s.pending = .gpioSetup :: rest) :
    step s = takeGpioSetup { s with pending := rest } := by
  unfold step
  simp only [h]

theorem step_of_actorWrite {s : State} {p : Pin} {lvl : PinLevel} {rest : List Input}
    (h : s.pending = .actorWrite p lvl :: rest) : step s = takeActorWrite p lvl { s with pending := rest } := by
  unfold step
  simp only [h]

theorem step_of_fetch {s : State} {f : Fetch} {rest : List Input} (h : s.pending = .fetch f :: rest) :
    step s = runFetched f exec { s with pending := rest } := by
  unfold step
  simp only [h]

theorem takeGpioSetup_idle {s : State} (h : s.Idle) : takeGpioSetup s = .next { s with gpioReady := true } :=
  whenIdle_idle h

theorem takeActorWrite_idle {s : State} (p : Pin) (lvl : PinLevel) (h : s.Idle) :
    takeActorWrite p lvl s = .next (s.setLevel p lvl) :=
  whenIdle_idle h

theorem runFetched_error {f : Fetch} {e : DecodeError} {run : Instr → State → Host.Outcome State Fault Refusal}
    (s : State) (h : decode f = .error e) : runFetched f run s = .refused (.undecodable e) := by
  unfold runFetched
  simp only [h]

theorem runFetched_next {f : Fetch} {run : Instr → State → Host.Outcome State Fault Refusal} {s t : State}
    (h : runFetched f run s = .next t) : ∃ i, decode f = .ok i ∧ run i s = .next t := by
  unfold runFetched at h
  split at h
  · exact ⟨_, by assumption, h⟩
  · cases h

/-- The ways a step comes to a next state, by the oldest pending input (log 3). -/
inductive StepEffect (s t : State) : Prop where
  | stayed (input : s.pending = []) (result : t = s)
  | madeReady (rest : List Input) (input : s.pending = .gpioSetup :: rest)
      (result : t = { s with pending := rest, gpioReady := true })
  | actorWrote (p : Pin) (lvl : PinLevel) (rest : List Input) (input : s.pending = .actorWrite p lvl :: rest)
      (result : t = ({ s with pending := rest } : State).setLevel p lvl)
  | ran (f : Fetch) (rest : List Input) (i : Instr) (input : s.pending = .fetch f :: rest) (decoded : decode f = .ok i)
      (result : exec i { s with pending := rest } = .next t)

/-- Every next state of a step is one of `StepEffect`. -/
theorem step_effect {s t : State} (h : step s = .next t) : StepEffect s t := by
  cases hp : s.pending with
  | nil =>
    rw [step_of_nil hp] at h
    cases h
    exact .stayed hp rfl
  | cons input rest =>
    cases input with
    | gpioSetup =>
      rw [step_of_gpioSetup hp] at h
      obtain ⟨-, hnext⟩ := whenIdle_next h
      cases hnext
      exact .madeReady rest hp rfl
    | actorWrite p lvl =>
      rw [step_of_actorWrite hp] at h
      obtain ⟨-, hnext⟩ := whenIdle_next h
      cases hnext
      exact .actorWrote p lvl rest hp rfl
    | fetch f =>
      rw [step_of_fetch hp] at h
      obtain ⟨i, hi, hnext⟩ := runFetched_next h
      exact .ran f rest i hp hi hnext

/-- Settles O53, from the equations of `step` for each oldest input. -/
theorem stepTakesTheOtherInputs : Obligations.StepTakesTheOtherInputs := by
  unfold Obligations.StepTakesTheOtherInputs
  intro s rest
  refine ⟨step_of_nil, ?_, ?_, ?_⟩
  · intro hidle hp
    rw [step_of_gpioSetup hp]
    exact takeGpioSetup_idle hidle
  · intro p lvl hidle hp
    rw [step_of_actorWrite hp]
    exact takeActorWrite_idle p lvl hidle
  · intro f e hp hdecode
    rw [step_of_fetch hp, runFetched_error _ hdecode]

/-! ### A trace that grows -/

theorem Runs.trace_prefix {C : Call → Prop} {s : State} {p : Progress} (h : Runs C s p) :
    s.trace <+: p.state.trace := by
  obtain ⟨ev, htrace, -⟩ := h.events
  exact ⟨ev, htrace.symm⟩

theorem madeOutput_iff {tr : List Event} {p : Pin} : madeOutput tr p = true ↔ okEvent (.gpioMode p) ∈ tr :=
  decide_eq_true_iff

theorem madeOutput_of_subset {tr tr' : List Event} {p : Pin} (h : madeOutput tr p = true) (hsub : tr ⊆ tr') :
    madeOutput tr' p = true :=
  madeOutput_iff.2 (hsub (madeOutput_iff.1 h))

theorem Inst.setUpIn_of_subset {inst : Inst} {tr tr' : List Event} (h : inst.setUpIn tr) (hsub : tr ⊆ tr') :
    inst.setUpIn tr' := by
  rcases inst with _ | ch | ⟨sclk, mosi, cs⟩
  · trivial
  · exact hsub h
  · obtain ⟨hsclk, hmosi, hcs⟩ := h
    exact ⟨madeOutput_of_subset hsclk hsub, madeOutput_of_subset hmosi hsub,
      fun p hp => madeOutput_of_subset (hcs p hp) hsub⟩

/-- Writes to pins that the trace so far made outputs may follow it. -/
theorem ModesFirst.append {tr ev : List Event} (h : ModesFirst tr)
    (hev : ∀ e ∈ ev, ∀ p lvl, e.call = .gpioWrite p lvl → madeOutput tr p = true) : ModesFirst (tr ++ ev) := by
  intro before after p lvl mark heq
  have hwrite : ∀ mid, ev = mid ++ { call := .gpioWrite p lvl, mark := mark } :: after → madeOutput tr p = true :=
    fun mid hmid => hev { call := .gpioWrite p lvl, mark := mark } (by simp [hmid]) p lvl rfl
  rcases List.append_eq_append_iff.1 heq with ⟨mid, hbefore, hmid⟩ | ⟨mid, htr, hmid⟩
  · exact madeOutput_of_subset (hwrite mid hmid) (by simp [hbefore])
  · cases mid with
    | nil => exact madeOutput_of_subset (hwrite [] hmid.symm) (by simp [htr])
    | cons e mid =>
      obtain ⟨rfl, -⟩ := List.cons.inj hmid
      exact h before mid p lvl mark htr

/-! ### The calls the invariant allows -/

/-- R71, R93, R99, R107: after the trace `tr` the call keeps the invariant's clauses on calls, with a delay of `us`. -/
def KeepsInv (us : Nat) (tr : List Event) : Call → Prop
  | .gpioMode _ => True
  | .gpioWrite p _ => madeOutput tr p = true
  | .delay d => d = us
  | .spiSetup _ hz => hz = Config.hwFreqHz
  | .spiWrite _ bytes => bytes ≠ []

theorem KeepsInv.legal {us : Nat} {tr : List Event} {e : Event} (h : KeepsInv us tr e.call)
    (hdelay : ∀ d, e.call = .delay d → e.mark = .ok) : e.legal us = true := by
  obtain ⟨call, mark⟩ := e
  cases call with
  | gpioMode p => rfl
  | gpioWrite p lvl => rfl
  | delay d =>
    have hd : d = us := h
    have hmark : mark = .ok := hdelay d rfl
    simp [Event.legal, hd, hmark]
  | spiSetup ch hz => exact decide_eq_true h
  | spiWrite ch bytes => exact decide_eq_true h

/-- R90, R93: the engine of a configuration that is set up makes only such calls. -/
theorem WriterCall.keepsInv {us : Nat} {cfg : TransmitterConfig} {tr : List Event} {c : Call}
    (hcfg : (Inst.configured cfg).setUpIn tr) (hc : WriterCall us cfg c) : KeepsInv us tr c := by
  cases cfg with
  | hardware ch =>
    cases c with
    | gpioMode p => exact hc.elim
    | gpioWrite p lvl => exact hc.elim
    | delay d => exact hc.elim
    | spiSetup ch hz => exact hc.elim
    | spiWrite ch bytes => exact hc.2
  | software sclk mosi cs =>
    obtain ⟨hsclk, hmosi, -⟩ := hcfg
    cases c with
    | gpioMode p => exact hc.elim
    | gpioWrite p lvl =>
      rcases hc with rfl | rfl
      · exact hsclk
      · exact hmosi
    | delay d => exact hc
    | spiSetup ch hz => exact hc.elim
    | spiWrite ch bytes => exact hc.elim

theorem ModeCall.keepsInv {us : Nat} {pins : List Pin} {tr : List Event} {c : Call} (hc : ModeCall pins c) :
    KeepsInv us tr c := by
  cases c with
  | gpioMode p => trivial
  | gpioWrite p lvl => exact hc.elim
  | delay d => exact hc.elim
  | spiSetup ch hz => exact hc.elim
  | spiWrite ch bytes => exact hc.elim

theorem InitCall.keepsInv {us : Nat} {sclk : Pin} {pins : List Pin} {tr : List Event} {c : Call}
    (hsclk : madeOutput tr sclk = true) (hc : InitCall sclk pins c) : KeepsInv us tr c := by
  cases c with
  | gpioMode p => trivial
  | gpioWrite p lvl =>
    obtain ⟨rfl, -⟩ := hc
    exact hsclk
  | delay d => exact hc.elim
  | spiSetup ch hz => exact hc.elim
  | spiWrite ch bytes => exact hc.elim

/-! ### What keeps the invariant -/

/-- A piece of an operation whose calls the invariant allows keeps it. -/
theorem Runs.inv {s : State} {p : Progress} (h : Runs (KeepsInv s.params.tHoldUs s.trace) s p)
    (hengine : p.state.engine = none) (hs : s.Inv) : p.state.Inv := by
  obtain ⟨ev, htrace, hcalls, hdelay, -⟩ := h.events
  have hsub : s.trace ⊆ p.state.trace := h.trace_prefix.subset
  refine
    { idle := hengine
      legal := ?_
      modesFirst := ?_
      setUp := h.inst ▸ Inst.setUpIn_of_subset hs.setUp hsub
      frequency := fun ch hz hset => (h.setUps ch hz hset).elim (hs.frequency ch hz) id
      stream := by rw [h.emission, h.inst, h.params]; exact hs.stream }
  · rw [h.params, htrace]
    intro e he
    rcases List.mem_append.1 he with he | he
    · exact hs.legal e he
    · exact (hcalls e he).legal (hdelay e he)
  · rw [htrace]
    refine hs.modesFirst.append fun e he p lvl hcall => ?_
    have hkeep := hcalls e he
    rwa [hcall] at hkeep

theorem State.Inv.ret {s : State} (h : s.Inv) (r : Result) : (s.ret r).Inv :=
  ⟨h.idle, h.legal, h.modesFirst, h.setUp, h.frequency, h.stream⟩

theorem State.Inv.setInst {s : State} {cfg : TransmitterConfig} (h : s.Inv)
    (hcfg : (Inst.configured cfg).setUpIn s.trace) : (s.setInst (.configured cfg)).Inv :=
  ⟨h.idle, h.legal, h.modesFirst, hcfg, h.frequency, fun e he => ⟨Inst.noConfusion, (h.stream e he).2⟩⟩

theorem State.Inv.setEmission {s : State} {next : Option Emission} (h : s.Inv)
    (hnext : ∀ e, next = some e → s.inst ≠ .unconfigured ∧ e.legal s.params.nMax = true) :
    (s.setEmission next).Inv :=
  ⟨h.idle, h.legal, h.modesFirst, h.setUp, h.frequency, hnext⟩

theorem State.Inv.setPending {s : State} (h : s.Inv) (rest : List Input) : ({ s with pending := rest } : State).Inv :=
  ⟨h.idle, h.legal, h.modesFirst, h.setUp, h.frequency, h.stream⟩

theorem State.Inv.setLevel {s : State} (h : s.Inv) (p : Pin) (lvl : PinLevel) : (s.setLevel p lvl).Inv :=
  ⟨h.idle, h.legal, h.modesFirst, h.setUp, h.frequency, h.stream⟩

theorem State.Inv.makeReady {s : State} (h : s.Inv) : ({ s with gpioReady := true } : State).Inv :=
  ⟨h.idle, h.legal, h.modesFirst, h.setUp, h.frequency, h.stream⟩

theorem State.Inv.finish {p : Progress} (h : p.state.Inv) (v : OkValue) : (p.finish v).Inv := by
  obtain ⟨r, hr⟩ := p.finish_eq_ret v
  rw [hr]
  exact h.ret r

/-- R75: the configuration of a successful init is set up, that of a failed one is not taken over. -/
theorem State.Inv.configure {p : Progress} {cfg : TransmitterConfig} (h : p.state.Inv)
    (hcfg : ∀ t, p = .going t → (Inst.configured cfg).setUpIn t.trace) : (p.configure cfg).Inv := by
  cases p with
  | going t => exact (h.setInst (hcfg t rfl)).ret _
  | aborted t => exact h.ret _

theorem State.Inv.emitted {p : Progress} {next : Option Emission} (h : p.state.Inv)
    (hnext : ∀ e, next = some e → p.state.inst ≠ .unconfigured ∧ e.legal p.state.params.nMax = true) :
    (p.emitted next).Inv := by
  cases p with
  | going t => exact (h.setEmission hnext).ret _
  | aborted t => exact (h.setEmission (next := none) (by simp)).ret _

/-- R54, R58: a stream is left short of its last end-frame byte. -/
theorem endsAfter_legal {nMax : Option Nat} {n m : Nat} {e : Emission} (hn : 1 ≤ n) (hm : 1 ≤ m)
    (hbound : withinNMax nMax n = true) (h : endsAfter n m = some e) : e.legal nMax = true := by
  unfold endsAfter at h
  split at h
  · next hlt =>
    cases h
    simp [Emission.legal, hn, hm, hbound, hlt]
  · cases h

/-- R58, R77: an emission step leaves a stream in a position of R58. -/
theorem EmissionOf.legal {i : Instr} {s : State} {bytes : List Byte} {next : Option Emission}
    (h : EmissionOf i s bytes next) (hs : s.Inv) {e : Emission} (he : next = some e) :
    e.legal s.params.nMax = true := by
  cases h with
  | start _ _ =>
    cases he
    rfl
  | led _ _ _ _ n _ _ hbound =>
    cases he
    simp [Emission.legal, hbound]
  | firstEnd n _ hposition hn =>
    have hbound : withinNMax s.params.nMax n = true := by
      simpa [Emission.legal, hn] using (hs.stream _ hposition).2
    exact endsAfter_legal (Nat.one_le_iff_ne_zero.2 hn) (le_refl 1) hbound he
  | nextEnd n m _ hposition =>
    have hlegal := (hs.stream _ hposition).2
    simp only [Emission.legal, Bool.and_eq_true, decide_eq_true_eq] at hlegal
    obtain ⟨⟨⟨hn, hbound⟩, -⟩, -⟩ := hlegal
    exact endsAfter_legal hn (Nat.le_add_left 1 m) hbound he

/-! ### The set-up calls of a successful init are in the trace -/

theorem callCollaborator_going {c : Call} {good bad : State → State} {s t : State} (hgood : Harmless good)
    (h : callCollaborator c good bad s = .going t) : okEvent c ∈ t.trace := by
  rcases callCollaborator_cases c good bad s with ⟨-, hcall⟩ | ⟨-, hcall⟩
  · rw [h] at hcall
    cases hcall
    simp [hgood.trace, okEvent]
  · rw [h] at hcall
    cases hcall

theorem gpioMode_going {p : Pin} {s t : State} (h : gpioMode p s = .going t) : okEvent (.gpioMode p) ∈ t.trace :=
  callCollaborator_going (harmless_mode p _) h

theorem spiSetup_going {ch : Channel} {hz : Nat} {s t : State} (h : spiSetup ch hz s = .going t) :
    okEvent (.spiSetup ch hz) ∈ t.trace :=
  callCollaborator_going (harmless_setSpi ch _) h

theorem Progress.andThen_going {p : Progress} {f : State → Progress} {t : State} (h : p.andThen f = .going t) :
    ∃ u, p = .going u ∧ f u = .going t := by
  cases p with
  | going u => exact ⟨u, rfl, h⟩
  | aborted u => cases h

/-- R71: when no mode call failed, every pin of the list has had its own. -/
theorem modeCalls_going {fuel : Nat} {pins : List Pin} {s t : State} (hfuel : pins.length = fuel)
    (h : modeCalls fuel pins s = .going t) : ∀ p ∈ pins, madeOutput t.trace p = true := by
  induction fuel generalizing pins s with
  | zero =>
    rw [List.length_eq_zero_iff.1 hfuel]
    simp
  | succ fuel ih =>
    have hlt : s.draws.takeOrder.1 % pins.length < pins.length := Nat.mod_lt _ (by omega)
    simp only [modeCalls, List.getElem?_eq_getElem hlt] at h
    obtain ⟨u, hmode, hrest⟩ := Progress.andThen_going h
    have hgrows : u.trace <+: t.trace := by
      have := (modeCalls_runs fuel (pins.eraseIdx (s.draws.takeOrder.1 % pins.length)) u).trace_prefix
      rwa [hrest] at this
    intro p hp
    rcases List.mem_cons.1 ((List.getElem_cons_eraseIdx_perm hlt).mem_iff.2 hp) with rfl | hleft
    · exact madeOutput_iff.2 (hgrows.subset (gpioMode_going hmode))
    · exact ih (by rw [List.length_eraseIdx_of_lt hlt]; omega) hrest p hleft

/-! ### Every instruction and every step -/

theorem writer_keepsInv {s : State} {p : Progress} {cfg : TransmitterConfig} (hs : s.Inv)
    (hcfg : s.inst = .configured cfg) (hruns : Runs (WriterCall s.params.tHoldUs cfg) s p)
    (hdone : p.state.engine = none) : p.state.Inv :=
  (hruns.mono fun _ hc => hc.keepsInv (hcfg ▸ hs.setUp)).inv hdone hs

theorem initHardware_keepsInv {s : State} (hs : s.Inv) (ch : Channel) :
    ((spiSetup ch Config.hwFreqHz s).configure (.hardware ch)).Inv := by
  have hruns := (spiSetup_runs ch Config.hwFreqHz s).mono (D := KeepsInv s.params.tHoldUs s.trace)
    (by rintro c rfl; exact rfl)
  have hinv := hruns.inv ((spiSetup_engine ch _ s).trans hs.idle) hs
  exact hinv.configure fun t ht => spiSetup_going ht

/-- R71, R72: the mode calls come first, so the priming write finds its pin an output. -/
theorem primeClock_keepsInv {s : State} {sclk : Pin} (hs : s.Inv) (hsclk : madeOutput s.trace sclk = true)
    (mosi : Pin) (cs : Option Pin) : (primeClock sclk mosi cs s).state.Inv :=
  ((primeClock_runs sclk mosi cs [] s).mono fun _ hc => hc.keepsInv hsclk).inv
    ((primeClock_engine sclk mosi cs s).trans hs.idle) hs

theorem modeCalls_keepsInv {s : State} (hs : s.Inv) (fuel : Nat) (pins : List Pin) :
    (modeCalls fuel pins s).state.Inv :=
  ((modeCalls_runs fuel pins s).mono fun _ hc => hc.keepsInv).inv ((modeCalls_engine fuel pins s).trans hs.idle) hs

theorem setUpIn_of_modePins {sclk mosi : Pin} {cs : Option Pin} {tr : List Event}
    (h : ∀ p ∈ modePins sclk mosi cs, madeOutput tr p = true) :
    (Inst.configured (.software sclk mosi cs)).setUpIn tr :=
  ⟨h sclk (by simp [modePins]), h mosi (by simp [modePins]), fun p hp => h p (by simp [modePins, hp])⟩

theorem initSoftware_keepsInv {s : State} (hs : s.Inv) (sclk mosi : Pin) (cs : Option Pin) :
    (((modeCalls (modePins sclk mosi cs).length (modePins sclk mosi cs) s).andThen
      (primeClock sclk mosi cs)).configure (.software sclk mosi cs)).Inv := by
  have hmodes := modeCalls_keepsInv hs (modePins sclk mosi cs).length (modePins sclk mosi cs)
  cases hcalls : modeCalls (modePins sclk mosi cs).length (modePins sclk mosi cs) s with
  | aborted u =>
    rw [hcalls] at hmodes
    exact State.Inv.configure hmodes fun t ht => by cases ht
  | going u =>
    rw [hcalls] at hmodes
    have hset := setUpIn_of_modePins (modeCalls_going rfl hcalls)
    have hprimed := primeClock_keepsInv hmodes hset.1 mosi cs
    have hgrows := (primeClock_runs sclk mosi cs [] u).trace_prefix
    refine State.Inv.configure hprimed fun t ht => Inst.setUpIn_of_subset hset ?_
    rw [Progress.going_andThen] at ht
    rw [ht] at hgrows
    exact hgrows.subset

/-- R103, R104: however an instruction returns, it leaves the machine in its invariant. -/
theorem exec_keepsInv {i : Instr} {s t : State} (hs : s.Inv) (h : exec i s = .next t) : t.Inv := by
  cases exec_effect h with
  | rejected c _ result => exact result ▸ hs.ret _
  | made f _ result => exact result ▸ hs.ret _
  | wrote cfg p _ config _ runs done result => exact result ▸ (writer_keepsInv hs config runs done).finish _
  | emitted cfg bytes next _ config call runs done result =>
    subst result
    refine (writer_keepsInv hs config runs done).emitted fun e he => ?_
    rw [runs.inst, runs.params, config]
    exact ⟨Inst.noConfusion, call.legal hs he⟩
  | setUpHardware c ch _ _ _ result => exact result ▸ initHardware_keepsInv hs ch
  | setUpSoftware a b c sclk mosi cs _ _ _ _ _ _ result => exact result ▸ initSoftware_keepsInv hs sclk mosi cs

/-- Settles O55, by the input the step takes and the way its instruction returns (`exec_keepsInv`). -/
theorem stepKeepsTheInvariant : Obligations.StepKeepsTheInvariant := by
  unfold Obligations.StepKeepsTheInvariant
  intro s t hs h
  cases step_effect h with
  | stayed _ result => exact result ▸ hs
  | madeReady rest _ result => exact result ▸ (hs.setPending rest).makeReady
  | actorWrote p lvl rest _ result => exact result ▸ (hs.setPending rest).setLevel p lvl
  | ran f rest i _ _ result => exact exec_keepsInv (hs.setPending rest) result

/-! ### Reset -/

theorem level_reset (p : Pin) : State.reset.level p = none := Vector.getElem_replicate _

theorem mode_reset (p : Pin) : State.reset.mode p = .unspecified := Vector.getElem_replicate _

theorem spiOf_reset (ch : Channel) : State.reset.spiOf ch = .notSetUp := Vector.getElem_replicate _

/-- Settles O57: the fields as `State.reset` writes them, each pin and channel by itself. -/
theorem resetState : Obligations.ResetState :=
  ⟨rfl, rfl, rfl, level_reset, mode_reset, spiOf_reset, rfl, rfl⟩

/-- An empty trace has no write. -/
theorem modesFirst_nil : ModesFirst [] := by
  intro before after p lvl mark h
  simp at h

/-- Settles O56: no call is made yet, no channel set up and no stream begun. -/
theorem resetMeetsTheInvariant : Obligations.ResetMeetsTheInvariant where
  idle := rfl
  legal _ he := absurd he List.not_mem_nil
  modesFirst := modesFirst_nil
  setUp := trivial
  frequency ch hz h := by
    rw [spiOf_reset] at h
    cases h
  stream e he := by cases he

end Sys2Proof.Machine
end

section
/-! SUPPORT. Which collaborator calls an instruction can make, and what its return adds to what they came to. -/

namespace Sys2Proof.Machine

/-! ### The calls of an instruction -/

/-- R107: the calls the instruction `i` can make from `s`: the engine's of the configuration, or an init's own. -/
inductive OpCall (i : Instr) (s : State) (c : Call) : Prop where
  | writer (cfg : TransmitterConfig) (config : s.inst = .configured cfg) (call : WriterCall s.params.tHoldUs cfg c)
  | initHardware (ch : Channel) (instr : i = .initHardware ch.val) (call : c = .spiSetup ch Config.hwFreqHz)
  | initSoftware (x y z : Int) (sclk mosi : Pin) (cs : Option Pin) (instr : i = .initSoftware x y z)
      (sclkOperand : pinOf x = some sclk) (mosiOperand : pinOf y = some mosi) (csOperand : csOf z = some cs)
      (call : InitCall sclk (modePins sclk mosi cs) c)

/-- R70, R71: a mode call is `initSoftware`'s, for a pin of its operands. -/
theorem OpCall.of_gpioMode {i : Instr} {s : State} {p : Pin} (h : OpCall i s (.gpioMode p)) :
    ∃ a b c, i = .initSoftware a b c ∧ ((p.val : Int) = a ∨ (p.val : Int) = b ∨ (p.val : Int) = c) := by
  cases h with
  | writer cfg _ call => cases cfg <;> exact call.elim
  | initHardware ch _ call => cases call
  | initSoftware x y z sclk mosi cs instr hsclk hmosi hcs call =>
    have hp : p ∈ modePins sclk mosi cs := call
    simp only [modePins, List.cons_append, List.nil_append, List.mem_cons, Option.mem_toList] at hp
    refine ⟨x, y, z, instr, ?_⟩
    rcases hp with rfl | rfl | rfl
    · exact .inl (val_of_pinOf hsclk)
    · exact .inr (.inl (val_of_pinOf hmosi))
    · exact .inr (.inr (val_of_csOf hcs))

/-- R67, R69: a setup call is `initHardware`'s, for its channel. -/
theorem OpCall.of_spiSetup {i : Instr} {s : State} {ch : Channel} {hz : Nat} (h : OpCall i s (.spiSetup ch hz)) :
    i = .initHardware (ch.val : Int) := by
  cases h with
  | writer cfg _ call => cases cfg <;> exact call.elim
  | initHardware ch' instr call =>
    cases call
    exact instr
  | initSoftware _ _ _ _ _ _ _ _ _ _ call => exact call.elim

/-! ### What a return adds -/

/-- R101: a failed call has ended the operation. -/
def Progress.Failed : Progress → Prop
  | .going _ => False
  | .aborted _ => True

/-- R33, R99: `t` is what the operation's calls came to, after its return: one return value more, TransportError
exactly when a call failed, and the trace and the collaborators' state as the calls left them. -/
structure Returned (p : Progress) (t : State) : Prop where
  trace : t.trace = p.state.trace
  modes : t.modes = p.state.modes
  levels : t.levels = p.state.levels
  spi : t.spi = p.state.spi
  result : ∃ r, t.results = p.state.results ++ [r] ∧ (r = .transportError ↔ p.Failed)

theorem Returned.ret (s : State) {r : Result} (h : r ≠ .transportError) : Returned (.going s) (s.ret r) :=
  ⟨rfl, rfl, rfl, rfl, r, rfl, iff_of_false h id⟩

theorem Returned.finish (p : Progress) (v : OkValue) : Returned p (p.finish v) := by
  cases p with
  | going s => exact .ret s Result.noConfusion
  | aborted s => exact ⟨rfl, rfl, rfl, rfl, _, rfl, iff_of_true rfl trivial⟩

theorem Returned.configure (p : Progress) (cfg : TransmitterConfig) : Returned p (p.configure cfg) := by
  cases p with
  | going s => exact ⟨rfl, rfl, rfl, rfl, _, rfl, iff_of_false Result.noConfusion id⟩
  | aborted s => exact ⟨rfl, rfl, rfl, rfl, _, rfl, iff_of_true rfl trivial⟩

theorem Returned.emitted (p : Progress) (next : Option Emission) : Returned p (p.emitted next) := by
  cases p with
  | going s => exact ⟨rfl, rfl, rfl, rfl, _, rfl, iff_of_false Result.noConfusion id⟩
  | aborted s => exact ⟨rfl, rfl, rfl, rfl, _, rfl, iff_of_true rfl trivial⟩

theorem Returned.mode {p : Progress} {t : State} (h : Returned p t) (q : Pin) : t.mode q = p.state.mode q := by
  simp only [State.mode, h.modes]

theorem Returned.spiOf {p : Progress} {t : State} (h : Returned p t) (ch : Channel) : t.spiOf ch = p.state.spiOf ch := by
  simp only [State.spiOf, h.spi]

/-- Every instruction that answers a next state makes calls of its own kinds and returns. -/
theorem exec_runs {i : Instr} {s t : State} (h : exec i s = .next t) :
    ∃ p, Runs (OpCall i s) s p ∧ Returned p t := by
  cases exec_effect h with
  | rejected c _ result => exact ⟨.going s, .refl _ s, result ▸ .ret s Result.noConfusion⟩
  | made f _ result => exact ⟨.going s, .refl _ s, result ▸ .ret s Result.noConfusion⟩
  | wrote cfg p _ config _ runs _ result =>
    exact ⟨p, runs.mono fun _ hc => .writer cfg config hc, result ▸ .finish p _⟩
  | emitted cfg bytes next _ config _ runs _ result =>
    exact ⟨_, runs.mono fun _ hc => .writer cfg config hc, result ▸ .emitted _ _⟩
  | setUpHardware c ch _ call operand result =>
    have hinstr : i = .initHardware ch.val := by rw [call, val_of_channelOf operand]
    exact ⟨_, (spiSetup_runs ch _ s).mono fun _ hc => .initHardware ch hinstr hc, result ▸ .configure _ _⟩
  | setUpSoftware a b c sclk mosi cs _ _ call hsclk hmosi hcs result =>
    exact ⟨_, (initCalls_runs sclk mosi cs s).mono fun _ hc => .initSoftware a b c sclk mosi cs call hsclk hmosi hcs hc,
      result ▸ .configure _ _⟩

/-- Settles O48, from the calls that change a mode or a setup. -/
theorem onlyInitsWriteModesAndSetups : Obligations.OnlyInitsWriteModesAndSetups := by
  unfold Obligations.OnlyInitsWriteModesAndSetups
  intro i s t h
  obtain ⟨p, hruns, hreturned⟩ := exec_runs h
  constructor
  · intro q hchanged
    rw [hreturned.mode] at hchanged
    have hcall : OpCall i s (.gpioMode q) := by_contra fun hno => hchanged (hruns.modes q hno)
    exact hcall.of_gpioMode
  · intro ch hchanged
    rw [hreturned.spiOf] at hchanged
    have hcall : ∃ hz, OpCall i s (.spiSetup ch hz) :=
      by_contra fun hno => hchanged (hruns.spi ch (not_exists.1 hno))
    obtain ⟨hz, hcall⟩ := hcall
    exact hcall.of_spiSetup

/-! ### A failed call is the last one -/

theorem Marked.dropLast_ok {ev : List Event} {p : Progress} (h : Marked ev p) : ∀ e ∈ ev.dropLast, e.mark = .ok := by
  cases p with
  | going s => exact fun e he => h e (List.mem_of_mem_dropLast he)
  | aborted s =>
    obtain ⟨before, c, rfl, hbefore⟩ := h
    rwa [List.dropLast_concat]

theorem Marked.failed_iff {ev : List Event} {p : Progress} (h : Marked ev p) :
    p.Failed ↔ ∃ e, ev.getLast? = some e ∧ e.mark = .failed := by
  cases p with
  | going s =>
    refine iff_of_false id ?_
    rintro ⟨e, hlast, hfailed⟩
    have hok : e.mark = .ok := h e (List.mem_of_getLast? hlast)
    rw [hok] at hfailed
    cases hfailed
  | aborted s =>
    obtain ⟨before, c, rfl, -⟩ := h
    exact iff_of_true trivial ⟨failedEvent c, List.getLast?_concat, rfl⟩

/-- Settles O44, from the marks of an operation's events and the value it returns. -/
theorem aFailedCallEndsTheOperation : Obligations.AFailedCallEndsTheOperation := by
  unfold Obligations.AFailedCallEndsTheOperation
  intro i s t h
  obtain ⟨p, hruns, hreturned⟩ := exec_runs h
  obtain ⟨ev, htrace, -, hdelay, hmarked⟩ := hruns.events
  obtain ⟨r, hresults, hr⟩ := hreturned.result
  exact ⟨ev, r, hreturned.trace.trans htrace, hresults.trans (by rw [hruns.results]), hmarked.dropLast_ok, hdelay,
    hr.trans hmarked.failed_iff⟩

/-! ### What replaces `inst` -/

theorem Progress.finish_inst (p : Progress) (v : OkValue) : (p.finish v).inst = p.state.inst := by
  obtain ⟨r, hr⟩ := p.finish_eq_ret v
  rw [hr, State.ret_inst]

theorem Progress.emitted_inst (p : Progress) (next : Option Emission) : (p.emitted next).inst = p.state.inst := by
  obtain ⟨e, r, hr⟩ := p.emitted_eq_ret next
  rw [hr, State.ret_inst, State.setEmission_inst]

/-- R75: an init leaves `inst`, or returns the configuration it replaces it by. -/
theorem Runs.configure_inst {C : Call → Prop} {s : State} {p : Progress} (h : Runs C s p) (cfg : TransmitterConfig) :
    (p.configure cfg).inst = s.inst ∨
      (p.configure cfg).inst = .configured cfg ∧
        (p.configure cfg).results = s.results ++ [.ok (.transmitter cfg)] := by
  rw [← h.inst, ← h.results]
  cases p with
  | going u => exact .inr ⟨rfl, rfl⟩
  | aborted u => exact .inl rfl

/-- Settles O45, by the ways an instruction comes to a next state: only the two inits replace `inst`. -/
theorem onlyASuccessfulInitChangesInst : Obligations.OnlyASuccessfulInitChangesInst := by
  unfold Obligations.OnlyASuccessfulInitChangesInst
  intro i s t h
  cases exec_effect h with
  | rejected c _ result => exact .inl (by rw [result, State.ret_inst])
  | made f _ result => exact .inl (by rw [result, State.ret_inst])
  | wrote cfg p _ _ _ runs _ result => exact .inl (by rw [result, Progress.finish_inst, runs.inst])
  | emitted cfg bytes next _ _ _ runs _ result => exact .inl (by rw [result, Progress.emitted_inst, runs.inst])
  | setUpHardware c ch _ call _ result =>
    subst result
    exact ((spiSetup_runs ch _ s).configure_inst _).imp_right fun ⟨hinst, hresults⟩ =>
      ⟨_, hinst, hresults, .inl ⟨c, call⟩⟩
  | setUpSoftware a b c sclk mosi cs _ _ call _ _ _ result =>
    subst result
    exact ((initCalls_runs sclk mosi cs s).configure_inst _).imp_right fun ⟨hinst, hresults⟩ =>
      ⟨_, hinst, hresults, .inr ⟨a, b, c, call⟩⟩

end Sys2Proof.Machine
end

section
/-! SUPPORT. The bit under the cursor of a stream, part by part of the stream (R26, R40, R78). -/

namespace Sys2Proof.Machine

/-! ### Bits of byte lists -/

theorem bitAt_append_left {a : List Byte} (b : List Byte) {k : Nat} (h : k < 8 * a.length) :
    bitAt (a ++ b) k = bitAt a k := by
  have hk : k / 8 < a.length := by omega
  simp only [bitAt, List.getD_append _ _ _ _ hk]

theorem bitAt_append_right {a : List Byte} (b : List Byte) {k : Nat} (h : 8 * a.length ≤ k) :
    bitAt (a ++ b) k = bitAt b (k - 8 * a.length) := by
  have hk : a.length ≤ k / 8 := by omega
  have hdiv : (k - 8 * a.length) / 8 = k / 8 - a.length := by omega
  have hmod : (k - 8 * a.length) % 8 = k % 8 := by omega
  simp only [bitAt, List.getD_append_right _ _ _ _ hk, hdiv, hmod]

theorem bitAt_replicate {n k : Nat} (b : Byte) (h : k < 8 * n) :
    bitAt (List.replicate n b) k = b.getLsbD (7 - k % 8) := by
  have hk : k / 8 < n := by omega
  simp only [bitAt, List.getD_replicate _ hk]

/-- R52: a start bit is 0. -/
theorem bitAt_startFrame {k : Nat} (h : k < 32) : bitAt startFrame k = false := by
  rw [startFrame, bitAt_replicate _ (by simpa [Config.startBytes] using h), BitVec.getLsbD_zero]

/-- R54: an end bit is 1. -/
theorem bitAt_endFrame {n k : Nat} (h : k < 8 * endBytes n) : bitAt (endFrame n) k = true := by
  have hbit : ∀ j < 8, Config.endByte.getLsbD (7 - j) = true := by decide
  rw [endFrame, bitAt_replicate _ h]
  exact hbit _ (Nat.mod_lt k (by decide))

/-- R41, R53: the bytes of an LED frame carry its word, most significant bit first. -/
theorem bitAt_ledBytes (f : LedFrame) {j : Nat} (h : j < 32) :
    bitAt (ledBytes f) j = (ledWord f).getLsbD (31 - j) := by
  simp only [bitAt, ledBytes, ledWord, BitVec.getLsbD_append]
  interval_cases j <;> simp

/-- R78: bit `j` of LED frame `i` comes after the 32 bits of each frame before it. -/
theorem bitAt_flatMap_ledBytes {fs : List LedFrame} {i j : Nat} {f : LedFrame} (hf : fs[i]? = some f) (hj : j < 32) :
    bitAt (fs.flatMap ledBytes) (32 * i + j) = (ledWord f).getLsbD (31 - j) := by
  induction fs generalizing i with
  | nil => cases hf
  | cons g fs ih =>
    have hlen : 8 * (ledBytes g).length = 32 := rfl
    rw [List.flatMap_cons]
    cases i with
    | zero =>
      cases hf
      rw [Nat.mul_zero, Nat.zero_add, bitAt_append_left _ (by omega), bitAt_ledBytes _ hj]
    | succ i =>
      rw [bitAt_append_right _ (by omega), hlen, show 32 * (i + 1) + j - 32 = 32 * i + j by omega]
      exact ih hf

/-! ### Bits of the stream -/

theorem bitAt_stream_start (fs : List LedFrame) {k : Nat} (h : k < 32) : bitAt (stream fs) k = false := by
  have hlen : 8 * startFrame.length = 32 := rfl
  rw [stream, List.append_assoc, bitAt_append_left _ (by omega), bitAt_startFrame h]

theorem bitAt_stream_led {fs : List LedFrame} {i j : Nat} {f : LedFrame} (hf : fs[i]? = some f) (hj : j < 32) :
    bitAt (stream fs) (32 + (32 * i + j)) = (ledWord f).getLsbD (31 - j) := by
  have hlen : 8 * startFrame.length = 32 := rfl
  have hi : i < fs.length := (List.getElem?_eq_some_iff.1 hf).1
  have hbody := length_flatMap_ledBytes fs
  rw [stream, bitAt_append_left _ (by rw [List.length_append]; omega), bitAt_append_right _ (by omega), hlen,
    Nat.add_sub_cancel_left, bitAt_flatMap_ledBytes hf hj]

theorem bitAt_stream_end {fs : List LedFrame} {k : Nat} (hlow : 32 + 32 * fs.length ≤ k)
    (hhigh : k < 8 * (stream fs).length) : bitAt (stream fs) k = true := by
  have hlen : 8 * (startFrame ++ fs.flatMap ledBytes).length = 32 + 32 * fs.length := by
    rw [List.length_append, length_flatMap_ledBytes]
    simp only [startFrame, List.length_replicate, Config.startBytes]
    omega
  rw [length_stream] at hhigh
  rw [stream, bitAt_append_right _ (by omega), hlen]
  exact bitAt_endFrame (by omega)

/-! ### The phases -/

theorem phaseOf_eq_start_iff {n k : Nat} : phaseOf n k = .start ↔ k < 32 := by
  unfold phaseOf
  split_ifs <;> simp <;> omega

theorem phaseOf_eq_led_iff {n k i : Nat} :
    phaseOf n k = .led i ↔ 32 + 32 * i ≤ k ∧ k < 64 + 32 * i ∧ i < n := by
  unfold phaseOf
  split_ifs <;> simp <;> omega

theorem phaseOf_eq_finish_iff {n k : Nat} : phaseOf n k = .finish ↔ 32 + 32 * n ≤ k := by
  unfold phaseOf
  split_ifs <;> simp <;> omega

/-- Settles O8, from the cursors of each phase and the bits of the stream's part there. -/
theorem cursorPhasesGiveTheBits : Obligations.CursorPhasesGiveTheBits := by
  unfold Obligations.CursorPhasesGiveTheBits
  intro fs k hk
  refine ⟨fun hphase => ?_, fun i hphase => ?_, fun hphase => ?_⟩
  · have hstart := phaseOf_eq_start_iff.1 hphase
    exact ⟨hstart, bitAt_stream_start fs hstart⟩
  · obtain ⟨hlow, hhigh, hi⟩ := phaseOf_eq_led_iff.1 hphase
    have hcursor : k = 32 + (32 * i + (k - 32) % 32) := by omega
    have hbit := bitAt_stream_led (List.getElem?_eq_getElem hi) (Nat.mod_lt (k - 32) (by decide))
    rw [← hcursor] at hbit
    exact ⟨hlow, hhigh, fs[i], List.getElem?_eq_getElem hi, hbit⟩
  · have hend := phaseOf_eq_finish_iff.1 hphase
    exact ⟨hend, bitAt_stream_end hend hk⟩

end Sys2Proof.Machine
end

section
/-! SUPPORT. The instructions that hand bits to a writer: what they run, what a failed call leaves of it, and what the
hardware engine leaves when every call is answered ok. -/

namespace Sys2Proof.Machine

/-! ### Scripted ok answers -/

/-- The answers that a part of an operation left over are ok for the rest of it. -/
theorem Draws.okFor_of_drop {d e : Draws} {used m n : Nat} (h : d.okFor (m + n)) (hused : used ≤ m)
    (he : e.fail = d.fail.drop used) : e.okFor n := by
  have htake : (d.fail.take (m + n)).take (used + n) = List.replicate (used + n) false := by
    rw [h, List.take_replicate, Nat.min_eq_left (by omega)]
  rw [List.take_take, Nat.min_eq_left (by omega)] at htake
  rw [Draws.okFor, he, List.take_drop, htake, List.drop_replicate, Nat.add_sub_cancel_left]

theorem Draws.okFor.mono {d : Draws} {m n : Nat} (h : d.okFor m) (hle : n ≤ m) : d.okFor n :=
  Draws.okFor_of_drop (m := m - n) (used := 0) (by rwa [Nat.sub_add_cancel hle]) (Nat.zero_le _) rfl

/-! ### What an instruction runs on the configured engine -/

/-- R77: within N_MAX, or unbounded. -/
theorem withinNMax_iff {nMax : Option Nat} {n : Nat} : withinNMax nMax n = true ↔ ∀ m, nMax = some m → n ≤ m := by
  cases nMax <;> simp [withinNMax]

theorem exec_update_configured {cfg : TransmitterConfig} {frames : List FrameArg} {s : State} (hidle : s.Idle)
    (hcfg : s.inst = .configured cfg) (hne : frames ≠ []) (hmax : ∀ m, s.params.nMax = some m → frames.length ≤ m) :
    exec (.update (some frames)) s = .next ((writeStream cfg (stream (frames.map frameValue))
      (8 * (stream (frames.map frameValue)).length) s).finish .unit) := by
  obtain ⟨f, fs, rfl⟩ := List.exists_cons_of_ne_nil hne
  simp only [exec, execUpdate, whenIdle_idle hidle, withDevice, hcfg, if_pos (withinNMax_iff.2 hmax)]

theorem checkedWrite_hardware {ch : Channel} {buf : List Byte} {nbits : Nat} {s : State}
    (hfit : nbits ≤ 8 * buf.length) (hwhole : nbits % 8 = 0) :
    checkedWrite (.hardware ch) buf nbits s = .next ((writeStream (.hardware ch) buf nbits s).finish .unit) := by
  simp only [checkedWrite, countFits, wholeBytes, hfit, hwhole, decide_true, if_true]

theorem exec_writeBits_configured {cfg : TransmitterConfig} (buf : List Byte) (nbits : Nat) {s : State}
    (hidle : s.Idle) (hcfg : s.inst = .configured cfg) :
    exec (.writeBits buf nbits) s = checkedWrite cfg buf nbits s := by
  simp only [exec, execWriteBits, whenIdle_idle hidle, withConfig, hcfg]

theorem exec_hwWriteBits_hardware {ch : Channel} (buf : List Byte) (nbits : Nat) {s : State} (hidle : s.Idle)
    (hcfg : s.inst = .configured (.hardware ch)) :
    exec (.hwWriteBits buf nbits) s = checkedWrite (.hardware ch) buf nbits s := by
  simp only [exec, execHwWriteBits, whenIdle_idle hidle, withConfig, hcfg]

/-- R81: an emission where a stream has it. -/
theorem emitFrame_configured {cfg : TransmitterConfig} (bytes : List Byte) (next : Option Emission) {s : State}
    (hquiet : s.engine = none) (hcfg : s.inst = .configured cfg) :
    emitFrame bytes (.ok next) s = .next ((writeStream cfg bytes (8 * bytes.length) s).emitted next) := by
  simp only [emitFrame, whenNoWriter_idle hquiet, withDevice, hcfg]

/-- With no operation under way a writer returns as an emission that ends a stream. -/
theorem writeStream_finish_eq_emitted {cfg : TransmitterConfig} {buf : List Byte} {nbits : Nat} {s : State}
    (hidle : s.Idle) (hfit : nbits ≤ 8 * buf.length) :
    (writeStream cfg buf nbits s).finish .unit = (writeStream cfg buf nbits s).emitted none :=
  finish_eq_emitted ((writeStream_runs cfg buf nbits s hfit).emission.trans hidle.2)

/-! ### What a writer leaves alone -/

theorem WriterCall.not_gpioMode {us : Nat} {cfg : TransmitterConfig} {p : Pin} :
    ¬ WriterCall us cfg (.gpioMode p) := by
  cases cfg <;> exact id

theorem WriterCall.not_spiSetup {us : Nat} {cfg : TransmitterConfig} {ch : Channel} {hz : Nat} :
    ¬ WriterCall us cfg (.spiSetup ch hz) := by
  cases cfg <;> exact id

/-- R30, R32: a writer's calls change no mode and no setup. -/
theorem Runs.sameBut_of_writer {us : Nat} {cfg : TransmitterConfig} {s : State} {p : Progress}
    (h : Runs (WriterCall us cfg) s p) (hengine : p.state.engine = s.engine) : SameBut s p.state where
  inst := h.inst
  engine := hengine
  emission := h.emission
  modes := Vector.ext fun q hq => h.modes ⟨q, hq⟩ WriterCall.not_gpioMode
  spi := Vector.ext fun ch hch => h.spi ⟨ch, hch⟩ fun _ => WriterCall.not_spiSetup
  gpioReady := h.gpioReady
  params := h.params
  pending := h.pending

/-- R81: the return of an emission changes the stream's position and the return values alone. -/
theorem SameBut.emitted {s : State} {p : Progress} (h : SameBut s p.state) (next : Option Emission) :
    SameBut s { p.emitted next with emission := s.emission } := by
  cases p <;> exact ⟨h.inst, h.engine, rfl, h.modes, h.spi, h.gpioReady, h.params, h.pending⟩

theorem writeStream_emitted_sameBut (cfg : TransmitterConfig) {buf : List Byte} {nbits : Nat} {s : State}
    (hquiet : s.engine = none) (hfit : nbits ≤ 8 * buf.length) (next : Option Emission) :
    SameBut s { (writeStream cfg buf nbits s).emitted next with emission := s.emission } :=
  ((writeStream_runs cfg buf nbits s hfit).sameBut_of_writer
    ((writeStream_engine cfg buf nbits s).trans hquiet.symm)).emitted next

/-! ### A failed transmission -/

/-- R82, R101: an emission returns TransportError only when a failed call has ended it. -/
theorem Progress.aborted_of_emitted {p : Progress} {next : Option Emission}
    (h : (p.emitted next).results = p.state.results ++ [.transportError]) : ∃ u, p = .aborted u := by
  cases p with
  | going u =>
    simp only [Progress.emitted, State.ret_results, State.setEmission_results, Progress.state_going,
      List.append_cancel_left_eq, List.cons.injEq, reduceCtorEq, false_and] at h
  | aborted u => exact ⟨u, rfl⟩

/-- R44, R82: an instruction that hands bits to the writer and returns TransportError ran the configured engine on them
until a call failed, and no stream is left begun. -/
theorem exec_sends_failed {i : Instr} {buf : List Byte} {nbits : Nat} {cfg : TransmitterConfig} {s t : State}
    (hcfg : s.inst = .configured cfg) (hsends : sends i = some (buf, nbits)) (h : exec i s = .next t)
    (hfailed : t.results = s.results ++ [.transportError]) :
    nbits ≤ 8 * buf.length ∧ (∀ ch, cfg = .hardware ch → nbits % 8 = 0) ∧
      SameBut s { t with emission := s.emission } ∧
      ∃ u, writeStream cfg buf nbits s = .aborted u ∧ t = (u.setEmission none).ret .transportError := by
  obtain ⟨hquiet, ⟨c, rfl⟩ | ⟨cfg', next, hcfg', hfit, hwhole, -, -, rfl⟩⟩ := exec_sends hsends h
  · simp at hfailed
  · obtain rfl : cfg = cfg' := by
      rw [hcfg] at hcfg'
      exact Inst.configured.inj hcfg'
    rw [← (writeStream_runs cfg buf nbits s hfit).results] at hfailed
    obtain ⟨u, hu⟩ := Progress.aborted_of_emitted hfailed
    exact ⟨hfit, hwhole, writeStream_emitted_sameBut cfg hquiet hfit next, u, hu, by rw [hu]; rfl⟩

/-- Settles O23: the writer that ran (`exec_sends_failed`) is the software engine, stopped inside its bits. -/
theorem softwareFailureSendsAPrefix : Obligations.SoftwareFailureSendsAPrefix := by
  unfold Obligations.SoftwareFailureSendsAPrefix
  intro i buf nbits sclk mosi cs s t hcfg hsends h hfailed
  obtain ⟨-, -, hframe, u, hu, rfl⟩ := exec_sends_failed hcfg hsends h hfailed
  rcases swEngine_cases sclk mosi buf nbits s with ⟨v, hv, -⟩ | ⟨v, hv, hstopped⟩
  · cases hu.symm.trans hv
  · cases hu.symm.trans hv
    obtain ⟨before, p, lvl, hprefix, htrace, hlevel⟩ := hstopped.trace
    exact ⟨before, p, lvl, hprefix, htrace, hlevel, rfl, hframe⟩

/-- Settles O26: the writer that ran (`exec_sends_failed`) is the hardware engine, stopped inside its bytes. -/
theorem hardwareFailureSendsAPrefix : Obligations.HardwareFailureSendsAPrefix := by
  unfold Obligations.HardwareFailureSendsAPrefix
  intro i buf nbits ch s t hcfg hsends h hfailed
  obtain ⟨hfit, hwhole, hframe, u, hu, rfl⟩ := exec_sends_failed hcfg hsends h hfailed
  rcases hwEngine_cases (ch := ch) s hfit (hwhole ch rfl) with ⟨v, hv, -⟩ | ⟨v, hv, hstopped⟩
  · cases hu.symm.trans hv
  · cases hu.symm.trans hv
    obtain ⟨chunks, c, n, hprefix, hchunks, hc, htrace, hn, hwire⟩ := hstopped.split
    exact ⟨chunks, c, n, hprefix, hchunks, hc, htrace, hn, hwire, hstopped.levels, rfl, hframe⟩

/-! ### A whole transmission on the hardware engine -/

/-- Chunks of one byte list after those of another. -/
theorem IsSplit.append {chunks chunks' : List (List Byte)} {bytes bytes' : List Byte} (h : IsSplit chunks bytes)
    (h' : IsSplit chunks' bytes') : IsSplit (chunks ++ chunks') (bytes ++ bytes') := by
  obtain ⟨hflat, hne⟩ := h
  obtain ⟨hflat', hne'⟩ := h'
  exact ⟨by rw [List.flatten_append, hflat, hflat'], List.forall_mem_append.2 ⟨hne, hne'⟩⟩

theorem HwSent.trans {ch : Channel} {bytes bytes' : List Byte} {s t u : State} (h : HwSent ch bytes s t)
    (h' : HwSent ch bytes' t u) (hparams : t.params = s.params) : HwSent ch (bytes ++ bytes') s u where
  trace := by
    obtain ⟨chunks, hsplit, htrace⟩ := h.trace
    obtain ⟨chunks', hsplit', htrace'⟩ := h'.trace
    exact ⟨chunks ++ chunks', hsplit.append hsplit', by rw [htrace', htrace]; simp [hwEvents]⟩
  wire := by rw [h'.wire, h.wire, hparams, bitsOf_append]; simp [spiEvents]
  levels := h'.levels.trans h.levels
  modes := h'.modes.trans h.modes
  spi := h'.spi.trans h.spi

/-- `t` is `s` after `calls` instructions that returned Ok and together sent `bytes` on the hardware engine, with every
call answered ok; they left the stream issued emission by emission at `position`. -/
structure StreamedOnHardware (ch : Channel) (bytes : List Byte) (calls : Nat) (position : Option Emission)
    (s t : State) : Prop where
  sent : HwSent ch bytes s t
  results : t.results = s.results ++ List.replicate calls (.ok .unit)
  emission : t.emission = position
  frame : SameBut s { t with emission := s.emission }
  answers : ∃ used, used ≤ bytes.length ∧ t.draws.fail = s.draws.fail.drop used

theorem StreamedOnHardware.refl (ch : Channel) (s : State) : StreamedOnHardware ch [] 0 s.emission s s where
  sent := ⟨⟨[], by simp [IsSplit], by simp [hwEvents]⟩, by simp [bitsOf, spiEvents], rfl, rfl, rfl⟩
  results := by simp
  emission := rfl
  frame := ⟨rfl, rfl, rfl, rfl, rfl, rfl, rfl, rfl⟩
  answers := ⟨0, le_refl _, rfl⟩

section

variable {ch : Channel} {bytes bytes' : List Byte} {calls calls' m : Nat} {position position' : Option Emission}
  {s t u : State}

theorem StreamedOnHardware.trans (h : StreamedOnHardware ch bytes calls position s t)
    (h' : StreamedOnHardware ch bytes' calls' position' t u) :
    StreamedOnHardware ch (bytes ++ bytes') (calls + calls') position' s u where
  sent := h.sent.trans h'.sent h.frame.params
  results := by rw [h'.results, h.results, List.append_assoc, List.replicate_append_replicate]
  emission := h'.emission
  frame :=
    { inst := h'.frame.inst.trans h.frame.inst
      engine := h'.frame.engine.trans h.frame.engine
      emission := rfl
      modes := h'.frame.modes.trans h.frame.modes
      spi := h'.frame.spi.trans h.frame.spi
      gpioReady := h'.frame.gpioReady.trans h.frame.gpioReady
      params := h'.frame.params.trans h.frame.params
      pending := h'.frame.pending.trans h.frame.pending }
  answers := by
    obtain ⟨used, hused, hfail⟩ := h.answers
    obtain ⟨used', hused', hfail'⟩ := h'.answers
    exact ⟨used + used', by rw [List.length_append]; omega, by rw [hfail', hfail, List.drop_drop]⟩

/-- The answers left over are ok for what comes next. -/
theorem StreamedOnHardware.okFor (h : StreamedOnHardware ch bytes calls position s t)
    (hok : s.draws.okFor (bytes.length + m)) : t.draws.okFor m := by
  obtain ⟨used, hused, hfail⟩ := h.answers
  exact Draws.okFor_of_drop hok hused hfail

/-- One instruction's bytes, the stream's position left out. -/
theorem StreamedOnHardware.sentOnHardware (h : StreamedOnHardware ch bytes 1 position s t) :
    SentOnHardware ch bytes s { t with emission := s.emission } :=
  ⟨h.sent.trace, h.results, h.sent.wire, h.sent.levels, h.frame⟩

/-- Several instructions' bytes, from no stream begun to none, their return values left out. -/
theorem StreamedOnHardware.sentOnHardware_of_ended (h : StreamedOnHardware ch bytes calls none s t)
    (hs : s.emission = none) : SentOnHardware ch bytes s { t with results := s.results ++ [.ok .unit] } :=
  ⟨h.sent.trace, rfl, h.sent.wire, h.sent.levels, { h.frame with emission := h.emission.trans hs.symm }⟩

end

/-- R93, R95: the hardware writer with every call answered ok. -/
theorem writeStream_hardware_emitted {ch : Channel} {buf : List Byte} {nbits : Nat} {s : State}
    (hquiet : s.engine = none) (hfit : nbits ≤ 8 * buf.length) (hwhole : nbits % 8 = 0)
    (hok : s.draws.okFor (nbits / 8)) (next : Option Emission) :
    StreamedOnHardware ch (buf.take (nbits / 8)) 1 next s ((writeStream (.hardware ch) buf nbits s).emitted next) := by
  have hframe := writeStream_emitted_sameBut (.hardware ch) hquiet hfit next
  have hresults := (writeStream_runs (.hardware ch) buf nbits s hfit).results
  obtain ⟨t, ht, hsent, -, used, hused, hfail⟩ := hwEngine_ok (ch := ch) hfit hwhole hok
  have hgoing : writeStream (.hardware ch) buf nbits s = .going t := ht
  rw [hgoing] at hframe hresults ⊢
  exact
    { sent := ⟨hsent.trace, hsent.wire, hsent.levels, hsent.modes, hsent.spi⟩
      results := congrArg (· ++ [Result.ok OkValue.unit]) hresults
      emission := rfl
      frame := hframe
      answers := ⟨used, by rw [List.length_take]; omega, hfail⟩ }

/-- R93, R95: with no operation under way, the hardware writer's return with every call answered ok. -/
theorem writeStream_hardware_finish {ch : Channel} {buf : List Byte} {nbits : Nat} {s : State} (hidle : s.Idle)
    (hfit : nbits ≤ 8 * buf.length) (hwhole : nbits % 8 = 0) (hok : s.draws.okFor (nbits / 8)) :
    SentOnHardware ch (buf.take (nbits / 8)) s ((writeStream (.hardware ch) buf nbits s).finish .unit) := by
  have h := writeStream_hardware_emitted (ch := ch) hidle.1 hfit hwhole hok none
  rw [writeStream_finish_eq_emitted hidle hfit]
  exact ⟨h.sent.trace, h.results, h.sent.wire, h.sent.levels,
    { h.frame with emission := h.emission.trans hidle.2.symm }⟩

/-- Settles O24: both instructions run the hardware writer (`writeStream_hardware_finish`). -/
theorem hardwareWriterSendsTheBytes : Obligations.HardwareWriterSendsTheBytes := by
  unfold Obligations.HardwareWriterSendsTheBytes
  intro buf nbits ch s hidle hcfg hfit hwhole hok
  refine ⟨_, ?_, ?_, writeStream_hardware_finish hidle hfit hwhole hok⟩
  · rw [exec_hwWriteBits_hardware _ _ hidle hcfg, checkedWrite_hardware hfit hwhole]
  · rw [exec_writeBits_configured _ _ hidle hcfg, checkedWrite_hardware hfit hwhole]

/-- R76, R93: `update` on the hardware engine with every call answered ok. -/
theorem exec_update_hardware {ch : Channel} {frames : List FrameArg} {s : State} (hidle : s.Idle)
    (hcfg : s.inst = .configured (.hardware ch)) (hne : frames ≠ [])
    (hmax : ∀ m, s.params.nMax = some m → frames.length ≤ m)
    (hok : s.draws.okFor (4 + 4 * frames.length + endBytes frames.length)) :
    ∃ t, exec (.update (some frames)) s = .next t ∧ SentOnHardware ch (stream (frames.map frameValue)) s t := by
  have hlen := length_stream (frames.map frameValue)
  rw [List.length_map] at hlen
  refine ⟨_, exec_update_configured hidle hcfg hne hmax, ?_⟩
  have h := writeStream_hardware_finish (ch := ch) (buf := stream (frames.map frameValue)) hidle (le_refl _)
    (Nat.mul_mod_right ..) (by rwa [Nat.mul_div_cancel_left _ (by decide), hlen])
  rwa [Nat.mul_div_cancel_left _ (by decide), List.take_length] at h

/-- Settles O32. -/
theorem hardwareUpdateSendsTheStream : Obligations.HardwareUpdateSendsTheStream := by
  unfold Obligations.HardwareUpdateSendsTheStream
  intro frames ch s hidle hcfg hne hmax hok
  exact exec_update_hardware hidle hcfg hne hmax hok

/-! ### The bits on the wire -/

/-- R91: from a LOW clock each bit is carried by its rising edge. -/
theorem wireBits_pulses (sclk : Pin) (bits : List Bool) :
    wireBits (pulses sclk bits) = bits.map fun b => some (levelOfBit b) := by
  induction bits with
  | nil => rfl
  | cons b bits ih => exact congrArg (some (levelOfBit b) :: ·) ih

/-- R95: the peripheral carries each bit. -/
theorem wireBits_spiEvents (ch : Channel) (mode : SpiMode) (bits : List Bool) :
    wireBits (spiEvents ch mode bits) = bits.map fun b => some (levelOfBit b) := by
  induction bits with
  | nil => rfl
  | cons b bits ih => exact congrArg (some (levelOfBit b) :: ·) ih

/-- R91: `update` on the software engine, from a LOW clock on two pins and with every call answered ok. -/
theorem exec_update_software_wire {sclk mosi : Pin} {cs : Option Pin} {frames : List FrameArg} {s : State}
    (hidle : s.Idle) (hcfg : s.inst = .configured (.software sclk mosi cs)) (hne : frames ≠ [])
    (hmax : ∀ m, s.params.nMax = some m → frames.length ≤ m) (hpins : sclk ≠ mosi) (hlow : s.level sclk = some .low)
    (hok : s.draws.okFor (3 * (32 + 32 * frames.length + 8 * endBytes frames.length))) :
    ∃ t, exec (.update (some frames)) s = .next t ∧ t.wire = s.wire ++ pulses sclk
      (bitsOf (stream (frames.map frameValue)) (8 * (stream (frames.map frameValue)).length)) := by
  have hlen := length_stream (frames.map frameValue)
  rw [List.length_map] at hlen
  obtain ⟨t, ht, hsent, -⟩ := swEngine_ok (sclk := sclk) (mosi := mosi) (buf := stream (frames.map frameValue))
    (nbits := 8 * (stream (frames.map frameValue)).length) (s := s) (hok.mono (by omega))
  refine ⟨t.ret (.ok .unit), ?_, hsent.wireLow hpins hlow⟩
  rw [exec_update_configured hidle hcfg hne hmax, writeStream, ht, Progress.going_finish]

/-- Settles O33: each engine's wire carries the bits of the stream. -/
theorem bothEnginesSendTheSameBits : Obligations.BothEnginesSendTheSameBits := by
  unfold Obligations.BothEnginesSendTheSameBits
  intro frames sclk mosi cs ch s u hne hs hu hsw hhw hpins hlow hmaxs hmaxu hoks hoku
  obtain ⟨t, ht, hwire⟩ := exec_update_software_wire hs hsw hne hmaxs hpins hlow hoks
  obtain ⟨v, hv, hsent⟩ := exec_update_hardware hu hhw hne hmaxu hoku
  exact ⟨t, v, _, _, ht, hv, hwire, hsent.wire, by rw [wireBits_pulses, wireBits_spiEvents], wireBits_spiEvents ..⟩

end Sys2Proof.Machine
end

section
/-! SUPPORT. The emission steps on the hardware engine, one by one and as a whole stream (R58, R81; log 1). -/

namespace Sys2Proof.Machine

/-! ### One emission -/

/-- R81, R93: one emission on the hardware engine with every call answered ok. -/
theorem emitFrame_hardware {ch : Channel} {bytes : List Byte} {position : Except Refusal (Option Emission)}
    {next : Option Emission} {s : State} (hquiet : s.engine = none) (hcfg : s.inst = .configured (.hardware ch))
    (hposition : position = .ok next) (hok : s.draws.okFor bytes.length) :
    ∃ t, emitFrame bytes position s = .next t ∧ StreamedOnHardware ch bytes 1 next s t := by
  subst hposition
  refine ⟨_, emitFrame_configured bytes next hquiet hcfg, ?_⟩
  have hbytes : 8 * bytes.length / 8 = bytes.length := Nat.mul_div_cancel_left _ (by decide)
  have h := writeStream_hardware_emitted (ch := ch) (buf := bytes) hquiet (le_refl _) (Nat.mul_mod_right ..)
    (by rwa [hbytes]) next
  rwa [hbytes, List.take_length] at h

/-- R58: the places of a stream for `n` LED frames where end-frame byte number `m` is next. -/
def EndByteNext (n m : Nat) (position : Option Emission) : Prop :=
  (position = some (.leds n) ∧ 1 ≤ n ∧ m = 0) ∨ position = some (.ends n m)

theorem afterLed_leds {nMax : Option Nat} {n : Nat} (h : ∀ m, nMax = some m → n + 1 ≤ m) :
    afterLed nMax (some (.leds n)) = .ok (some (.leds (n + 1))) :=
  if_pos (withinNMax_iff.2 h)

theorem EndByteNext.afterEnd_eq {n m : Nat} {position : Option Emission} (h : EndByteNext n m position) :
    afterEnd position = .ok (endsAfter n (m + 1)) := by
  rcases h with ⟨rfl, hn, rfl⟩ | rfl
  · exact if_neg (by omega)
  · rfl

section

variable {ch : Channel} {s : State}

theorem exec_fStart_hardware (hquiet : s.engine = none) (hcfg : s.inst = .configured (.hardware ch))
    (hposition : s.emission = none) (hok : s.draws.okFor 4) :
    ∃ t, exec .fStart s = .next t ∧ StreamedOnHardware ch startFrame 1 (some (.leds 0)) s t :=
  emitFrame_hardware hquiet hcfg (by rw [hposition]; rfl) hok

theorem exec_fLed_hardware (f : LedFrame) {n : Nat} (hquiet : s.engine = none)
    (hcfg : s.inst = .configured (.hardware ch)) (hposition : s.emission = some (.leds n))
    (hmax : ∀ m, s.params.nMax = some m → n + 1 ≤ m) (hok : s.draws.okFor 4) :
    ∃ t, exec (.fLed f.brightness f.blue f.green f.red) s = .next t ∧
      StreamedOnHardware ch (ledBytes f) 1 (some (.leds (n + 1))) s t :=
  emitFrame_hardware hquiet hcfg (by rw [hposition]; exact afterLed_leds hmax) hok

theorem exec_fEnd_hardware {n m : Nat} (hquiet : s.engine = none) (hcfg : s.inst = .configured (.hardware ch))
    (hposition : EndByteNext n m s.emission) (hok : s.draws.okFor 1) :
    ∃ t, exec .fEnd s = .next t ∧ StreamedOnHardware ch [Config.endByte] 1 (endsAfter n (m + 1)) s t :=
  emitFrame_hardware hquiet hcfg hposition.afterEnd_eq hok

end

/-- Settles O39: each wire format is one emission where a stream has it. -/
theorem wireFormatsOnTheHardwareEngine : Obligations.WireFormatsOnTheHardwareEngine := by
  unfold Obligations.WireFormatsOnTheHardwareEngine
  intro brightness blue green red ch s hquiet hcfg
  refine ⟨fun hposition hok => ?_, fun n hposition hmax hok => ?_, fun n m hposition hok => ?_⟩
  · obtain ⟨t, ht, h⟩ := exec_fStart_hardware hquiet hcfg hposition hok
    exact ⟨t, ht, h.emission, h.sentOnHardware⟩
  · obtain ⟨t, ht, h⟩ := exec_fLed_hardware ⟨brightness, blue, green, red⟩ hquiet hcfg hposition hmax hok
    exact ⟨t, ht, h.emission, h.sentOnHardware⟩
  · obtain ⟨t, ht, h⟩ := exec_fEnd_hardware hquiet hcfg hposition hok
    exact ⟨t, ht, h.emission, h.sentOnHardware⟩

/-! ### A whole stream -/

theorem execAll_cons {i : Instr} {is : List Instr} {s t : State} (h : exec i s = .next t) :
    execAll (i :: is) s = execAll is t := by
  rw [execAll, h]

theorem execAll_append {is js : List Instr} {s t : State} (h : execAll is s = .next t) :
    execAll (is ++ js) s = execAll js t := by
  induction is generalizing s with
  | nil =>
    cases h
    rfl
  | cons i is ih =>
    cases hi : exec i s with
    | next u =>
      rw [execAll_cons hi] at h
      rw [List.cons_append, execAll_cons hi, ih h]
    | fault e =>
      rw [execAll, hi] at h
      cases h
    | refused r =>
      rw [execAll, hi] at h
      cases h

/-- The emission step of an LED frame. -/
def ledStep (f : LedFrame) : Instr := .fLed f.brightness f.blue f.green f.red

theorem emissions_eq (fs : List LedFrame) :
    emissions fs = (.fStart :: fs.map ledStep) ++ List.replicate (endBytes fs.length) .fEnd := rfl

theorem length_emissions (fs : List LedFrame) : (emissions fs).length = 1 + fs.length + endBytes fs.length := by
  rw [emissions_eq, List.length_append, List.length_cons, List.length_map, List.length_replicate, Nat.add_comm 1]

section

variable {ch : Channel} {s : State}

/-- R81: the LED frames of a stream, in order. -/
theorem execAll_leds_hardware (fs : List LedFrame) {n : Nat} (hquiet : s.engine = none)
    (hcfg : s.inst = .configured (.hardware ch)) (hposition : s.emission = some (.leds n))
    (hmax : ∀ m, s.params.nMax = some m → n + fs.length ≤ m) (hok : s.draws.okFor (4 * fs.length)) :
    ∃ t, execAll (fs.map ledStep) s = .next t ∧
      StreamedOnHardware ch (fs.flatMap ledBytes) fs.length (some (.leds (n + fs.length))) s t := by
  induction fs generalizing n s with
  | nil => exact ⟨s, rfl, by simpa [← hposition] using StreamedOnHardware.refl ch s⟩
  | cons f fs ih =>
    rw [List.length_cons] at hmax hok
    obtain ⟨t, ht, hf⟩ := exec_fLed_hardware f hquiet hcfg hposition
      (fun m hm => by have := hmax m hm; omega) (hok.mono (by omega))
    obtain ⟨u, hu, hfs⟩ := ih (s := t) (n := n + 1) (hf.frame.engine.trans hquiet) (hf.frame.inst.trans hcfg)
      hf.emission (fun m hm => by have := hmax m (hf.frame.params ▸ hm); omega)
      (hf.okFor (m := 4 * fs.length) (hok.mono (by simp [ledBytes]; omega)))
    refine ⟨u, (execAll_cons ht).trans hu, ?_⟩
    have h := hf.trans hfs
    rwa [Nat.add_comm 1, Nat.add_right_comm, Nat.add_assoc] at h

/-- R54, R79: the end-frame bytes that are left of a stream. -/
theorem execAll_ends_hardware {n m left : Nat} (hquiet : s.engine = none) (hcfg : s.inst = .configured (.hardware ch))
    (hposition : EndByteNext n m s.emission) (hleft : m + (left + 1) = endBytes n)
    (hok : s.draws.okFor (left + 1)) :
    ∃ t, execAll (List.replicate (left + 1) .fEnd) s = .next t ∧
      StreamedOnHardware ch (List.replicate (left + 1) Config.endByte) (left + 1) none s t := by
  induction left generalizing m s with
  | zero =>
    obtain ⟨t, ht, h⟩ := exec_fEnd_hardware hquiet hcfg hposition hok
    rw [endsAfter, if_neg (by omega)] at h
    exact ⟨t, execAll_cons ht, h⟩
  | succ left ih =>
    obtain ⟨t, ht, h⟩ := exec_fEnd_hardware hquiet hcfg hposition (hok.mono (by omega))
    rw [endsAfter, if_pos (by omega)] at h
    obtain ⟨u, hu, hrest⟩ := ih (s := t) (m := m + 1) (h.frame.engine.trans hquiet) (h.frame.inst.trans hcfg)
      (.inr h.emission) (by omega) (h.okFor (hok.mono (by simp; omega)))
    refine ⟨u, (execAll_cons ht).trans hu, ?_⟩
    have hall := h.trans hrest
    rwa [Nat.add_comm 1] at hall

end

/-- R79: a stream with an LED frame has an end-frame byte. -/
theorem endBytes_pos {n : Nat} (h : 1 ≤ n) : 1 ≤ endBytes n := by
  unfold endBytes
  omega

/-- Settles O37: start frame, LED frames and end-frame bytes, each from where the part before it left the stream. -/
theorem emissionsOnTheHardwareEngine : Obligations.EmissionsOnTheHardwareEngine := by
  unfold Obligations.EmissionsOnTheHardwareEngine
  intro frames ch s hne hidle hcfg hmax hok
  have hframes : 1 ≤ frames.length := List.length_pos_of_ne_nil hne
  obtain ⟨left, hleft⟩ : ∃ left, endBytes frames.length = left + 1 :=
    ⟨_, (Nat.sub_add_cancel (endBytes_pos hframes)).symm⟩
  obtain ⟨t, ht, hstart⟩ := exec_fStart_hardware hidle.1 hcfg hidle.2 (hok.mono (by omega))
  obtain ⟨u, hu, hleds⟩ := execAll_leds_hardware frames (s := t) (hstart.frame.engine.trans hidle.1)
    (hstart.frame.inst.trans hcfg) hstart.emission
    (fun m hm => by have := hmax m (hstart.frame.params ▸ hm); omega)
    (hstart.okFor (hok.mono (by simp [startFrame, Config.startBytes])))
  have hbody := hstart.trans hleds
  rw [Nat.zero_add] at hbody
  obtain ⟨v, hv, hends⟩ := execAll_ends_hardware (s := u) (left := left) (hbody.frame.engine.trans hidle.1)
    (hbody.frame.inst.trans hcfg) (.inl ⟨hbody.emission, hframes, rfl⟩) (by omega)
    (hbody.okFor (hok.mono (by
      rw [List.length_append, length_flatMap_ledBytes, startFrame, List.length_replicate, Config.startBytes]; omega)))
  have hall := hbody.trans hends
  rw [← hleft] at hall hv
  refine ⟨v, ?_, ?_, hall.sentOnHardware_of_ended hidle.2⟩
  · rw [emissions_eq, execAll_append ((execAll_cons ht).trans hu), hv]
  · rw [hall.results, length_emissions]

end Sys2Proof.Machine
end

section
/-! SUPPORT. The wire formats (R51 to R54): each is decoded from its own bytes, and from no others. -/

namespace Sys2Proof

/-! ### Words -/

/-- R41: the decoder reads a word from its bytes. -/
theorem decodeWire_wordBytes (w : Word) : decodeWire (wordBytes w) = decodeWord w := by
  rw [wordBytes, decodeWire, bytesWord_wordBytes]

theorem decodeWord_startWord : decodeWord startWord = .ok .fStart :=
  if_pos ((startRow_admits startWord).2 rfl)

/-- R52, R53: the start frame has not bits 31:29 of an LED frame. -/
theorem ne_startWord_of_prefix {w : Word} (h : w.extractLsb' 29 3 = 0b111#3) : w ≠ startWord := by
  rintro rfl
  exact absurd h (by decide)

theorem decodeWord_of_prefix {w : Word} (h : w.extractLsb' 29 3 = 0b111#3) :
    decodeWord w = .ok (Machine.ledStep (wordFrame w)) := by
  rw [decodeWord, if_neg (mt (startRow_admits w).1 (ne_startWord_of_prefix h)), if_pos ((ledRow_admits w).2 h)]
  rfl

theorem decodeWord_ledWord (f : LedFrame) : decodeWord (ledWord f) = .ok (Machine.ledStep f) := by
  rw [decodeWord_of_prefix (ledWord_prefix f), wordFrame_ledWord]

/-- R58: the words that are neither form. -/
theorem decodeWord_reserved {w : Word} (hstart : w ≠ startWord) (hprefix : w.extractLsb' 29 3 ≠ 0b111#3) :
    decodeWord w = .error .reservedWord := by
  rw [decodeWord, if_neg (mt (startRow_admits w).1 hstart), if_neg (mt (ledRow_admits w).1 hprefix)]

theorem encode_ledStep (f : LedFrame) : encode (Machine.ledStep f) = .wire (wordBytes (ledWord f)) := rfl

/-- A word that decodes to an instruction is written as that word's bytes. -/
theorem encode_of_decodeWord {w : Word} {i : Instr} (h : decodeWord w = .ok i) : encode i = .wire (wordBytes w) := by
  by_cases hstart : w = startWord
  · rw [hstart, decodeWord_startWord] at h
    cases h
    rw [hstart]
    rfl
  · by_cases hprefix : w.extractLsb' 29 3 = 0b111#3
    · rw [decodeWord_of_prefix hprefix] at h
      cases h
      rw [encode_ledStep, ledWord_wordFrame w hprefix]
    · rw [decodeWord_reserved hstart hprefix] at h
      cases h

/-! ### Bytes -/

/-- R54, R58: of the single bytes, 0xFF alone is a wire format. -/
theorem decodeWire_endByte : decodeWire [Config.endByte] = .ok .fEnd := rfl

theorem decodeWire_reserved {b : Byte} (h : b ≠ Config.endByte) : decodeWire [b] = .error .reservedByte := if_neg h

/-- R51, R60: a wire format is four bytes or one. -/
theorem decodeWire_badLength {bytes : List Byte} (hfour : bytes.length ≠ 4) (hone : bytes.length ≠ 1) :
    decodeWire bytes = .error .badLength := by
  unfold decodeWire
  split
  · exact absurd rfl hfour
  · exact absurd rfl hone
  · rfl

/-- Settles O3, by the length of the bytes: a word is its instruction's, a byte is 0xFF. -/
theorem decodedWireBytesAreTheEncoding : Obligations.DecodedWireBytesAreTheEncoding := by
  unfold Obligations.DecodedWireBytesAreTheEncoding
  intro bytes i h
  by_cases hfour : bytes.length = 4
  · obtain ⟨a, b, c, d, rfl⟩ := List.length_eq_four.1 hfour
    rw [encode_of_decodeWord h, wordBytes_bytesWord]
  · by_cases hone : bytes.length = 1
    · obtain ⟨b, rfl⟩ := List.length_eq_one_iff.1 hone
      by_cases hb : b = Config.endByte
      · subst hb
        rw [decodeWire_endByte] at h
        cases h
        rfl
      · rw [decodeWire_reserved hb] at h
        cases h
    · rw [decodeWire_badLength hfour hone] at h
      cases h

/-- Settles O4. -/
theorem reservedWireFormsRefused : Obligations.ReservedWireFormsRefused :=
  ⟨fun w hzero hprefix => (decodeWire_wordBytes w).trans (decodeWord_reserved hzero hprefix),
    fun _ => decodeWire_reserved, fun _ => decodeWire_badLength⟩

/-- Settles O1: each word is evaluated by the decoder. -/
theorem specWordsDecode : Obligations.SpecWordsDecode := by
  unfold Obligations.SpecWordsDecode
  decide

/-! ### The LED frame -/

/-- R53: 0b111 over the brightness is 0xE0 | (brightness & 0x1F). -/
theorem prefix_append_brightness :
    ∀ br : BitVec 5, 0b111#3 ++ br = 0xE0#8 ||| (br.setWidth 8 &&& 0x1F#8) := by decide

/-- R53: the LED frame's word is that of its bytes. -/
theorem ledWord_eq_bytesWord (f : LedFrame) :
    ledWord f = bytesWord (0xE0#8 ||| (f.brightness.setWidth 8 &&& 0x1F#8)) f.blue f.green f.red := by
  rw [← prefix_append_brightness]
  rfl

theorem wordBytes_ledWord (f : LedFrame) : wordBytes (ledWord f) = ledBytes f := by
  rw [ledWord_eq_bytesWord, wordBytes_bytesWord, ledBytes]

/-- R41: a word as its bytes shifted to their places. -/
theorem bytesWord_eq_or (a b c d : Byte) :
    bytesWord a b c d =
      a.setWidth 32 <<< 24 ||| b.setWidth 32 <<< 16 ||| c.setWidth 32 <<< 8 ||| d.setWidth 32 := by
  apply BitVec.eq_of_getLsbD_eq
  intro i hi
  simp only [bytesWord, BitVec.getLsbD_append, BitVec.getLsbD_or, BitVec.getLsbD_shiftLeft, BitVec.getLsbD_setWidth]
  interval_cases i <;> simp

theorem ledWord_brightness (f : LedFrame) : (ledWord f).extractLsb' 24 5 = f.brightness :=
  congrArg LedFrame.brightness (wordFrame_ledWord f)

/-- Settles O5. -/
theorem ledFrameWireForm : Obligations.LedFrameWireForm := by
  unfold Obligations.LedFrameWireForm
  intro f
  exact ⟨rfl, (ledWord_eq_bytesWord f).trans (bytesWord_eq_or _ _ _ _), wordBytes_ledWord f, ledWord_prefix f,
    ledWord_brightness f⟩

end Sys2Proof
end

section
/-! SUPPORT. The encoder and the decoder of R62's lines, operation by operation. -/

namespace Sys2Proof

/-! ### Lines to calls -/

/-- A line written from spaced tokens is read as their call. -/
theorem decode_showTokens {ts : List Token} (h : Spaced ts) : decode (.line (showTokens ts)) = parseCall ts := by
  rw [decode, decodeLine, lex_showTokens ts h]

/-- A letter is no blank, no comment and no symbol. -/
theorem plainChar_of_isAlpha {c : Char} (h : c.isAlpha = true) : PlainChar c := by
  have hcode : (0x41 ≤ c.toNat ∧ c.toNat ≤ 0x5A) ∨ (0x61 ≤ c.toNat ∧ c.toNat ≤ 0x7A) := by
    simpa [Char.isAlpha, Char.isUpper, Char.isLower, UInt32.le_iff_toNat_le] using h
  refine ⟨?_, ?_, ?_⟩
  · simp only [isComment, decide_eq_false_iff_not]
    omega
  · simp only [isBlank, Bool.or_eq_false_iff, decide_eq_false_iff_not]
    omega
  · unfold symbolOf
    split_ifs
    case neg => rfl
    all_goals omega

/-- The words of R62's calls. -/
def callWords : List (List Char) :=
  [Name.makeFrame, Name.initHardware, Name.initSoftware, Name.update, Name.writeBits, Name.swWriteBits, Name.emitBit,
    Name.hwWriteBits, Name.absent]

theorem plainWord_of_mem_callWords {name : List Char} (h : name ∈ callWords) : PlainWord name := by
  have hletters : ∀ name ∈ callWords, name ≠ [] ∧ ∀ c ∈ name, c.isAlpha = true := by
    simp [callWords, Name.makeFrame, Name.initHardware, Name.initSoftware, Name.update, Name.writeBits,
      Name.swWriteBits, Name.emitBit, Name.hwWriteBits, Name.absent]
  exact ⟨(hletters name h).1, fun c hc => plainChar_of_isAlpha ((hletters name h).2 c hc)⟩

theorem decode_callTokens {name : List Char} (h : name ∈ callWords) (is : List Int) :
    decode (.line (showTokens (callTokens name is))) =
      parseCall (.word name :: .lpar :: (intsTokens is ++ [.rpar])) :=
  decode_showTokens (spaced_callTokens name is (plainWord_of_mem_callWords h))

theorem decode_bufferTokens {name : List Char} (h : name ∈ callWords) (buf : List Byte) (nbits : Nat) :
    decode (.line (showTokens (bufferTokens name buf nbits))) = parseCall (.word name :: .lpar :: .lbrk ::
      (intsTokens (buf.map byteInt) ++ [.rbrk, .comma, intWord nbits, .rpar])) :=
  decode_showTokens (spaced_bufferTokens name buf nbits (plainWord_of_mem_callWords h))

theorem spaced_updateTokens {ts : List Token} (h : Spaced ts) :
    Spaced (.word Name.update :: .lpar :: .lbrk :: (ts ++ [.rbrk, .rpar])) :=
  ⟨plainWord_of_mem_callWords (by decide), by simp, spaced_append h (bs := [.rbrk, .rpar]) trivial (by simp)⟩

theorem spaced_absentTokens : Spaced [.word Name.update, .lpar, .word Name.absent, .rpar] :=
  ⟨plainWord_of_mem_callWords (by decide), by simp, plainWord_of_mem_callWords (by decide), by simp, trivial⟩

/-! ### Which operation a call is -/

section

variable (ts : List Token)

theorem parseCall_makeFrame : parseCall (.word Name.makeFrame :: .lpar :: ts) = parseMakeFrame ts := rfl

theorem parseCall_initHardware : parseCall (.word Name.initHardware :: .lpar :: ts) = parseInitHardware ts := rfl

theorem parseCall_initSoftware : parseCall (.word Name.initSoftware :: .lpar :: ts) = parseInitSoftware ts := rfl

theorem parseCall_update : parseCall (.word Name.update :: .lpar :: ts) = parseUpdate ts := rfl

theorem parseCall_writeBits : parseCall (.word Name.writeBits :: .lpar :: ts) = parseBuffer .writeBits ts := rfl

theorem parseCall_swWriteBits : parseCall (.word Name.swWriteBits :: .lpar :: ts) = parseBuffer .swWriteBits ts := rfl

theorem parseCall_emitBit : parseCall (.word Name.emitBit :: .lpar :: ts) = parseEmitBit ts := rfl

theorem parseCall_hwWriteBits : parseCall (.word Name.hwWriteBits :: .lpar :: ts) = parseBuffer .hwWriteBits ts := rfl

end

/-! ### The arguments of each operation -/

theorem parseMakeFrame_intsTokens (r g b br : Byte) :
    parseMakeFrame (intsTokens [byteInt r, byteInt g, byteInt b, byteInt br] ++ [.rpar]) =
      .ok (.makeFrame r g b br) := by
  simp only [parseMakeFrame, closedInts_intsTokens, madeOf, byteOf_byteInt]

theorem parseInitHardware_intsTokens (c : Int) :
    parseInitHardware (intsTokens [c] ++ [.rpar]) = .ok (.initHardware c) := by
  simp only [parseInitHardware, closedInts_intsTokens]

theorem parseInitSoftware_intsTokens (sclk mosi cs : Int) :
    parseInitSoftware (intsTokens [sclk, mosi, cs] ++ [.rpar]) = .ok (.initSoftware sclk mosi cs) := by
  simp only [parseInitSoftware, closedInts_intsTokens]

theorem bitOf_bit (bit : Bool) : bitOf (if bit then 1 else 0) = .ok bit := by
  cases bit <;> rfl

theorem parseEmitBit_intsTokens (bit : Bool) :
    parseEmitBit (intsTokens [if bit then 1 else 0] ++ [.rpar]) = .ok (.emitBit bit) := by
  simp only [parseEmitBit, closedInts_intsTokens, bitOf_bit]

/-- R57: the two arguments of a bit writer. -/
theorem parseBuffer_tokens (mk : List Byte → Nat → Instr) (buf : List Byte) (nbits : Nat) :
    parseBuffer mk (.lbrk :: (intsTokens (buf.map byteInt) ++ [.rbrk, .comma, intWord nbits, .rpar])) =
      .ok (mk buf nbits) := by
  have hbuf := readInts_intsTokens (buf.map byteInt) [.rbrk, .comma, .word (showInt nbits), .rpar]
    (by intro t r h; cases h; simp)
  simp only [parseBuffer, hbuf, intWord, readInt_showInt, bytesOf_map, natOf, Int.natCast_nonneg, if_true,
    Int.toNat_natCast]

/-! ### The frames of `update` -/

/-- A written frame opens with its brace or with the word of its call. -/
theorem frameTokens_ne_rbrk (f : FrameArg) : ∃ t ts, frameTokens f = t :: ts ∧ t ≠ .rbrk := by
  cases f <;> exact ⟨_, _, rfl, Token.noConfusion⟩

theorem framesTokens_cons (f : FrameArg) (fs : List FrameArg) :
    ∃ rest, framesTokens (f :: fs) = frameTokens f ++ rest := by
  cases fs with
  | nil => exact ⟨[], (List.append_nil _).symm⟩
  | cons g gs => exact ⟨_, rfl⟩

theorem length_le_framesTokens (fs : List FrameArg) : fs.length ≤ (framesTokens fs).length := by
  induction fs with
  | nil => exact Nat.zero_le _
  | cons f fs ih =>
    obtain ⟨t, ts, hf, -⟩ := frameTokens_ne_rbrk f
    cases fs with
    | nil => simp [framesTokens, hf]
    | cons g gs =>
      have hcons : framesTokens (f :: g :: gs) = frameTokens f ++ .comma :: framesTokens (g :: gs) := rfl
      rw [hcons, List.length_append, List.length_cons, List.length_cons]
      exact Nat.le_add_left_of_le (Nat.succ_le_succ ih)

/-- R62: a list that does not close at once is read frame by frame. -/
theorem parseUpdate_frames {ts : List Token} (h : ∀ rest, ts ≠ .rbrk :: rest) {fs : List FrameArg}
    (hfs : readFrames ts.length ts = .ok fs) : parseUpdate (.lbrk :: ts) = .ok (.update (some fs)) := by
  unfold parseUpdate
  split
  · next heq => cases heq
  · next heq =>
    cases heq
    exact absurd rfl (h _)
  · next heq =>
    cases heq
    rw [hfs]
  · next hno => exact absurd rfl (hno ts)

theorem parseUpdate_framesTokens (fs : List FrameArg) :
    parseUpdate (.lbrk :: (framesTokens fs ++ [.rbrk, .rpar])) = .ok (.update (some fs)) := by
  cases fs with
  | nil => rfl
  | cons f fs =>
    obtain ⟨rest, hframes⟩ := framesTokens_cons f fs
    obtain ⟨t, ts, hf, ht⟩ := frameTokens_ne_rbrk f
    have hfuel := length_le_framesTokens (f :: fs)
    refine parseUpdate_frames (fun rest' heq => ?_)
      (readFrames_framesTokens (f :: fs) (List.cons_ne_nil _ _) _ (by rw [List.length_append]; omega))
    rw [hframes, hf] at heq
    exact ht (List.cons.inj heq).1

/-! ### Every instruction -/

/-- Settles O2: a wire format by its word or byte, an operation by its name and its arguments. -/
theorem encodedInstructionsDecodeBack : Obligations.EncodedInstructionsDecodeBack := by
  unfold Obligations.EncodedInstructionsDecodeBack
  intro i
  cases i with
  | fStart => exact (decodeWire_wordBytes startWord).trans decodeWord_startWord
  | fLed br b g r => exact (decodeWire_wordBytes _).trans (decodeWord_ledWord ⟨br, b, g, r⟩)
  | fEnd => exact decodeWire_endByte
  | makeFrame r g b br =>
    rw [encode, decode_callTokens (by decide), parseCall_makeFrame,
      parseMakeFrame_intsTokens]
  | initHardware c =>
    rw [encode, decode_callTokens (by decide),
      parseCall_initHardware, parseInitHardware_intsTokens]
  | initSoftware sclk mosi cs =>
    rw [encode, decode_callTokens (by decide),
      parseCall_initSoftware, parseInitSoftware_intsTokens]
  | update frames =>
    cases frames with
    | none => rw [encode, decode_showTokens spaced_absentTokens, parseCall_update]; rfl
    | some fs =>
      rw [encode, decode_showTokens (spaced_updateTokens (spaced_framesTokens fs)), parseCall_update,
        parseUpdate_framesTokens]
  | writeBits buf nbits =>
    rw [encode, decode_bufferTokens (by decide),
      parseCall_writeBits, parseBuffer_tokens]
  | swWriteBits buf nbits =>
    rw [encode, decode_bufferTokens (by decide),
      parseCall_swWriteBits, parseBuffer_tokens]
  | emitBit bit =>
    rw [encode, decode_callTokens (by decide),
      parseCall_emitBit, parseEmitBit_intsTokens]
  | hwWriteBits buf nbits =>
    rw [encode, decode_bufferTokens (by decide),
      parseCall_hwWriteBits, parseBuffer_tokens]

end Sys2Proof
end

section
/-! SUPPORT. The end frame's length (R79), and the stream cut back into its frames (R61). -/

namespace Sys2Proof.Machine

/-! ### The end frame -/

/-- R79: E(N) by ranges. -/
theorem endBytes_eq_of_range {n k : Nat} (hlow : 16 * (k - 1) < n) (hhigh : n ≤ 16 * k) : endBytes n = k := by
  unfold endBytes
  omega

/-- Settles O6: the ranges of 1 and 2 bytes are cases of R79's. -/
theorem endFrameLength : Obligations.EndFrameLength := by
  unfold Obligations.EndFrameLength
  refine ⟨fun _ => rfl, fun n hlow hhigh => ?_, fun n hlow hhigh => ?_, fun _ _ => endBytes_eq_of_range⟩
  · exact endBytes_eq_of_range (by omega) (by omega)
  · exact endBytes_eq_of_range (by omega) (by omega)

/-! ### The frames of a stream -/

/-- R53, R61: the low five bits of byte0 are the brightness. -/
theorem brightness_of_byte0 :
    ∀ br : BitVec 5, ((0xE0#8 ||| (br.setWidth 8 &&& 0x1F#8)) &&& 0x1F#8).setWidth 5 = br := by decide

theorem takeFrames_flatMap_ledBytes (fs : List LedFrame) (rest : List Byte) :
    takeFrames fs.length (fs.flatMap ledBytes ++ rest) = some (fs, rest) := by
  induction fs with
  | nil => rfl
  | cons f fs ih =>
    simp only [List.flatMap_cons, ledBytes, List.cons_append, List.nil_append, List.length_cons, takeFrames, ih,
      brightness_of_byte0]

theorem take_stream (fs : List LedFrame) : (stream fs).take 4 = startFrame := by
  rw [stream, List.append_assoc]
  exact List.take_left' rfl

theorem drop_stream (fs : List LedFrame) :
    (stream fs).drop 4 = fs.flatMap ledBytes ++ endFrame fs.length := by
  rw [stream, List.append_assoc]
  exact List.drop_left' rfl

/-- Settles O9: the start frame, then the frames one by one, then the end frame. -/
theorem streamDecodesToItsFrames : Obligations.StreamDecodesToItsFrames := by
  unfold Obligations.StreamDecodesToItsFrames
  intro fs
  have hstart : (stream fs).take 4 = [0x00#8, 0x00#8, 0x00#8, 0x00#8] := take_stream fs
  have hend : endFrame fs.length = List.replicate (endBytes fs.length) 0xFF#8 := rfl
  simp only [decodeStream, if_pos hstart, drop_stream, takeFrames_flatMap_ledBytes, if_pos hend]

end Sys2Proof.Machine
end

section
/-! SUPPORT. The emission steps on the software engine, where they are refused, and the streams they form (R58, R81;
log 1). -/

namespace Sys2Proof.Machine

/-! ### One emission on the software engine -/

/-- `t` is `s` after one emission that sent `bits` on the software engine, with every call answered ok, and left the
stream at `position`. -/
structure EmittedOnSoftware (sclk mosi : Pin) (bits : List Bool) (position : Option Emission) (s t : State) : Prop where
  emission : t.emission = position
  sent : SentOnSoftware sclk mosi bits s { t with emission := s.emission }

/-- R87, R92: the software writer with every call answered ok. -/
theorem writeStream_software_emitted {sclk mosi : Pin} (cs : Option Pin) {buf : List Byte} {nbits : Nat} {s : State}
    (hquiet : s.engine = none) (hfit : nbits ≤ 8 * buf.length) (hok : s.draws.okFor (3 * nbits))
    (next : Option Emission) :
    EmittedOnSoftware sclk mosi (bitsOf buf nbits) next s
      ((writeStream (.software sclk mosi cs) buf nbits s).emitted next) := by
  have hframe := writeStream_emitted_sameBut (.software sclk mosi cs) hquiet hfit next
  have hresults := (writeStream_runs (.software sclk mosi cs) buf nbits s hfit).results
  obtain ⟨t, ht, hsent, -⟩ := swEngine_ok (sclk := sclk) (mosi := mosi) (buf := buf) hok
  have hgoing : writeStream (.software sclk mosi cs) buf nbits s = .going t := ht
  rw [hgoing] at hframe hresults ⊢
  exact
    { emission := rfl
      sent :=
        { trace := hsent.trace
          results := congrArg (· ++ [Result.ok OkValue.unit]) hresults
          clockLow := hsent.clockLow
          dataLast := hsent.dataLast
          noBits := hsent.noBits
          otherPins := hsent.otherPins
          frame := hframe } }

/-- R81, R87: one emission on the software engine with every call answered ok. -/
theorem emitFrame_software {sclk mosi : Pin} {cs : Option Pin} {bytes : List Byte}
    {position : Except Refusal (Option Emission)} {next : Option Emission} {s : State} (hquiet : s.engine = none)
    (hcfg : s.inst = .configured (.software sclk mosi cs)) (hposition : position = .ok next)
    (hok : s.draws.okFor (3 * (8 * bytes.length))) :
    ∃ t, emitFrame bytes position s = .next t ∧
      EmittedOnSoftware sclk mosi (bitsOf bytes (8 * bytes.length)) next s t := by
  subst hposition
  exact ⟨_, emitFrame_configured bytes next hquiet hcfg,
    writeStream_software_emitted cs hquiet (le_refl _) hok next⟩

/-- R52: the bits of the start frame. -/
theorem bitsOf_startFrame : bitsOf startFrame 32 = List.replicate 32 false := by decide

/-- R54: the bits of an end-frame byte. -/
theorem bitsOf_endByte : bitsOf [Config.endByte] 8 = List.replicate 8 true := by decide

/-- Settles O38: each wire format is one emission where a stream has it. -/
theorem wireFormatsOnTheSoftwareEngine : Obligations.WireFormatsOnTheSoftwareEngine := by
  unfold Obligations.WireFormatsOnTheSoftwareEngine
  intro brightness blue green red sclk mosi cs s hquiet hcfg
  refine ⟨fun hposition hok => ?_, fun n hposition hmax hok => ?_, fun n m hposition hok => ?_⟩
  · obtain ⟨t, ht, h⟩ := emitFrame_software (bytes := startFrame) (position := afterStart s.emission) hquiet hcfg
      (by rw [hposition]; rfl) hok
    exact ⟨t, ht, h.emission, bitsOf_startFrame ▸ h.sent⟩
  · obtain ⟨t, ht, h⟩ := emitFrame_software (bytes := ledBytes ⟨brightness, blue, green, red⟩)
      (position := afterLed s.params.nMax s.emission) hquiet hcfg (by rw [hposition]; exact afterLed_leds hmax) hok
    exact ⟨t, ht, h.emission, h.sent⟩
  · obtain ⟨t, ht, h⟩ := emitFrame_software (bytes := [Config.endByte]) hquiet hcfg
      (EndByteNext.afterEnd_eq hposition) hok
    exact ⟨t, ht, h.emission, bitsOf_endByte ▸ h.sent⟩

/-! ### Where no stream has an emission -/

theorem emitFrame_refused {cfg : TransmitterConfig} (bytes : List Byte) {position : Except Refusal (Option Emission)}
    {r : Refusal} {s : State} (hquiet : s.engine = none) (hcfg : s.inst = .configured cfg)
    (hposition : position = .error r) : emitFrame bytes position s = .refused r := by
  simp only [emitFrame, whenNoWriter_idle hquiet, withDevice, hcfg, hposition]

theorem afterStart_begun {position : Option Emission} (h : position ≠ none) :
    afterStart position = .error .outOfStream := by
  cases position with
  | none => exact absurd rfl h
  | some _ => rfl

theorem afterLed_outOfStream {nMax : Option Nat} {position : Option Emission} (h : ∀ n, position ≠ some (.leds n)) :
    afterLed nMax position = .error .outOfStream := by
  rcases position with _ | n | ⟨n, m⟩
  · rfl
  · exact absurd rfl (h n)
  · rfl

theorem afterLed_tooManyLeds {nMax : Option Nat} {n m : Nat} (hmax : nMax = some m) (h : m < n + 1) :
    afterLed nMax (some (.leds n)) = .error .tooManyLeds :=
  if_neg fun hbound => absurd (withinNMax_iff.1 hbound m hmax) (by omega)

theorem afterEnd_noLed {position : Option Emission} (h : position = none ∨ position = some (.leds 0)) :
    afterEnd position = .error .outOfStream := by
  rcases h with rfl | rfl <;> rfl

/-- Settles O41, by the positions that each wire format's place in R58 excludes. -/
theorem emissionsOutOfStreamRefused : Obligations.EmissionsOutOfStreamRefused := by
  unfold Obligations.EmissionsOutOfStreamRefused
  intro brightness blue green red cfg s hquiet hcfg
  refine ⟨fun hbegun => ?_, fun hno => ?_, fun n m hposition hmax hlt => ?_, fun hno => ?_⟩
  · exact emitFrame_refused _ hquiet hcfg (afterStart_begun hbegun)
  · exact emitFrame_refused _ hquiet hcfg (afterLed_outOfStream hno)
  · exact emitFrame_refused _ hquiet hcfg (by rw [hposition]; exact afterLed_tooManyLeds hmax hlt)
  · exact emitFrame_refused _ hquiet hcfg (afterEnd_noLed hno)

/-! ### Emissions that end form whole streams -/

/-- An emission step that returns Ok is sent where a stream has it, and moves the position to the one after it. -/
theorem exec_emission_ok {i : Instr} {s t : State} (hi : isEmission i = true) (h : exec i s = .next t)
    (hok : t.results = s.results ++ [.ok .unit]) : ∃ bytes, EmissionOf i s bytes t.emission := by
  cases exec_effect h with
  | rejected c _ result =>
    subst result
    simp at hok
  | made f call _ =>
    obtain ⟨r, g, b, br, rfl⟩ := call
    cases hi
  | wrote cfg p _ _ call _ _ _ =>
    rw [hi] at call
    cases call
  | emitted cfg bytes next _ _ call runs _ result =>
    subst result
    refine ⟨bytes, ?_⟩
    rw [← runs.results] at hok
    cases hp : writeStream cfg bytes (8 * bytes.length) s with
    | going u => exact call
    | aborted u =>
      rw [hp] at hok
      simp [Progress.emitted, raiseTransport] at hok
  | setUpHardware c ch _ call _ _ =>
    subst call
    cases hi
  | setUpSoftware a b c sclk mosi cs _ _ call _ _ _ _ =>
    subst call
    cases hi

/-- The first of several instructions that answer a next state, and the others. -/
theorem execAll_cons_next {i : Instr} {l : List Instr} {s t : State} (h : execAll (i :: l) s = .next t) :
    ∃ u, exec i s = .next u ∧ execAll l u = .next t := by
  rw [execAll] at h
  split at h
  · next u hi => exact ⟨u, hi, h⟩
  · cases h
  · cases h

/-- R33: instructions append return values. -/
theorem execAll_results {l : List Instr} {s t : State} (h : execAll l s = .next t) : s.results <+: t.results := by
  induction l generalizing s with
  | nil =>
    cases h
    exact List.prefix_rfl
  | cons i l ih =>
    obtain ⟨u, hu, hrest⟩ := execAll_cons_next h
    obtain ⟨-, r, -, hr, -⟩ := aFailedCallEndsTheOperation i s u hu
    exact (List.prefix_append s.results [r]).trans (hr ▸ ih hrest)

/-- When all of several instructions return Ok, so do the first and the others. -/
theorem execAll_cons_ok {i : Instr} {l : List Instr} {s t : State} (h : execAll (i :: l) s = .next t)
    (hok : t.results = s.results ++ List.replicate (i :: l).length (.ok .unit)) :
    ∃ u, exec i s = .next u ∧ u.results = s.results ++ [.ok .unit] ∧ execAll l u = .next t ∧
      t.results = u.results ++ List.replicate l.length (.ok .unit) := by
  obtain ⟨u, hu, hl⟩ := execAll_cons_next h
  obtain ⟨-, r, -, hr, -⟩ := aFailedCallEndsTheOperation i s u hu
  obtain ⟨rest, hrest⟩ := execAll_results hl
  have hall : s.results ++ r :: rest = s.results ++ .ok .unit :: List.replicate l.length (.ok .unit) :=
    calc s.results ++ r :: rest = u.results ++ rest := by rw [hr, List.append_cons]
      _ = t.results := hrest
      _ = _ := hok
  obtain ⟨rfl, rfl⟩ := List.cons.inj (List.append_cancel_left hall)
  exact ⟨u, hu, hr, hl, hrest.symm⟩

/-- R58: whole streams of at least one and at most N_MAX LED frames, one after the other. -/
def WholeStreams (nMax : Option Nat) (l : List Instr) : Prop :=
  ∃ fss : List (List LedFrame), l = fss.flatMap emissions ∧
    ∀ fs ∈ fss, fs ≠ [] ∧ withinNMax nMax fs.length = true

/-- R58: what may follow a stream that has come to this position: the rest of it, and then whole streams. -/
def Continues (nMax : Option Nat) : Option Emission → List Instr → Prop
  | none, l => WholeStreams nMax l
  | some (.leds n), l => ∃ fs rest, l = fs.map ledStep ++ List.replicate (endBytes (n + fs.length)) .fEnd ++ rest ∧
      1 ≤ n + fs.length ∧ (fs ≠ [] → withinNMax nMax (n + fs.length) = true) ∧ WholeStreams nMax rest
  | some (.ends n m), l => ∃ rest, l = .fEnd :: (List.replicate (endBytes n - (m + 1)) .fEnd ++ rest) ∧
      WholeStreams nMax rest

/-- A start frame begins one more whole stream. -/
theorem Continues.fStart {nMax : Option Nat} {l : List Instr} (h : Continues nMax (some (.leds 0)) l) :
    Continues nMax none (.fStart :: l) := by
  obtain ⟨fs, rest, rfl, hlen, hbound, fss, rfl, hfss⟩ := h
  rw [Nat.zero_add] at hlen hbound
  have hne : fs ≠ [] := List.ne_nil_of_length_pos hlen
  refine ⟨fs :: fss, ?_, List.forall_mem_cons.2 ⟨⟨hne, hbound hne⟩, hfss⟩⟩
  rw [List.flatMap_cons, emissions_eq, Nat.zero_add]
  rfl

theorem Continues.fLed {nMax : Option Nat} {n : Nat} {l : List Instr} (f : LedFrame)
    (hbound : withinNMax nMax (n + 1) = true) (h : Continues nMax (some (.leds (n + 1))) l) :
    Continues nMax (some (.leds n)) (ledStep f :: l) := by
  obtain ⟨fs, rest, rfl, -, hfs, hrest⟩ := h
  have hlen : n + (f :: fs).length = n + 1 + fs.length := by rw [List.length_cons]; omega
  refine ⟨f :: fs, rest, by rw [hlen]; rfl, by omega, fun _ => ?_, hrest⟩
  rw [hlen]
  cases fs with
  | nil => exact hbound
  | cons g gs => exact hfs (List.cons_ne_nil g gs)

/-- R54, R79: after one more end-frame byte the bytes left of E(n) follow, and then whole streams. -/
theorem Continues.of_endsAfter {nMax : Option Nat} {n m : Nat} {l : List Instr}
    (h : Continues nMax (endsAfter n (m + 1)) l) : Continues nMax (some (.ends n m)) (.fEnd :: l) := by
  unfold endsAfter at h
  split at h
  · next hlt =>
    obtain ⟨rest, rfl, hrest⟩ := h
    refine ⟨rest, ?_, hrest⟩
    rw [show endBytes n - (m + 1) = endBytes n - (m + 1 + 1) + 1 by omega, List.replicate_succ]
    rfl
  · next hge =>
    refine ⟨l, ?_, h⟩
    rw [show endBytes n - (m + 1) = 0 by omega]
    rfl

/-- R58: after the first end-frame byte no LED frame follows. -/
theorem Continues.firstEnd {nMax : Option Nat} {n : Nat} {l : List Instr} (hn : n ≠ 0)
    (h : Continues nMax (endsAfter n 1) l) : Continues nMax (some (.leds n)) (.fEnd :: l) := by
  obtain ⟨rest, hl, hrest⟩ := Continues.of_endsAfter (m := 0) h
  have hends : List.replicate (endBytes n) Instr.fEnd = .fEnd :: List.replicate (endBytes n - 1) .fEnd := by
    rw [← List.replicate_succ, Nat.sub_add_cancel (endBytes_pos (Nat.one_le_iff_ne_zero.2 hn))]
  refine ⟨[], rest, ?_, Nat.one_le_iff_ne_zero.2 hn, fun hno => absurd rfl hno, hrest⟩
  simp only [hl, List.map_nil, List.nil_append, List.length_nil, Nat.add_zero, Nat.zero_add, hends, List.cons_append]

/-- R58: an emission that is sent comes before whatever may follow it. -/
theorem EmissionOf.continues {i : Instr} {s : State} {bytes : List Byte} {next : Option Emission} {l : List Instr}
    (h : EmissionOf i s bytes next) (hl : Continues s.params.nMax next l) :
    Continues s.params.nMax s.emission (i :: l) := by
  cases h with
  | start call position =>
    rw [call, position]
    exact hl.fStart
  | led brightness blue green red n call position bound =>
    rw [call, position]
    exact Continues.fLed ⟨brightness, blue, green, red⟩ bound hl
  | firstEnd n call position some_led =>
    rw [call, position]
    exact Continues.firstEnd some_led hl
  | nextEnd n m call position =>
    rw [call, position]
    exact hl.of_endsAfter

/-- R58: emission steps that all return Ok and leave no stream begun continue the stream they start from. -/
theorem execAll_continues {l : List Instr} {s t : State} (hl : ∀ i ∈ l, isEmission i = true)
    (h : execAll l s = .next t) (hok : t.results = s.results ++ List.replicate l.length (.ok .unit))
    (hend : t.emission = none) : Continues s.params.nMax s.emission l := by
  induction l generalizing s with
  | nil =>
    cases h
    rw [hend]
    exact ⟨[], rfl, by simp⟩
  | cons i l ih =>
    obtain ⟨hi, hl⟩ := List.forall_mem_cons.1 hl
    obtain ⟨u, hu, huok, hrest, hrestok⟩ := execAll_cons_ok h hok
    obtain ⟨bytes, hcall⟩ := exec_emission_ok hi hu huok
    refine hcall.continues ?_
    rw [← (exec_sameEnvironment hu).params]
    exact ih hl hrest hrestok

/-- Settles O40: from no stream begun, what continues is whole streams. -/
theorem emissionsFormWholeStreams : Obligations.EmissionsFormWholeStreams := by
  unfold Obligations.EmissionsFormWholeStreams
  intro l s t hidle hl h hok hend
  have hcontinues := execAll_continues hl h hok hend
  rw [hidle.2] at hcontinues
  obtain ⟨fss, hfss, hbounds⟩ := hcontinues
  exact ⟨fss, hfss, fun fs hfs => (hbounds fs hfs).imp_right withinNMax_iff.1⟩

end Sys2Proof.Machine
end

section
/-! SUPPORT. The return values of the internal operations, and the step that runs a decoded form. -/

namespace Sys2Proof.Machine

/-! ### The internal operations -/

/-- R96, R99: what the calls of an operation came to is returned as Ok or TransportError. -/
theorem Progress.finish_results (p : Progress) (v : OkValue) :
    (p.finish v).results = p.state.results ++ [.ok v] ∨
      (p.finish v).results = p.state.results ++ [.transportError] := by
  cases p with
  | going s => exact .inl rfl
  | aborted s => exact .inr rfl

/-- R57, R86: `t` is the return, Ok carrying no value or TransportError, of calls that started at `s`. -/
def ReturnedUnit (s t : State) : Prop := ∃ p : Progress, p.state.results = s.results ∧ t = p.finish .unit

theorem checkedWrite_returned {cfg : TransmitterConfig} {buf : List Byte} {nbits : Nat} {s t : State}
    (h : checkedWrite cfg buf nbits s = .next t) : ReturnedUnit s t := by
  obtain ⟨hfit, -, ht⟩ := checkedWrite_next h
  exact ⟨_, (writeStream_runs cfg buf nbits s hfit).results, ht⟩

/-- The configuration an internal operation ran on, when it answers a next state. -/
theorem whenConfigured_next {s t : State} {f : TransmitterConfig → State → Host.Outcome State Fault Refusal}
    (h : whenIdle s (fun s => withConfig s f) = .next t) : ∃ cfg, f cfg s = .next t := by
  obtain ⟨-, h⟩ := whenIdle_next h
  obtain ⟨cfg, -, h⟩ := withConfig_next h
  exact ⟨cfg, h⟩

theorem exec_writeBits_returned {buf : List Byte} {nbits : Nat} {s t : State}
    (h : exec (.writeBits buf nbits) s = .next t) : ReturnedUnit s t := by
  obtain ⟨cfg, h⟩ := whenConfigured_next h
  exact checkedWrite_returned h

theorem exec_swWriteBits_returned {buf : List Byte} {nbits : Nat} {s t : State}
    (h : exec (.swWriteBits buf nbits) s = .next t) : ReturnedUnit s t := by
  obtain ⟨cfg, h⟩ := whenConfigured_next h
  cases cfg with
  | software sclk mosi cs => exact checkedWrite_returned h
  | hardware ch => cases h

theorem exec_hwWriteBits_returned {buf : List Byte} {nbits : Nat} {s t : State}
    (h : exec (.hwWriteBits buf nbits) s = .next t) : ReturnedUnit s t := by
  obtain ⟨cfg, h⟩ := whenConfigured_next h
  cases cfg with
  | hardware ch => exact checkedWrite_returned h
  | software sclk mosi cs => cases h

theorem exec_emitBit_returned {bit : Bool} {s t : State} (h : exec (.emitBit bit) s = .next t) :
    ReturnedUnit s t := by
  obtain ⟨cfg, h⟩ := whenConfigured_next h
  cases cfg with
  | software sclk mosi cs =>
    cases h
    exact ⟨_, (emitBitOn_runs sclk mosi bit s).results, rfl⟩
  | hardware ch => cases h

/-- Settles O50: each internal operation ends in the return of its calls (`ReturnedUnit`). -/
theorem internalOperationsHaveNoInvalidArgument : Obligations.InternalOperationsHaveNoInvalidArgument := by
  unfold Obligations.InternalOperationsHaveNoInvalidArgument
  intro buf nbits bit i s t hi h
  have hreturned : ReturnedUnit s t := by
    rcases hi with rfl | rfl | rfl | rfl
    · exact exec_writeBits_returned h
    · exact exec_swWriteBits_returned h
    · exact exec_hwWriteBits_returned h
    · exact exec_emitBit_returned h
  obtain ⟨p, hresults, rfl⟩ := hreturned
  rw [← hresults]
  exact p.finish_results .unit

/-! ### A step runs what was decoded -/

theorem runFetched_ok {f : Fetch} {i : Instr} (run : Instr → State → Host.Outcome State Fault Refusal) (s : State)
    (h : decode f = .ok i) : runFetched f run s = run i s := by
  unfold runFetched
  simp only [h]

theorem step_of_decoded {s : State} {f : Fetch} {rest : List Input} {i : Instr}
    (hpending : s.pending = .fetch f :: rest) (hdecode : decode f = .ok i) :
    step s = exec i { s with pending := rest } := by
  rw [step_of_fetch hpending, runFetched_ok exec _ hdecode]

/-- Settles O52. -/
theorem stepRunsTheDecodedInstruction : Obligations.StepRunsTheDecodedInstruction := by
  unfold Obligations.StepRunsTheDecodedInstruction
  intro s f rest i hpending hdecode
  exact step_of_decoded hpending hdecode

theorem decode_wireLayout {nbits w : Nat} {i : Instr} (h : decodeTableWord nbits w = some i) :
    decode (.wire (wireLayout nbits w)) = .ok i := by
  rw [decodeTableWord] at h
  cases hdecode : decodeWire (wireLayout nbits w) with
  | ok j =>
    rw [hdecode] at h
    cases h
    exact hdecode
  | error e =>
    rw [hdecode] at h
    cases h

/-- Settles O54: the table word is the oldest input, and taking it restores the pending ones. -/
theorem fetchWordRunsNext : Obligations.FetchWordRunsNext := by
  unfold Obligations.FetchWordRunsNext
  intro s nbits w i h
  exact step_of_decoded (s := s.withFetchWord nbits w) rfl (decode_wireLayout h)

end Sys2Proof.Machine
end

section
/-! SUPPORT. The record of a `makeFrame` call (40_led_frame.md). -/

namespace Sys2Proof.Machine

/-- R64: the stored brightness is the argument modulo 32. -/
theorem maskBrightness_toNat (b : Byte) : (maskBrightness b).toNat = b.toNat % 32 :=
  calc (maskBrightness b).toNat
    _ = (b.toNat &&& 2 ^ 5 - 1) % 2 ^ 5 := by rw [maskBrightness, BitVec.toNat_setWidth, BitVec.toNat_and]; rfl
    _ = b.toNat % 2 ^ 5 := by rw [Nat.and_two_pow_sub_one_eq_mod, Nat.mod_mod]

/-- R53, R64: on the wire, masking the stored brightness again gives the argument's low five bits. -/
theorem maskBrightness_wire :
    ∀ b : Byte, (maskBrightness b).setWidth 8 &&& 0x1F#8 = b &&& 0x1F#8 := by decide

theorem ledBytes_madeFrame (r g b brightness : Byte) :
    ledBytes (madeFrame r g b brightness) = [0xE0#8 ||| (brightness &&& 0x1F#8), b, g, r] := by
  rw [ledBytes, madeFrame, maskBrightness_wire]

theorem exec_makeFrame (r g b brightness : Byte) (s : State) :
    exec (.makeFrame r g b brightness) s = .next (s.ret (.ok (.frame (madeFrame r g b brightness)))) := rfl

/-- Settles O10: the record is `madeFrame`. -/
theorem makeFrameReturnsTheRecord : Obligations.MakeFrameReturnsTheRecord := by
  unfold Obligations.MakeFrameReturnsTheRecord
  intro r g b brightness s
  exact ⟨madeFrame r g b brightness, exec_makeFrame r g b brightness s, maskBrightness_toNat brightness, rfl, rfl, rfl,
    ledBytes_madeFrame r g b brightness⟩

end Sys2Proof.Machine
end

section
/-! SUPPORT. The two initialisations (41_init.md): the operands they reject, and `initHardware`'s one call. -/

namespace Sys2Proof.Machine

/-! ### initHardware -/

theorem channelOf_none {i : Int} (hzero : i ≠ 0) (hone : i ≠ 1) : channelOf i = none := by
  rw [channelOf, if_neg hzero, if_neg hone]

theorem exec_initHardware_rejected {channel : Int} {s : State} (hidle : s.Idle) (h : channelOf channel = none) :
    exec (.initHardware channel) s = .next (s.ret (.invalidArgument .badChannel)) := by
  simp only [exec, execInitHardware, whenIdle_idle hidle, h, raiseInvalidArgument]

theorem exec_initHardware_channel (ch : Channel) {s : State} (hidle : s.Idle) :
    exec (.initHardware (ch.val : Int)) s = .next ((spiSetup ch Config.hwFreqHz s).configure (.hardware ch)) := by
  simp only [exec, execInitHardware, whenIdle_idle hidle, channelOf_val]

/-- R32: a setup answered ok. -/
theorem spiSetup_ok {ch : Channel} {hz : Nat} {s : State} {rest : List Bool} (h : s.draws.fail = false :: rest) :
    spiSetup ch hz s = .going
      { s with
        spi := s.spi.set ch.val (.setUp hz)
        trace := s.trace ++ [okEvent (.spiSetup ch hz)]
        draws := { s.draws with fail := rest, index := s.draws.index + 1 } } :=
  callCollaborator_ok h

/-- R100: a setup answered failed. -/
theorem spiSetup_failed {ch : Channel} {hz : Nat} {s : State} {rest : List Bool} (h : s.draws.fail = true :: rest) :
    spiSetup ch hz s = .aborted
      { s with
        spi := s.spi.set ch.val .unspecified
        trace := s.trace ++ [failedEvent (.spiSetup ch hz)]
        draws := { s.draws with fail := rest, index := s.draws.index + 1 } } :=
  callCollaborator_failed h

/-- Settles O11. -/
theorem initHardwareRejectsOtherChannels : Obligations.InitHardwareRejectsOtherChannels := by
  unfold Obligations.InitHardwareRejectsOtherChannels
  intro channel s hidle hzero hone
  exact exec_initHardware_rejected hidle (channelOf_none hzero hone)

/-- Settles O12: the one call is the setup, and its answer decides between the two returns of an init. -/
theorem initHardwareSetsUpTheChannel : Obligations.InitHardwareSetsUpTheChannel := by
  unfold Obligations.InitHardwareSetsUpTheChannel
  intro ch s rest hidle
  rw [exec_initHardware_channel ch hidle]
  constructor
  · intro hok
    rw [spiSetup_ok hok]
    rfl
  · intro hfailed
    rw [spiSetup_failed hfailed]
    rfl

/-! ### The operands of initSoftware -/

/-- R70 to R72: the collaborator calls of `initSoftware`. -/
def softwareInitCalls (sclk mosi : Pin) (cs : Option Pin) (s : State) : Progress :=
  (modeCalls (modePins sclk mosi cs).length (modePins sclk mosi cs) s).andThen (primeClock sclk mosi cs)

section
variable {a b c : Int} {s : State} (hidle : s.Idle) (hready : s.gpioReady = true)
include hidle hready

theorem exec_initSoftware_badSclk (h : ¬ (0 ≤ a ∧ a ≤ 29)) :
    exec (.initSoftware a b c) s = .next (s.ret (.invalidArgument .badSclk)) := by
  simp only [exec, execInitSoftware, whenIdle_idle hidle, if_pos hready, pinOf_none h, raiseInvalidArgument]

theorem exec_initSoftware_badMosi {sclk : Pin} (ha : pinOf a = some sclk) (h : ¬ (0 ≤ b ∧ b ≤ 29)) :
    exec (.initSoftware a b c) s = .next (s.ret (.invalidArgument .badMosi)) := by
  simp only [exec, execInitSoftware, whenIdle_idle hidle, if_pos hready, ha, pinOf_none h, raiseInvalidArgument]

theorem exec_initSoftware_badCs {sclk mosi : Pin} (ha : pinOf a = some sclk) (hb : pinOf b = some mosi)
    (h : ¬ (-1 ≤ c ∧ c ≤ 29)) : exec (.initSoftware a b c) s = .next (s.ret (.invalidArgument .badCs)) := by
  simp only [exec, execInitSoftware, whenIdle_idle hidle, if_pos hready, ha, hb, csOf_none h, raiseInvalidArgument]

theorem exec_initSoftware_legal {sclk mosi : Pin} {cs : Option Pin} (ha : pinOf a = some sclk)
    (hb : pinOf b = some mosi) (hc : csOf c = some cs) :
    exec (.initSoftware a b c) s =
      .next ((softwareInitCalls sclk mosi cs s).configure (.software sclk mosi cs)) := by
  simp only [exec, execInitSoftware, whenIdle_idle hidle, if_pos hready, ha, hb, hc, softwareInitCalls]

end

/-- R75, R97: once its calls are made, an init does not return InvalidArgument. -/
theorem Runs.configure_not_invalidArgument {C : Call → Prop} {s : State} {p : Progress} (h : Runs C s p)
    (cfg : TransmitterConfig) (cause : Cause) : (p.configure cfg).results ≠ s.results ++ [.invalidArgument cause] := by
  rw [← h.results]
  intro hresults
  cases p with
  | going u => cases List.append_cancel_left hresults
  | aborted u => cases List.append_cancel_left hresults

/-- Settles O13: legal operands lead to the calls of an init, and the first bad one to its own label. -/
theorem initSoftwareRejectsExactlyBadPins : Obligations.InitSoftwareRejectsExactlyBadPins := by
  unfold Obligations.InitSoftwareRejectsExactlyBadPins
  intro a b c s hidle hready
  constructor
  · rintro ⟨cause, h⟩ ⟨ha, hb, hc⟩
    obtain ⟨sclk, hsclk, -⟩ := pinOf_some ha
    obtain ⟨mosi, hmosi, -⟩ := pinOf_some hb
    obtain ⟨cs, hcs⟩ := csOf_some hc
    rw [exec_initSoftware_legal hidle hready hsclk hmosi hcs] at h
    injection h with hstate
    exact (initCalls_runs sclk mosi cs s).configure_not_invalidArgument _ cause (congrArg State.results hstate)
  · intro hbad
    by_cases ha : 0 ≤ a ∧ a ≤ 29
    · obtain ⟨sclk, hsclk, -⟩ := pinOf_some ha
      by_cases hb : 0 ≤ b ∧ b ≤ 29
      · obtain ⟨mosi, hmosi, -⟩ := pinOf_some hb
        exact ⟨.badCs, exec_initSoftware_badCs hidle hready hsclk hmosi fun hc => hbad ⟨ha, hb, hc⟩⟩
      · exact ⟨.badMosi, exec_initSoftware_badMosi hidle hready hsclk hb⟩
    · exact ⟨.badSclk, exec_initSoftware_badSclk hidle hready ha⟩

end Sys2Proof.Machine
end

section
/-! SUPPORT. Where an operation's GPIO calls go (R73, R90), and that the hardware option makes none (R69, R93). -/

namespace Sys2Proof.Machine

/-- R73, R90: a write goes to the configured clock or data pin, or is `initSoftware`'s of HIGH on its clock operand. -/
theorem OpCall.of_gpioWrite {i : Instr} {s : State} {p : Pin} {lvl : Level} (h : OpCall i s (.gpioWrite p lvl)) :
    (∃ sclk mosi cs, s.inst = .configured (.software sclk mosi cs) ∧ (p = sclk ∨ p = mosi)) ∨
      (lvl = .high ∧ ∃ b c, i = .initSoftware (p.val : Int) b c) := by
  cases h with
  | writer cfg config call =>
    cases cfg with
    | software sclk mosi cs => exact .inl ⟨sclk, mosi, cs, config, call⟩
    | hardware ch => exact call.elim
  | initHardware ch _ call => cases call
  | initSoftware x y z sclk mosi cs instr hsclk _ _ call =>
    obtain ⟨rfl, rfl⟩ := call
    exact .inr ⟨rfl, y, z, by rw [instr, val_of_pinOf hsclk]⟩

/-- R69, R93: on a hardware configuration every call but those of `initSoftware` is the SPI collaborator's. -/
theorem OpCall.of_hardware {i : Instr} {s : State} {ch : Channel} {c : Call} (h : OpCall i s c)
    (hcfg : s.inst = .configured (.hardware ch)) (hi : ∀ x y z, i ≠ .initSoftware x y z) :
    (∃ d hz, c = .spiSetup d hz) ∨ ∃ d bytes, c = .spiWrite d bytes := by
  cases h with
  | writer cfg config call =>
    rw [hcfg] at config
    cases config
    cases c with
    | spiWrite d bytes => exact .inr ⟨d, bytes, rfl⟩
    | gpioMode p => exact call.elim
    | gpioWrite p lvl => exact call.elim
    | delay us => exact call.elim
    | spiSetup d hz => exact call.elim
  | initHardware d _ call => exact .inl ⟨d, _, call⟩
  | initSoftware x y z _ _ _ instr _ _ _ _ => exact absurd instr (hi x y z)

theorem Returned.level {p : Progress} {t : State} (h : Returned p t) (q : Pin) : t.level q = p.state.level q := by
  simp only [State.level, h.levels]

/-- Settles O46, from the calls that write a pin (`OpCall.of_gpioWrite`) or change its level. -/
theorem onlyClockAndDataPinsAreWritten : Obligations.OnlyClockAndDataPinsAreWritten := by
  unfold Obligations.OnlyClockAndDataPinsAreWritten
  intro i s t h
  obtain ⟨run, hruns, hreturned⟩ := exec_runs h
  constructor
  · obtain ⟨ev, htrace, hcalls, -⟩ := hruns.events
    refine ⟨ev, hreturned.trace.trans htrace, fun e he p lvl hwrite => ?_⟩
    have hcall := hcalls e he
    rw [hwrite] at hcall
    exact hcall.of_gpioWrite
  · intro sclk mosi cs p hcfg hclock hdata hi
    rw [hreturned.level]
    refine hruns.levels p (fun lvl hcall => ?_) fun hcall => ?_
    · rcases hcall.of_gpioWrite with ⟨sclk', mosi', cs', hcfg', hpin⟩ | ⟨-, b, c, hinit⟩
      · rw [hcfg] at hcfg'
        cases hcfg'
        exact hpin.elim hclock hdata
      · exact hi _ b c hinit
    · obtain ⟨a, b, c, hinit, -⟩ := hcall.of_gpioMode
      exact hi a b c hinit

/-- Settles O47, from the calls of a hardware configuration (`OpCall.of_hardware`). -/
theorem hardwareOptionMakesNoGpioCall : Obligations.HardwareOptionMakesNoGpioCall := by
  unfold Obligations.HardwareOptionMakesNoGpioCall
  intro i s t ch hcfg hi h
  obtain ⟨run, hruns, hreturned⟩ := exec_runs h
  have hwrite : ∀ p lvl, ¬ OpCall i s (.gpioWrite p lvl) := fun p lvl hcall => by simpa using hcall.of_hardware hcfg hi
  have hmode : ∀ p, ¬ OpCall i s (.gpioMode p) := fun p hcall => by simpa using hcall.of_hardware hcfg hi
  obtain ⟨ev, htrace, hcalls, -⟩ := hruns.events
  refine ⟨⟨ev, hreturned.trace.trans htrace, fun e he => (hcalls e he).of_hardware hcfg hi⟩, ?_, ?_⟩
  · exact hreturned.levels.trans (Vector.ext fun p hp => hruns.levels ⟨p, hp⟩ (hwrite ⟨p, hp⟩) (hmode ⟨p, hp⟩))
  · exact hreturned.modes.trans (Vector.ext fun p hp => hruns.modes ⟨p, hp⟩ (hmode ⟨p, hp⟩))

end Sys2Proof.Machine
end

section
/-! SUPPORT. `initSoftware` with legal operands: the order of its mode calls, what it leaves when every call is answered
ok, and what it leaves when one fails (R70 to R72, R75, R99 to R101). -/

namespace Sys2Proof.Machine

/-! ### The order of the mode calls -/

/-- R71: the order draw picks the next pin, and the others are left. -/
theorem modeCalls_pick {pins : List Pin} {s : State} {i : Nat} (hi : s.draws.takeOrder.1 % pins.length = i)
    (hlt : i < pins.length) :
    modeCalls pins.length pins s = (gpioMode pins[i] { s with draws := s.draws.takeOrder.2 }).andThen
      (modeCalls (pins.eraseIdx i).length (pins.eraseIdx i)) := by
  obtain ⟨fuel, hfuel⟩ : ∃ fuel, pins.length = fuel + 1 := ⟨pins.length - 1, by omega⟩
  have hleft : (pins.eraseIdx i).length = fuel := by rw [List.length_eraseIdx_of_lt hlt]; omega
  conv_lhs => rw [hfuel]
  simp only [modeCalls, hi, List.getElem?_eq_getElem hlt, hleft]

theorem Draws.takeOrder_of_cons {d : Draws} {n : Nat} {rest : List Nat} (h : d.order = n :: rest) :
    d.takeOrder = (n, { d with order := rest, index := d.index + 1 }) := by
  simp [Draws.takeOrder, h]

@[simp] theorem Draws.takeFail_order (d : Draws) : d.takeFail.2.order = d.order := by
  unfold Draws.takeFail; split <;> rfl

/-- A mode call that goes on has added its event, and used no order draw. -/
theorem gpioMode_going_spec {p : Pin} {s t : State} (h : gpioMode p s = .going t) :
    t.trace = s.trace ++ [okEvent (.gpioMode p)] ∧ t.draws.order = s.draws.order := by
  unfold gpioMode at h
  rcases callCollaborator_cases (.gpioMode p) (fun s => (s.setMode p .output).setLevel p none)
    (fun s => (s.setMode p .unspecified).setLevel p none) s with ⟨-, hcall⟩ | ⟨-, hcall⟩
  · rw [h] at hcall
    cases hcall
    exact ⟨rfl, s.draws.takeFail_order⟩
  · rw [h] at hcall
    cases hcall

/-- R71: for every order of the pins some answers of the order draws make the mode calls follow it. -/
theorem exists_orderAnswers {order pins : List Pin} (h : order.Perm pins) :
    ∃ answers, ∀ s t : State, s.draws.order = answers → modeCalls pins.length pins s = .going t →
      t.trace = s.trace ++ (order.map .gpioMode).map okEvent := by
  induction order generalizing pins with
  | nil =>
    obtain rfl := h.nil_eq
    refine ⟨[], fun s t _ hcalls => ?_⟩
    obtain rfl : s = t := Progress.going.inj hcalls
    simp
  | cons p order ih =>
    obtain ⟨i, hlt, rfl⟩ := List.getElem_of_mem (h.subset List.mem_cons_self)
    obtain ⟨answers, hanswers⟩ := ih (h.trans (List.getElem_cons_eraseIdx_perm hlt).symm).cons_inv
    refine ⟨i :: answers, fun s t horder hcalls => ?_⟩
    have htake := Draws.takeOrder_of_cons horder
    rw [modeCalls_pick (by rw [htake, Nat.mod_eq_of_lt hlt]) hlt, htake] at hcalls
    obtain ⟨u, hmode, hrest⟩ := Progress.andThen_going hcalls
    obtain ⟨htrace, hleft⟩ := gpioMode_going_spec hmode
    rw [hanswers u t hleft hrest, htrace]
    simp

/-! ### What its calls leave alone -/

theorem mem_modePins_sclk (sclk mosi : Pin) (cs : Option Pin) : sclk ∈ modePins sclk mosi cs := List.mem_cons_self

theorem mem_modePins_mosi (sclk mosi : Pin) (cs : Option Pin) : mosi ∈ modePins sclk mosi cs :=
  List.mem_cons_of_mem _ List.mem_cons_self

/-- R73, R100: what `initSoftware` leaves alone, whatever its calls answer. -/
structure InitFrame (sclk mosi : Pin) (cs : Option Pin) (s t : State) : Prop extends SameEnvironment s t where
  otherPins : ∀ p, p ∉ modePins sclk mosi cs → t.mode p = s.mode p ∧ t.level p = s.level p
  spi : t.spi = s.spi
  emission : t.emission = s.emission

theorem exec_initSoftware_frame {sclk mosi : Pin} {cs : Option Pin} {s : State} (hidle : s.Idle)
    (hready : s.gpioReady = true) :
    exec (.initSoftware (sclk.val : Int) (mosi.val : Int) (csOperand cs)) s =
        .next ((softwareInitCalls sclk mosi cs s).configure (.software sclk mosi cs)) ∧
      InitFrame sclk mosi cs s ((softwareInitCalls sclk mosi cs s).configure (.software sclk mosi cs)) := by
  have hexec := exec_initSoftware_legal hidle hready (pinOf_val sclk) (pinOf_val mosi) (csOf_csOperand cs)
  have hruns : Runs _ s (softwareInitCalls sclk mosi cs s) := initCalls_runs sclk mosi cs s
  have hreturned := Returned.configure (softwareInitCalls sclk mosi cs s) (.software sclk mosi cs)
  refine ⟨hexec, exec_sameEnvironment hexec, fun p hp => ⟨?_, ?_⟩, ?_, exec_emission rfl hexec⟩
  · exact (hreturned.mode p).trans (hruns.modes p hp)
  · refine (hreturned.level p).trans (hruns.levels p (fun lvl hcall => hp ?_) hp)
    obtain ⟨rfl, -⟩ := hcall
    exact mem_modePins_sclk _ _ _
  · exact hreturned.spi.trans (Vector.ext fun ch hch => hruns.spi ⟨ch, hch⟩ fun _ => id)

/-! ### The priming write -/

/-- R72: the calls of `initSoftware` are the mode calls, then the priming write's. -/
theorem initCalls_eq (order : List Pin) (sclk : Pin) (cs : Option Pin) :
    initCalls order sclk cs = order.map .gpioMode ++ initCalls [] sclk cs := rfl

/-- R72, R91: `t` is `s` after the priming write, which there is only with a chip-select pin. -/
structure Primed (sclk mosi : Pin) (cs : Option Pin) (s t : State) : Prop where
  trace : t.trace = s.trace ++ (initCalls [] sclk cs).map okEvent
  modes : t.modes = s.modes
  clock : cs ≠ none → t.level sclk = some .high
  otherLevels : ∀ p, cs = none ∨ p ≠ sclk → t.level p = s.level p
  noWrite : cs = none → t.wire = s.wire
  edge : cs ≠ none → ∃ b, ClockMayBe s sclk b ∧ t.wire = s.wire ++ edgeOf sclk b .high (s.level mosi)

theorem primeClock_ok {sclk mosi : Pin} {cs : Option Pin} {s : State}
    (hok : s.draws.okFor (initCalls [] sclk cs).length) :
    ∃ t, primeClock sclk mosi cs s = .going t ∧ Primed sclk mosi cs s t := by
  cases cs with
  | none =>
    exact ⟨s, rfl, (List.append_nil _).symm, rfl, fun h => absurd rfl h, fun _ _ => rfl, fun _ => rfl,
      fun h => absurd rfl h⟩
  | some c =>
    obtain ⟨rest, hfail, -⟩ := Draws.okFor_succ hok
    obtain ⟨w, d, hwrite, -, hedges⟩ := gpioWrite_ok (clk := sclk) (dat := mosi) (p := sclk) (lvl := .high) hfail
    obtain ⟨b, hb, rfl⟩ := hedges.on rfl
    refine ⟨_, hwrite, rfl, rfl, fun _ => Vector.getElem_set_self _, fun p hp => ?_, nofun, fun _ => ⟨b, hb, rfl⟩⟩
    have hne : sclk.val ≠ p.val := fun e => hp.elim nofun fun hp => hp (Fin.ext e.symm)
    exact Vector.getElem_set_ne sclk.isLt p.isLt hne

/-! ### Every call answered ok -/

/-- With every call of `initSoftware` answered ok, the mode calls leave the answer of the priming write. -/
theorem modeCalls_okFor_priming {sclk mosi : Pin} {cs : Option Pin} {s : State}
    (hok : s.draws.okFor (initCalls (modePins sclk mosi cs) sclk cs).length) :
    ∃ u, modeCalls (modePins sclk mosi cs).length (modePins sclk mosi cs) s = .going u ∧
      ModesSet (modePins sclk mosi cs) s u ∧ u.draws.okFor (initCalls [] sclk cs).length := by
  rw [initCalls_eq, List.length_append, List.length_map] at hok
  obtain ⟨u, hcalls, hset, hfail⟩ := modeCalls_ok (modePins sclk mosi cs) s (hok.mono (Nat.le_add_right _ _))
  exact ⟨u, hcalls, hset, Draws.okFor_of_drop hok (le_refl _) hfail⟩

/-- R91, R118: from the unknown clock level, the priming write rises exactly where the drawn level was LOW. -/
theorem Primed.edge_of_unknown {sclk mosi : Pin} {cs : Option Pin} {s t : State} (h : Primed sclk mosi cs s t)
    (hcs : cs ≠ none) (hclock : s.level sclk = none) (hdata : s.level mosi = none) :
    ∃ low, (∀ first rest, s.draws.wasLow = first :: rest → low = first) ∧
      t.wire = s.wire ++ if low then [.rising sclk none] else [] := by
  obtain ⟨b, hb, hwire⟩ := h.edge hcs
  rw [hdata] at hwire
  refine ⟨decide (b = .low), fun first rest hdraw => ?_, ?_⟩
  · rw [hb.drawn hclock first rest hdraw]
    cases first <;> rfl
  · rw [hwire]
    cases b <;> rfl

/-- R70 to R72, R75: after its mode calls in `order`, and the priming write answered ok, `initSoftware` has configured
the pins. -/
theorem exec_initSoftware_configured {sclk mosi : Pin} {cs : Option Pin} {order : List Pin} {s u : State}
    (hidle : s.Idle) (hready : s.gpioReady = true)
    (hcalls : modeCalls (modePins sclk mosi cs).length (modePins sclk mosi cs) s = .going u)
    (hset : ModesSet (modePins sclk mosi cs) s u) (hok : u.draws.okFor (initCalls [] sclk cs).length)
    (htrace : u.trace = s.trace ++ (order.map .gpioMode).map okEvent) :
    ∃ t, exec (.initSoftware (sclk.val : Int) (mosi.val : Int) (csOperand cs)) s = .next t ∧
      ConfiguredSoftware sclk mosi cs order s t := by
  obtain ⟨v, hprime, hprimed⟩ := primeClock_ok (mosi := mosi) hok
  have hall : softwareInitCalls sclk mosi cs s = .going v := by
    rw [softwareInitCalls, hcalls, Progress.going_andThen, hprime]
  have hresults : (Progress.going v).state.results = s.results := hall ▸ (initCalls_runs sclk mosi cs s).results
  obtain ⟨hexec, hframe⟩ := exec_initSoftware_frame (sclk := sclk) (mosi := mosi) (cs := cs) hidle hready
  rw [hall] at hexec hframe
  have hunknown := fun p hp => (hset.outputs p hp).2
  refine ⟨_, hexec, ?_⟩
  exact
    { hframe with
      trace := by
        rw [initCalls_eq, List.map_append, ← List.append_assoc, ← htrace]
        exact hprimed.trace
      inst := rfl
      results := congrArg (· ++ [_]) hresults
      outputs := fun p hp => (congrArg (fun m => m[p.val]) hprimed.modes).trans (hset.outputs p hp).1
      primed := hprimed.clock
      unknown := fun p hp hlvl => (hprimed.otherLevels p hlvl).trans (hunknown p hp)
      noPriming := fun hcs => (hprimed.noWrite hcs).trans hset.wire
      primingEdge := fun hcs => by
        have hedge := hprimed.edge_of_unknown hcs (hunknown sclk (mem_modePins_sclk ..))
          (hunknown mosi (mem_modePins_mosi ..))
        rw [hset.wasLow, hset.wire] at hedge
        exact hedge }

/-- Settles O15: the mode calls come in the order the draws give them. -/
theorem initSoftwareConfiguresThePins : Obligations.InitSoftwareConfiguresThePins := by
  unfold Obligations.InitSoftwareConfiguresThePins
  intro sclk mosi cs s hidle hready hok
  obtain ⟨u, hcalls, hset, hprime⟩ := modeCalls_okFor_priming hok
  obtain ⟨order, hperm, htrace⟩ := hset.trace
  obtain ⟨t, hexec, hconfigured⟩ :=
    exec_initSoftware_configured hidle hready hcalls hset hprime (by rw [htrace, List.map_map]; rfl)
  exact ⟨t, order, hperm, hexec, hconfigured⟩

/-- Settles O16: the order draws answer so that the mode calls follow the order (`exists_orderAnswers`). -/
theorem everyModeOrderIsAdmitted : Obligations.EveryModeOrderIsAdmitted := by
  unfold Obligations.EveryModeOrderIsAdmitted
  intro sclk mosi cs order s hperm hidle hready hok
  obtain ⟨answers, hanswers⟩ := exists_orderAnswers hperm
  obtain ⟨u, hcalls, hset, hprime⟩ :=
    modeCalls_okFor_priming (s := { s with draws := { s.draws with order := answers } }) hok
  obtain ⟨t, hexec, hconfigured⟩ :=
    exec_initSoftware_configured (s := { s with draws := { s.draws with order := answers } }) hidle hready hcalls hset
      hprime (hanswers _ u rfl hcalls)
  exact ⟨answers, t, hexec, { hconfigured with trace := hconfigured.trace }⟩

/-! ### A failed call -/

/-- R99 to R101: `u` is `s` after `calls` up to number `j`, which failed: it and those before it are in the trace, its
pin's mode or level is lost, and nothing reached the wire (log 7). -/
structure StoppedAt (calls : List Call) (j : Nat) (s u : State) : Prop where
  failed : ∃ c, calls[j]? = some c ∧ u.trace = s.trace ++ (calls.take j).map okEvent ++ [failedEvent c] ∧
    (∀ p, c = .gpioMode p → u.mode p = .unspecified) ∧ ∀ p lvl, c = .gpioWrite p lvl → u.level p = none
  wire : u.wire = s.wire

theorem StoppedAt.append {calls : List Call} {j : Nat} {s u : State} (h : StoppedAt calls j s u) (more : List Call) :
    StoppedAt (calls ++ more) j s u := by
  obtain ⟨c, hc, htrace, hlost⟩ := h.failed
  obtain ⟨hlt, -⟩ := List.getElem?_eq_some_iff.1 hc
  refine ⟨⟨c, ?_, ?_, hlost⟩, h.wire⟩
  · rw [List.getElem?_append_left hlt, hc]
  · rw [List.take_append_of_le_length hlt.le, htrace]

/-- Calls that were all answered ok come before those that stopped. -/
theorem StoppedAt.prepend {calls : List Call} {j : Nat} {s t u : State} (h : StoppedAt calls j t u)
    (before : List Call) (htrace : t.trace = s.trace ++ before.map okEvent) (hwire : t.wire = s.wire) :
    StoppedAt (before ++ calls) (before.length + j) s u := by
  obtain ⟨c, hc, hstop, hlost⟩ := h.failed
  refine ⟨⟨c, ?_, ?_, hlost⟩, h.wire.trans hwire⟩
  · rw [List.getElem?_append_right (Nat.le_add_right _ _), Nat.add_sub_cancel_left, hc]
  · rw [List.take_length_add_append, hstop, htrace]
    simp

/-- A mode call answered failed. -/
theorem gpioMode_failed {p : Pin} {s : State} {rest : List Bool} (h : s.draws.fail = true :: rest) :
    ∃ u, gpioMode p s = .aborted u ∧ StoppedAt [.gpioMode p] 0 s u := by
  refine ⟨_, callCollaborator_failed h, ⟨.gpioMode p, rfl, by simp [failedEvent], ?_, nofun⟩, rfl⟩
  rintro _ ⟨⟩
  simp [State.setMode_mode]

/-- The priming write answered failed. -/
theorem primeClock_failed {sclk mosi : Pin} (c : Pin) {s : State} {rest : List Bool} (h : s.draws.fail = true :: rest) :
    ∃ u, primeClock sclk mosi (some c) s = .aborted u ∧ StoppedAt (initCalls [] sclk (some c)) 0 s u := by
  refine ⟨_, gpioWrite_failed h, ⟨.gpioWrite sclk .high, rfl, by simp [afterFailed], nofun, ?_⟩, rfl⟩
  rintro _ _ ⟨⟩
  simp [State.level, afterFailed]

/-- R71: some pin is picked, whatever the order draw answers, and the answers of FAIL are left. -/
theorem exists_modeCalls_pick {pins : List Pin} (hne : pins ≠ []) (s : State) :
    ∃ (i : Nat) (hlt : i < pins.length) (d : Draws), d.fail = s.draws.fail ∧
      modeCalls pins.length pins s = (gpioMode pins[i] { s with draws := d }).andThen
        (modeCalls (pins.eraseIdx i).length (pins.eraseIdx i)) :=
  have hlt := Nat.mod_lt s.draws.takeOrder.1 (List.length_pos_of_ne_nil hne)
  ⟨_, hlt, _, s.draws.takeOrder_fail, modeCalls_pick rfl hlt⟩

/-- R71, R101: the mode calls stop at the first failed one, in some order. -/
theorem modeCalls_failed {pins : List Pin} {j : Nat} {s : State} {rest : List Bool}
    (hfail : s.draws.fail = List.replicate j false ++ true :: rest) (hj : j < pins.length) :
    ∃ u order, List.Perm order pins ∧ modeCalls pins.length pins s = .aborted u ∧
      StoppedAt (order.map .gpioMode) j s u := by
  induction j generalizing pins s with
  | zero =>
    obtain ⟨i, hlt, d, hd, hpick⟩ := exists_modeCalls_pick (List.ne_nil_of_length_pos hj) s
    obtain ⟨u, hmode, hstop⟩ := gpioMode_failed (p := pins[i]) (s := { s with draws := d }) (hd.trans hfail)
    refine ⟨u, pins[i] :: pins.eraseIdx i, List.getElem_cons_eraseIdx_perm hlt, ?_, ?_⟩
    · rw [hpick, hmode, Progress.aborted_andThen]
    · exact StoppedAt.append (s := s) ⟨hstop.failed, hstop.wire⟩ ((pins.eraseIdx i).map .gpioMode)
  | succ j ih =>
    obtain ⟨i, hlt, d, hd, hpick⟩ := exists_modeCalls_pick (List.ne_nil_of_length_pos (Nat.zero_lt_of_lt hj)) s
    have hmode := gpioMode_ok (p := pins[i]) (s := { s with draws := d }) (hd.trans hfail)
    rw [hmode, Progress.going_andThen] at hpick
    obtain ⟨u, order, hperm, hcalls, hstop⟩ := ih (pins := pins.eraseIdx i)
      (s := { s with
        modes := s.modes.set pins[i].val .output
        levels := s.levels.set pins[i].val none
        trace := s.trace ++ [okEvent (.gpioMode pins[i])]
        draws := { d with fail := List.replicate j false ++ true :: rest, index := d.index + 1 } })
      rfl (by rw [List.length_eraseIdx_of_lt hlt]; omega)
    refine ⟨u, pins[i] :: order, (hperm.cons _).trans (List.getElem_cons_eraseIdx_perm hlt), hpick.trans hcalls, ?_⟩
    have hwhole := hstop.prepend (s := s) [.gpioMode pins[i]] rfl rfl
    rwa [Nat.add_comm] at hwhole

/-- R99 to R101: all the calls of `initSoftware`, the first failed one being number `j`. -/
theorem softwareInitCalls_failed {sclk mosi : Pin} {cs : Option Pin} {j : Nat} {s : State} {rest : List Bool}
    (hfail : s.draws.fail = List.replicate j false ++ true :: rest)
    (hj : j < (initCalls (modePins sclk mosi cs) sclk cs).length) :
    ∃ u order, List.Perm order (modePins sclk mosi cs) ∧ softwareInitCalls sclk mosi cs s = .aborted u ∧
      StoppedAt (initCalls order sclk cs) j s u := by
  rw [initCalls_eq, List.length_append, List.length_map] at hj
  by_cases hmode : j < (modePins sclk mosi cs).length
  · obtain ⟨u, order, hperm, hcalls, hstop⟩ := modeCalls_failed hfail hmode
    exact ⟨u, order, hperm, by rw [softwareInitCalls, hcalls, Progress.aborted_andThen], hstop.append _⟩
  · cases cs with
    | none => exact absurd hj hmode
    | some c =>
      have hlast : j = (modePins sclk mosi (some c)).length :=
        Nat.le_antisymm (Nat.lt_succ_iff.1 hj) (Nat.le_of_not_lt hmode)
      have hok : s.draws.okFor (modePins sclk mosi (some c)).length := by
        rw [Draws.okFor, hfail, ← hlast, List.take_left' List.length_replicate]
      obtain ⟨u, hcalls, hset, hdraws⟩ := modeCalls_ok (modePins sclk mosi (some c)) s hok
      obtain ⟨order, hperm, htrace⟩ := hset.trace
      rw [hfail, ← hlast, List.drop_left' List.length_replicate] at hdraws
      obtain ⟨v, hprime, hstop⟩ := primeClock_failed (sclk := sclk) (mosi := mosi) c hdraws
      refine ⟨v, order, hperm, by rw [softwareInitCalls, hcalls, Progress.going_andThen, hprime], ?_⟩
      have hwhole := hstop.prepend (s := s) (order.map .gpioMode) (by rw [htrace, List.map_map]; rfl) hset.wire
      rwa [List.length_map, hperm.length_eq, ← hlast] at hwhole

/-- Settles O17: the calls stop at the failed one (`softwareInitCalls_failed`), and the init returns TransportError. -/
theorem initSoftwareStopsAtTheFailedCall : Obligations.InitSoftwareStopsAtTheFailedCall := by
  unfold Obligations.InitSoftwareStopsAtTheFailedCall
  intro sclk mosi cs s j rest hidle hready hfail hj
  obtain ⟨u, order, hperm, hcalls, hstop⟩ := softwareInitCalls_failed hfail hj
  obtain ⟨hexec, hframe⟩ := exec_initSoftware_frame (sclk := sclk) (mosi := mosi) (cs := cs) hidle hready
  have hruns : Runs _ s (softwareInitCalls sclk mosi cs s) := initCalls_runs sclk mosi cs s
  rw [hcalls] at hexec hframe hruns
  obtain ⟨c, hc, htrace, hmode, hlevel⟩ := hstop.failed
  exact ⟨_, order, c, hperm, hexec, hc, htrace, congrArg (· ++ [_]) hruns.results, hruns.inst, hmode, hlevel,
    hframe.otherPins, hstop.wire, hframe.spi, hframe.engine, hframe.emission, hframe.gpioReady, hframe.params,
    hframe.pending⟩

end Sys2Proof.Machine
end

section
/-! SUPPORT. `update`: what it accepts, the stream it builds, and what it sends on the software engine
(42_update.md). -/

namespace Sys2Proof.Machine

/-! ### What update accepts -/

theorem exec_update_unconfigured (frames : Option (List FrameArg)) {s : State} (hidle : s.Idle)
    (hinst : s.inst = .unconfigured) : exec (.update frames) s = .next (s.ret (.invalidArgument .noDevice)) := by
  simp only [exec, execUpdate, whenIdle_idle hidle, withDevice, hinst, raiseInvalidArgument]

section

variable {cfg : TransmitterConfig} {s : State}

theorem exec_update_absent (hidle : s.Idle) (hcfg : s.inst = .configured cfg) :
    exec (.update none) s = .next (s.ret (.invalidArgument .nullFrames)) := by
  simp only [exec, execUpdate, whenIdle_idle hidle, withDevice, hcfg, raiseInvalidArgument]

theorem exec_update_empty (hidle : s.Idle) (hcfg : s.inst = .configured cfg) :
    exec (.update (some [])) s = .next (s.ret (.invalidArgument .emptyFrames)) := by
  simp only [exec, execUpdate, whenIdle_idle hidle, withDevice, hcfg, raiseInvalidArgument]

theorem exec_update_tooManyLeds {frames : List FrameArg} {nMax : Nat} (hidle : s.Idle)
    (hcfg : s.inst = .configured cfg) (hmax : s.params.nMax = some nMax) (hlt : nMax < frames.length) :
    exec (.update (some frames)) s = .refused .tooManyLeds := by
  obtain ⟨f, fs, rfl⟩ := List.exists_cons_of_length_pos (Nat.zero_lt_of_lt hlt)
  have hbound : ¬ withinNMax s.params.nMax (f :: fs).length = true := fun h =>
    Nat.not_le_of_lt hlt (withinNMax_iff.1 h nMax hmax)
  simp only [exec, execUpdate, whenIdle_idle hidle, withDevice, hcfg, if_neg hbound]

end

/-- Settles O30: an accepted list goes to the writer (`exec_update_configured`), whose calls return Ok or
TransportError. -/
theorem updateValidation : Obligations.UpdateValidation := by
  unfold Obligations.UpdateValidation
  refine ⟨fun frames s => exec_update_unconfigured frames, fun cfg s => exec_update_absent,
    fun cfg s => exec_update_empty,
    fun cfg frames nMax s hidle hcfg hmax hlt _ => exec_update_tooManyLeds hidle hcfg hmax hlt, ?_⟩
  intro cfg frames s hidle hcfg hmax hne
  refine ⟨_, exec_update_configured hidle hcfg hne hmax, ?_⟩
  rw [← (writeStream_runs cfg (stream (frames.map frameValue)) _ s (le_refl _)).results]
  exact Progress.finish_results _ _

/-! ### The stream -/

theorem length_stream_frameValue (frames : List FrameArg) :
    8 * (stream (frames.map frameValue)).length = 32 + 32 * frames.length + 8 * endBytes frames.length := by
  rw [length_stream, List.length_map]
  omega

/-- Settles O7: the bytes are those of the definition, and the counts follow from `length_stream`. -/
theorem streamLengthAndBitCount : Obligations.StreamLengthAndBitCount := by
  unfold Obligations.StreamLengthAndBitCount
  intro fs
  have hlen := length_stream fs
  refine ⟨rfl, hlen, by omega, fun hthree => ?_⟩
  have hend : endBytes 3 = 1 := by decide
  rw [hlen, hthree, hend]

/-- R40: the last of the first bits of a byte list. -/
theorem getLast?_bitsOf_succ (buf : List Byte) (n : Nat) : (bitsOf buf (n + 1)).getLast? = some (bitAt buf n) := by
  rw [bitsOf, List.range_succ, List.map_append, List.map_singleton, List.getLast?_concat]

/-- R54, R79: with an LED frame, the last bit of a stream is one of its end frame. -/
theorem getLast?_bitsOf_stream {fs : List LedFrame} (hne : fs ≠ []) :
    (bitsOf (stream fs) (8 * (stream fs).length)).getLast? = some true := by
  have hpos := endBytes_pos (List.length_pos_of_ne_nil hne)
  have hlen := length_stream fs
  obtain ⟨n, hn⟩ : ∃ n, 8 * (stream fs).length = n + 1 := Nat.exists_eq_add_one_of_ne_zero (by omega)
  rw [hn, getLast?_bitsOf_succ, bitAt_stream_end (by omega) (by omega)]

/-! ### update on the software engine -/

theorem length_swEvents (sclk mosi : Pin) (us : Nat) (bits : List Bool) :
    (swEvents sclk mosi us bits).length = 5 * bits.length := by
  simp only [swEvents, List.length_flatMap, bitEvents, List.length_cons, List.length_nil, List.map_const',
    List.sum_replicate, smul_eq_mul, Nat.mul_comm]

/-- R87, R92: with no operation under way, the software writer's return with every call answered ok. -/
theorem writeStream_software_finish {sclk mosi : Pin} (cs : Option Pin) {buf : List Byte} {nbits : Nat} {s : State}
    (hidle : s.Idle) (hfit : nbits ≤ 8 * buf.length) (hok : s.draws.okFor (3 * nbits)) :
    SentOnSoftware sclk mosi (bitsOf buf nbits) s
      ((writeStream (.software sclk mosi cs) buf nbits s).finish .unit) := by
  obtain ⟨hemission, hsent⟩ := writeStream_software_emitted (mosi := mosi) (sclk := sclk) cs hidle.1 hfit hok none
  rw [writeStream_finish_eq_emitted hidle hfit]
  rwa [← hemission.trans hidle.2.symm] at hsent

/-- Settles O31: the stream is not empty and its last bit is 1, which leaves the clock LOW and the data pin HIGH. -/
theorem softwareUpdateSendsTheStream : Obligations.SoftwareUpdateSendsTheStream := by
  unfold Obligations.SoftwareUpdateSendsTheStream
  intro frames sclk mosi cs s hidle hcfg hne hmax hok
  have hlast := getLast?_bitsOf_stream (fs := frames.map frameValue) (mt List.map_eq_nil_iff.1 hne)
  rw [← length_stream_frameValue] at hok ⊢
  have hsent := writeStream_software_finish (mosi := mosi) (sclk := sclk) cs hidle (le_refl _) hok
  refine ⟨_, exec_update_configured hidle hcfg hne hmax, hsent, hsent.clockLow ?_, fun hpins => ?_, ?_⟩
  · exact fun h => by simp [h] at hlast
  · exact hsent.dataLast hpins true hlast
  · rw [hsent.trace, List.length_append, length_swEvents, bitsOf, List.length_map, List.length_range]

end Sys2Proof.Machine
end

section
/-! SUPPORT. `update` is its emission steps in order, on the software engine (R81; log 1). -/

namespace Sys2Proof.Machine

/-! ### Sending bits, without the engine's record -/

/-- R87: the bits one after the other, up to the first failed call. -/
def sendBits (sclk mosi : Pin) : List Bool → State → Progress
  | [], s => .going s
  | b :: bits, s => (emitBitOn sclk mosi b s).andThen (sendBits sclk mosi bits)

theorem Progress.andThen_assoc (p : Progress) (f g : State → Progress) :
    (p.andThen f).andThen g = p.andThen fun s => (f s).andThen g := by
  cases p <;> rfl

theorem sendBits_append (sclk mosi : Pin) (bits bits' : List Bool) (s : State) :
    sendBits sclk mosi (bits ++ bits') s = (sendBits sclk mosi bits s).andThen (sendBits sclk mosi bits') := by
  induction bits generalizing s with
  | nil => rfl
  | cons b bits ih =>
    simp only [List.cons_append, sendBits, Progress.andThen_assoc]
    exact congrArg _ (funext ih)

theorem sendBits_runs (sclk mosi : Pin) (bits : List Bool) (s : State) :
    Runs (SwCall sclk mosi s.params.tHoldUs) s (sendBits sclk mosi bits s) := by
  induction bits generalizing s with
  | nil => exact Runs.refl _ s
  | cons b bits ih =>
    have hbit := emitBitOn_runs sclk mosi b s
    refine hbit.andThen fun t ht => ?_
    rw [ht] at hbit
    exact hbit.params ▸ ih t

/-- The state with another record of what is under way and what was returned. -/
def State.withRecord (s : State) (engine : Option Engine) (position : Option Emission) (rs : List Result) : State :=
  { s with engine := engine, emission := position, results := rs }

/-- Collaborator calls that neither read nor write the record: it may be changed before or after them. -/
def BlindToRecord (f : State → Progress) : Prop :=
  ∀ s engine position rs, f (s.withRecord engine position rs) = (f s).map fun t => t.withRecord engine position rs

theorem BlindToRecord.andThen {f g : State → Progress} (hf : BlindToRecord f) (hg : BlindToRecord g) :
    BlindToRecord fun s => (f s).andThen g := by
  intro s engine position rs
  simp only [hf s]
  cases f s with
  | going t => exact hg t engine position rs
  | aborted t => rfl

theorem clockEdges_withRecord (clk dat p : Pin) (lvl : Level) (s : State) (engine : Option Engine)
    (position : Option Emission) (rs : List Result) :
    clockEdges clk dat p lvl (s.withRecord engine position rs) =
      (clockEdges clk dat p lvl s).withRecord engine position rs := by
  have hlevel : (s.withRecord engine position rs).level clk = s.level clk := rfl
  have hdraws : (s.withRecord engine position rs).draws.takeWasLow = s.draws.takeWasLow := rfl
  unfold clockEdges
  rw [hlevel, hdraws]
  split
  · cases s.level clk with
    | some before => rfl
    | none => rcases s.draws.takeWasLow with ⟨_ | _, d⟩ <;> rfl
  · rfl

theorem blind_gpioWrite (clk dat p : Pin) (lvl : Level) : BlindToRecord (gpioWrite clk dat p lvl) := by
  intro s engine position rs
  have hdraws : (s.withRecord engine position rs).draws.takeFail = s.draws.takeFail := rfl
  unfold gpioWrite callCollaborator
  rw [hdraws]
  rcases s.draws.takeFail with ⟨_ | _, d⟩
  · exact congrArg (fun t => Progress.going (t.setLevel p (some lvl))) (clockEdges_withRecord clk dat p lvl
      (({ s with draws := d } : State).log (.gpioWrite p lvl) .ok) engine position rs)
  · rfl

theorem blind_delay : BlindToRecord delay := fun _ _ _ _ => rfl

theorem blind_emitBitOn (sclk mosi : Pin) (bit : Bool) : BlindToRecord (emitBitOn sclk mosi bit) :=
  ((((blind_gpioWrite _ _ _ _).andThen (blind_gpioWrite _ _ _ _)).andThen blind_delay).andThen
    (blind_gpioWrite _ _ _ _)).andThen blind_delay

theorem blind_sendBits (sclk mosi : Pin) (bits : List Bool) : BlindToRecord (sendBits sclk mosi bits) := by
  induction bits with
  | nil => exact fun _ _ _ _ => rfl
  | cons b bits ih => exact (blind_emitBitOn sclk mosi b).andThen ih

/-! ### The software engine sends its bits -/

theorem emitBitOn_stopEngine (sclk mosi : Pin) (bit : Bool) (s : State) :
    emitBitOn sclk mosi bit s.stopEngine = (emitBitOn sclk mosi bit s).map State.stopEngine := by
  have hruns := emitBitOn_runs sclk mosi bit s
  refine (blind_emitBitOn sclk mosi bit s none s.emission s.results).trans ?_
  rw [← hruns.emission, ← hruns.results]
  cases emitBitOn sclk mosi bit s <;> rfl

/-- R87: the engine's loop sends the bits from its cursor on, whatever the calls answer. -/
theorem swLoop_eq_sendBits {sclk mosi : Pin} {buf : List Byte} {nbits : Nat} (m : Nat) {k : Nat} {s : State}
    (hengine : s.engine = some { buf := buf, nbits := nbits, k := k }) (hk : k + m = nbits) :
    (swLoop sclk mosi m s).map State.stopEngine = sendBits sclk mosi (bitsFrom buf k m) s.stopEngine := by
  induction m generalizing k s with
  | zero => rfl
  | succ m ih =>
    have hsame := emitBitOn_engine sclk mosi (bitAt buf k) s
    rw [bitsFrom_succ, sendBits, emitBitOn_stopEngine]
    simp only [swLoop, hengine, if_pos (show k < nbits by omega)]
    cases hp : emitBitOn sclk mosi (bitAt buf k) s with
    | aborted t => rfl
    | going t =>
      rw [hp, Progress.state_going, hengine] at hsame
      exact ih (s := t.advance 1) (by rw [State.advance_engine, hsame]; rfl) (by omega)

/-- R87, R90: between operations the software engine is nothing but its bits sent. -/
theorem writeStream_software_eq_sendBits {sclk mosi : Pin} (cs : Option Pin) (buf : List Byte) (nbits : Nat)
    {s : State} (hquiet : s.engine = none) :
    writeStream (.software sclk mosi cs) buf nbits s = sendBits sclk mosi (bitsOf buf nbits) s := by
  have hstart : (s.startEngine buf nbits).stopEngine = s := by
    rw [State.stopEngine, State.startEngine, ← hquiet]
  have hloop := swLoop_eq_sendBits (sclk := sclk) (mosi := mosi) nbits (k := 0)
    (State.startEngine_engine s buf nbits) (Nat.zero_add _)
  rwa [bitsFrom_zero, hstart] at hloop

/-! ### update is its emissions in order -/

/-- R81: issued one after the other from `s`, the instructions leave what sending the bits of `bytes` leaves, but for
their return values and the stream's position, which comes to `position`. -/
def StreamsOnSoftware (sclk mosi : Pin) (is : List Instr) (bytes : List Byte) (position : Option Emission)
    (s : State) : Prop :=
  ∀ v, sendBits sclk mosi (bitsOf bytes (8 * bytes.length)) s = .going v →
    ∃ rs, execAll is s = .next (v.withRecord none position rs)

/-- A state between two emissions of a stream that was begun from `s`. -/
structure BetweenEmissions (position : Option Emission) (s t : State) : Prop where
  engine : t.engine = none
  emission : t.emission = position
  inst : t.inst = s.inst
  params : t.params = s.params

section

variable {sclk mosi : Pin} {cs : Option Pin} {s : State}

theorem StreamsOnSoftware.nil (hquiet : s.engine = none) : StreamsOnSoftware sclk mosi [] [] s.emission s := by
  intro v hv
  cases hv
  exact ⟨s.results, by rw [State.withRecord, ← hquiet]; rfl⟩

/-- What comes next runs from a state that differs, from what the bits before it leave, in the record alone. -/
theorem StreamsOnSoftware.append {is is' : List Instr} {bytes bytes' : List Byte} {position position' : Option Emission}
    (h : StreamsOnSoftware sclk mosi is bytes position s)
    (h' : ∀ t, BetweenEmissions position s t → StreamsOnSoftware sclk mosi is' bytes' position' t) :
    StreamsOnSoftware sclk mosi (is ++ is') (bytes ++ bytes') position' s := by
  intro w hw
  rw [bitsOf_append, sendBits_append] at hw
  obtain ⟨v, hv, hw⟩ := Progress.andThen_going hw
  have hruns := sendBits_runs sclk mosi (bitsOf bytes (8 * bytes.length)) s
  rw [hv] at hruns
  obtain ⟨rs, hexec⟩ := h v hv
  have hrest := blind_sendBits sclk mosi (bitsOf bytes' (8 * bytes'.length)) v none position rs
  rw [hw] at hrest
  obtain ⟨rs', hexec'⟩ := h' (v.withRecord none position rs) ⟨rfl, rfl, hruns.inst, hruns.params⟩ _ hrest
  exact ⟨rs', by rw [execAll_append hexec, hexec']; rfl⟩

/-- R81: one emission where a stream has it. -/
theorem streamsOnSoftware_emission {i : Instr} {bytes : List Byte} {position : Except Refusal (Option Emission)}
    {next : Option Emission} (hquiet : s.engine = none) (hcfg : s.inst = .configured (.software sclk mosi cs))
    (hexec : exec i s = emitFrame bytes position s) (hposition : position = .ok next) :
    StreamsOnSoftware sclk mosi [i] bytes next s := by
  intro v hv
  have hengine := writeStream_engine (.software sclk mosi cs) bytes (8 * bytes.length) s
  rw [hposition, emitFrame_configured bytes next hquiet hcfg] at hexec
  rw [writeStream_software_eq_sendBits cs _ _ hquiet, hv] at hexec hengine
  refine ⟨v.results ++ [.ok .unit], (execAll_cons hexec).trans (congrArg _ ?_)⟩
  rw [State.withRecord, ← hengine]
  rfl

/-- R81: the LED frames of a stream, in order. -/
theorem streamsOnSoftware_leds (fs : List LedFrame) {n : Nat} (hquiet : s.engine = none)
    (hcfg : s.inst = .configured (.software sclk mosi cs)) (hposition : s.emission = some (.leds n))
    (hmax : ∀ m, s.params.nMax = some m → n + fs.length ≤ m) :
    StreamsOnSoftware sclk mosi (fs.map ledStep) (fs.flatMap ledBytes) (some (.leds (n + fs.length))) s := by
  induction fs generalizing n s with
  | nil => exact hposition ▸ .nil hquiet
  | cons f fs ih =>
    rw [List.length_cons] at hmax ⊢
    have hled : StreamsOnSoftware sclk mosi [ledStep f] (ledBytes f) (some (.leds (n + 1))) s :=
      streamsOnSoftware_emission hquiet hcfg rfl
        (by rw [hposition]; exact afterLed_leds fun m hm => by have := hmax m hm; omega)
    refine hled.append fun t ht => ?_
    rw [Nat.add_comm fs.length, ← Nat.add_assoc]
    exact ih ht.engine (ht.inst.trans hcfg) ht.emission fun m hm => by have := hmax m (ht.params ▸ hm); omega

theorem streamsOnSoftware_end {n m : Nat} (hquiet : s.engine = none)
    (hcfg : s.inst = .configured (.software sclk mosi cs)) (hposition : EndByteNext n m s.emission) :
    StreamsOnSoftware sclk mosi [.fEnd] [Config.endByte] (endsAfter n (m + 1)) s :=
  streamsOnSoftware_emission hquiet hcfg rfl hposition.afterEnd_eq

/-- R54, R79: the end-frame bytes that are left of a stream. -/
theorem streamsOnSoftware_ends {n m left : Nat} (hquiet : s.engine = none)
    (hcfg : s.inst = .configured (.software sclk mosi cs)) (hposition : EndByteNext n m s.emission)
    (hleft : m + (left + 1) = endBytes n) :
    StreamsOnSoftware sclk mosi (List.replicate (left + 1) .fEnd) (List.replicate (left + 1) Config.endByte) none
      s := by
  induction left generalizing m s with
  | zero =>
    have hend := streamsOnSoftware_end hquiet hcfg hposition
    rwa [endsAfter, if_neg (by omega)] at hend
  | succ left ih =>
    have hend := streamsOnSoftware_end hquiet hcfg hposition
    rw [endsAfter, if_pos (by omega)] at hend
    exact hend.append fun t ht => ih ht.engine (ht.inst.trans hcfg) (.inr ht.emission) (by omega)

/-- R81: start frame, LED frames and end-frame bytes, each from where the part before it left the stream. -/
theorem streamsOnSoftware_emissions {fs : List LedFrame} (hidle : s.Idle)
    (hcfg : s.inst = .configured (.software sclk mosi cs)) (hne : fs ≠ [])
    (hmax : ∀ m, s.params.nMax = some m → fs.length ≤ m) :
    StreamsOnSoftware sclk mosi (emissions fs) (stream fs) none s := by
  have hframes : 1 ≤ fs.length := List.length_pos_of_ne_nil hne
  obtain ⟨left, hleft⟩ := Nat.exists_eq_add_one_of_ne_zero (Nat.ne_of_gt (endBytes_pos hframes))
  have hstart : StreamsOnSoftware sclk mosi [.fStart] startFrame (some (.leds 0)) s :=
    streamsOnSoftware_emission hidle.1 hcfg rfl (by rw [hidle.2]; rfl)
  have hbody := hstart.append (is' := fs.map ledStep) (bytes' := fs.flatMap ledBytes) fun t ht =>
    streamsOnSoftware_leds fs ht.engine (ht.inst.trans hcfg) ht.emission
      fun m hm => by have := hmax m (ht.params ▸ hm); omega
  rw [Nat.zero_add] at hbody
  rw [emissions, stream, endFrame, hleft]
  exact hbody.append fun t ht =>
    streamsOnSoftware_ends ht.engine (ht.inst.trans hcfg) (.inl ⟨ht.emission, hframes, rfl⟩) (by omega)

end

/-- Settles O36: both are the bits of the stream sent (`writeStream_software_eq_sendBits`,
`streamsOnSoftware_emissions`), with no stream begun at the end. -/
theorem updateIsItsEmissionsInOrder : Obligations.UpdateIsItsEmissionsInOrder := by
  unfold Obligations.UpdateIsItsEmissionsInOrder
  intro frames sclk mosi cs s hne hidle hcfg hmax hok
  rw [← length_stream_frameValue] at hok
  have hupdate := exec_update_configured hidle hcfg hne hmax
  have hruns := writeStream_runs (.software sclk mosi cs) _ _ s (le_refl (8 * (stream (frames.map frameValue)).length))
  obtain ⟨v, hv, -, -, hengine⟩ := swEngine_ok (sclk := sclk) (mosi := mosi)
    (buf := stream (frames.map frameValue)) hok
  have hgoing : writeStream (.software sclk mosi cs) (stream (frames.map frameValue)) _ s = .going v := hv
  rw [hgoing] at hupdate hruns
  have hbits := (writeStream_software_eq_sendBits cs _ _ hidle.1).symm.trans hgoing
  obtain ⟨rs, hexec⟩ := streamsOnSoftware_emissions hidle hcfg (mt List.map_eq_nil_iff.1 hne)
    (by rwa [List.length_map]) v hbits
  refine ⟨_, _, hupdate, hexec, ?_⟩
  have hemission : v.emission = none := hruns.emission.trans hidle.2
  rw [State.withRecord, ← hengine, ← hemission]
  rfl

end Sys2Proof.Machine
end

section
/-! SUPPORT. Instructions and inputs without a device, and while an operation is under way (R77, R85, R109). -/

namespace Sys2Proof.Machine

theorem emitFrame_unconfigured (bytes : List Byte) (position : Except Refusal (Option Emission)) {s : State}
    (hquiet : s.engine = none) (hinst : s.inst = .unconfigured) :
    emitFrame bytes position s = .next (s.ret (.invalidArgument .noDevice)) := by
  simp only [emitFrame, whenNoWriter_idle hquiet, withDevice, hinst, raiseInvalidArgument]

/-- Settles O42: each wire format is an emission. -/
theorem wireFormatsNeedADevice : Obligations.WireFormatsNeedADevice := by
  unfold Obligations.WireFormatsNeedADevice
  intro brightness blue green red s hquiet hinst
  exact ⟨emitFrame_unconfigured _ _ hquiet hinst, emitFrame_unconfigured _ _ hquiet hinst,
    emitFrame_unconfigured _ _ hquiet hinst⟩

/-- R85, R109: what is neither `makeFrame` nor an emission step is refused while an operation is under way. -/
theorem exec_busy {i : Instr} {s : State} (hbusy : ¬ s.Idle) (hmake : ∀ r g b br, i ≠ .makeFrame r g b br)
    (hi : isEmission i = false) : exec i s = .refused .overlappingOperation := by
  cases i with
  | fStart => cases hi
  | fLed br b g r => cases hi
  | fEnd => cases hi
  | makeFrame r g b br => exact absurd rfl (hmake r g b br)
  | initHardware channel => simp only [exec, execInitHardware, whenIdle_busy hbusy]
  | initSoftware sclk mosi cs => simp only [exec, execInitSoftware, whenIdle_busy hbusy]
  | update frames => simp only [exec, execUpdate, whenIdle_busy hbusy]
  | writeBits buf nbits => simp only [exec, execWriteBits, whenIdle_busy hbusy]
  | swWriteBits buf nbits => simp only [exec, execSwWriteBits, whenIdle_busy hbusy]
  | emitBit bit => simp only [exec, execEmitBit, whenIdle_busy hbusy]
  | hwWriteBits buf nbits => simp only [exec, execHwWriteBits, whenIdle_busy hbusy]

/-- R109: an emission step is refused while a bit writer runs. -/
theorem exec_emission_busy {i : Instr} {s : State} (hbusy : s.engine ≠ none) (hi : isEmission i = true) :
    exec i s = .refused .overlappingOperation := by
  obtain ⟨e, he⟩ := Option.ne_none_iff_exists'.1 hbusy
  cases i with
  | fStart => simp only [exec, execFStart, emitFrame, whenNoWriter_busy he]
  | fLed br b g r => simp only [exec, execFLed, emitFrame, whenNoWriter_busy he]
  | fEnd => simp only [exec, execFEnd, emitFrame, whenNoWriter_busy he]
  | makeFrame r g b br => cases hi
  | initHardware channel => cases hi
  | initSoftware sclk mosi cs => cases hi
  | update frames => cases hi
  | writeBits buf nbits => cases hi
  | swWriteBits buf nbits => cases hi
  | emitBit bit => cases hi
  | hwWriteBits buf nbits => cases hi

/-- Settles O51: by the instructions that look for a writer alone (`exec_emission_busy`) and those that look for a
begun stream too (`exec_busy`). -/
theorem overlappingOperationsRefused : Obligations.OverlappingOperationsRefused := by
  unfold Obligations.OverlappingOperationsRefused
  intro s
  refine ⟨fun hwriter i hmake => ?_, fun hbegun i hmake hi => exec_busy (fun h => hbegun h.2) hmake hi,
    fun hunder => ?_⟩
  · cases hi : isEmission i with
    | true => exact exec_emission_busy hwriter hi
    | false => exact exec_busy (fun h => hwriter h.1) hmake hi
  · have hbusy : ¬ s.Idle := fun h => hunder.elim (· h.1) (· h.2)
    refine ⟨fun p lvl rest hp => ?_, fun rest hp => ?_⟩
    · rw [step_of_actorWrite hp]
      exact whenIdle_busy hbusy
    · rw [step_of_gpioSetup hp]
      exact whenIdle_busy hbusy

end Sys2Proof.Machine
end

section
/-! SUPPORT. The internal operations (43_bit_writer.md): which engine they run, what they refuse, and what the software
writer sends when every call is answered ok. -/

namespace Sys2Proof.Machine

/-! ### The configuration an internal operation runs on -/

theorem whenConfigured_of_configured {cfg : TransmitterConfig} {s : State}
    {f : TransmitterConfig → State → Host.Outcome State Fault Refusal} (hidle : s.Idle)
    (hcfg : s.inst = .configured cfg) : whenIdle s (fun s => withConfig s f) = f cfg s := by
  simp only [whenIdle_idle hidle, withConfig, hcfg]

theorem whenConfigured_of_unconfigured {s : State} {f : TransmitterConfig → State → Host.Outcome State Fault Refusal}
    (hidle : s.Idle) (hinst : s.inst = .unconfigured) :
    whenIdle s (fun s => withConfig s f) = .refused .wrongConfiguration := by
  simp only [whenIdle_idle hidle, withConfig, hinst]

theorem exec_swWriteBits_software {sclk mosi : Pin} {cs : Option Pin} (buf : List Byte) (nbits : Nat) {s : State}
    (hidle : s.Idle) (hcfg : s.inst = .configured (.software sclk mosi cs)) :
    exec (.swWriteBits buf nbits) s = checkedWrite (.software sclk mosi cs) buf nbits s :=
  whenConfigured_of_configured hidle hcfg

theorem exec_emitBit_software {sclk mosi : Pin} {cs : Option Pin} (bit : Bool) {s : State} (hidle : s.Idle)
    (hcfg : s.inst = .configured (.software sclk mosi cs)) :
    exec (.emitBit bit) s = .next ((emitBitOn sclk mosi bit s).finish .unit) :=
  whenConfigured_of_configured hidle hcfg

/-- Settles O27: both run the checked write of the configuration, and while an operation is under way both are refused
(`exec_busy`). -/
theorem writeBitsIsTheConfiguredEngine : Obligations.WriteBitsIsTheConfiguredEngine := by
  unfold Obligations.WriteBitsIsTheConfiguredEngine
  intro buf nbits s
  by_cases hidle : s.Idle
  · exact ⟨fun sclk mosi cs hcfg => (exec_writeBits_configured buf nbits hidle hcfg).trans
        (exec_swWriteBits_software buf nbits hidle hcfg).symm,
      fun ch hcfg => (exec_writeBits_configured buf nbits hidle hcfg).trans
        (exec_hwWriteBits_hardware buf nbits hidle hcfg).symm⟩
  · have hbusy := exec_busy (i := .writeBits buf nbits) hidle (by simp) rfl
    exact ⟨fun _ _ _ _ => hbusy.trans (exec_busy hidle (by simp) rfl).symm,
      fun _ _ => hbusy.trans (exec_busy hidle (by simp) rfl).symm⟩

/-- Settles O29: without any configuration all are refused (`whenConfigured_of_unconfigured`), and with the other
engine's those that name an engine. -/
theorem internalOperationsNeedTheirConfiguration : Obligations.InternalOperationsNeedTheirConfiguration := by
  unfold Obligations.InternalOperationsNeedTheirConfiguration
  intro buf nbits bit s hidle
  refine ⟨fun hinst => ⟨?_, ?_, ?_, ?_⟩, fun ch hcfg => ⟨?_, ?_⟩, fun sclk mosi cs hcfg => ?_⟩
  · exact whenConfigured_of_unconfigured hidle hinst
  · exact whenConfigured_of_unconfigured hidle hinst
  · exact whenConfigured_of_unconfigured hidle hinst
  · exact whenConfigured_of_unconfigured hidle hinst
  · exact whenConfigured_of_configured hidle hcfg
  · exact whenConfigured_of_configured hidle hcfg
  · exact whenConfigured_of_configured hidle hcfg

/-! ### The writer's preconditions -/

theorem checkedWrite_beyondBuffer (cfg : TransmitterConfig) {buf : List Byte} {nbits : Nat} (s : State)
    (hlt : 8 * buf.length < nbits) : checkedWrite cfg buf nbits s = .refused .countBeyondBuffer := by
  have hfit : ¬ countFits buf nbits = true := by simpa [countFits] using hlt
  simp only [checkedWrite, if_neg hfit]

theorem checkedWrite_partialByte (ch : Channel) {buf : List Byte} {nbits : Nat} (s : State)
    (hfit : nbits ≤ 8 * buf.length) (hpartial : nbits % 8 ≠ 0) :
    checkedWrite (.hardware ch) buf nbits s = .refused .partialByte := by
  simp only [checkedWrite, countFits, wholeBytes, hfit, hpartial, decide_true, decide_false, if_true,
    Bool.false_eq_true, if_false]

theorem checkedWrite_software (sclk mosi : Pin) (cs : Option Pin) {buf : List Byte} {nbits : Nat} (s : State)
    (hfit : nbits ≤ 8 * buf.length) :
    checkedWrite (.software sclk mosi cs) buf nbits s =
      .next ((writeStream (.software sclk mosi cs) buf nbits s).finish .unit) := by
  simp only [checkedWrite, countFits, hfit, decide_true, if_true]

/-- Settles O28: the writer and the configured engine run one checked write, which refuses the count. -/
theorem badBitCountsRefused : Obligations.BadBitCountsRefused := by
  unfold Obligations.BadBitCountsRefused
  intro buf nbits s hidle
  refine ⟨fun sclk mosi cs hcfg hlt => ?_, fun ch hcfg hlt => ?_, fun ch hcfg hfit hpartial => ?_⟩
  · rw [exec_writeBits_configured buf nbits hidle hcfg, exec_swWriteBits_software buf nbits hidle hcfg, and_self]
    exact checkedWrite_beyondBuffer _ s hlt
  · rw [exec_writeBits_configured buf nbits hidle hcfg, exec_hwWriteBits_hardware buf nbits hidle hcfg, and_self]
    exact checkedWrite_beyondBuffer _ s hlt
  · rw [exec_writeBits_configured buf nbits hidle hcfg, exec_hwWriteBits_hardware buf nbits hidle hcfg, and_self]
    exact checkedWrite_partialByte ch s hfit hpartial

/-- Settles O22: both instructions run the software writer (`writeStream_software_finish`). -/
theorem softwareWriterSendsTheBits : Obligations.SoftwareWriterSendsTheBits := by
  unfold Obligations.SoftwareWriterSendsTheBits
  intro buf nbits sclk mosi cs s hidle hcfg hfit hok
  have hwrite := checkedWrite_software sclk mosi cs s hfit
  have hsent := writeStream_software_finish (sclk := sclk) (mosi := mosi) cs hidle hfit hok
  refine ⟨_, (exec_swWriteBits_software buf nbits hidle hcfg).trans hwrite,
    (exec_writeBits_configured buf nbits hidle hcfg).trans hwrite, hsent, ?_⟩
  rw [hsent.trace, List.length_append, length_swEvents, bitsOf, List.length_map, List.length_range]

end Sys2Proof.Machine
end

section
/-! SUPPORT. `emitBit`: its five calls and their clock edges when every call is answered ok, and its three stops. -/

namespace Sys2Proof.Machine

/-! ### Every call answered ok -/

/-- The state after one bit (R89). -/
def afterBit (sclk mosi : Pin) (bit : Bool) (w : List WireEvent) (d : Draws) (s : State) : State :=
  { s with
    levels := bitLevels sclk mosi bit s
    trace := s.trace ++ bitEvents sclk mosi s.params.tHoldUs bit
    wire := s.wire ++ w
    draws := d }

/-- The three writes of a bit answered ok. -/
theorem exec_emitBit_ok {sclk mosi : Pin} {cs : Option Pin} (bit : Bool) {s : State} (hidle : s.Idle)
    (hcfg : s.inst = .configured (.software sclk mosi cs)) (hok : s.draws.okFor 3) :
    ∃ w d, exec (.emitBit bit) s = .next ((afterBit sclk mosi bit w d s).ret (.ok .unit)) ∧
      BitOnWire sclk mosi bit s w := by
  obtain ⟨rest₁, hfail, hok₁⟩ := Draws.okFor_succ hok
  obtain ⟨rest₂, rfl, hok₂⟩ := Draws.okFor_succ (d := { s.draws with fail := rest₁ }) hok₁
  obtain ⟨rest, rfl, -⟩ := Draws.okFor_succ (d := { s.draws with fail := rest₂ }) hok₂
  obtain ⟨w, d, hbit, -, hwire⟩ := emitBitOn_ok (sclk := sclk) (mosi := mosi) (bit := bit) hfail
  exact ⟨w, d, by rw [exec_emitBit_software bit hidle hcfg, hbit]; rfl, hwire⟩

theorem sentOnSoftware_afterBit {sclk mosi : Pin} {bit : Bool} {w : List WireEvent} (d : Draws) {s : State}
    (hwire : BitOnWire sclk mosi bit s w) :
    SentOnSoftware sclk mosi [bit] s ((afterBit sclk mosi bit w d s).ret (.ok .unit)) := by
  have hsent : SwSent sclk mosi [bit] s (afterBit sclk mosi bit w d s) :=
    SwSent.cons (e := s.engine) rfl hwire (SwSent.nil sclk mosi _)
  exact
    { trace := hsent.trace
      results := rfl
      clockLow := hsent.clockLow
      dataLast := hsent.dataLast
      noBits := hsent.noBits
      otherPins := hsent.otherPins
      frame := ⟨rfl, rfl, rfl, rfl, rfl, rfl, rfl, rfl⟩ }

/-- Settles O19: the events are `bitEvents`. -/
theorem emitBitMakesItsFiveCalls : Obligations.EmitBitMakesItsFiveCalls := by
  unfold Obligations.EmitBitMakesItsFiveCalls
  intro bit sclk mosi cs s hidle hcfg hok
  obtain ⟨w, d, hexec, hwire⟩ := exec_emitBit_ok bit hidle hcfg hok
  exact ⟨_, hexec, sentOnSoftware_afterBit d hwire, rfl⟩

/-- R91, R118: from an unknown clock level the draw says whether the rising edge is there. -/
theorem BitOnWire.fromDrawn {sclk mosi : Pin} {bit wasLow : Bool} {rest : List Bool} {s : State} {w : List WireEvent}
    (h : BitOnWire sclk mosi bit s w) (hne : sclk ≠ mosi) (hunknown : s.level sclk = none)
    (hdraw : s.draws.wasLow = wasLow :: rest) :
    w = if wasLow then [.rising sclk (some (levelOfBit bit)), .falling sclk] else [.falling sclk] := by
  obtain ⟨b, hb, rfl⟩ := h hne
  rw [hb.drawn hunknown wasLow rest hdraw]
  cases wasLow <;> rfl

/-- Settles O21, by the clock level that the bit finds. -/
theorem emitBitClockEdges : Obligations.EmitBitClockEdges := by
  unfold Obligations.EmitBitClockEdges
  intro bit sclk mosi cs s hidle hcfg hne hok
  obtain ⟨w, d, hexec, hwire⟩ := exec_emitBit_ok bit hidle hcfg hok
  refine ⟨_, hexec, (sentOnSoftware_afterBit d hwire).clockLow (List.cons_ne_nil _ _), fun hlow => ?_, fun hhigh => ?_,
    fun wasLow rest hunknown hdraw => ?_⟩
  · exact congrArg (s.wire ++ ·) (hwire.fromLow hne hlow)
  · exact congrArg (s.wire ++ ·) (hwire.fromHigh hne hhigh)
  · exact congrArg (s.wire ++ ·) (hwire.fromDrawn hne hunknown hdraw)

/-! ### A failed write -/

/-- R101: `emitBit` returns TransportError from where its calls stopped, and nothing else than what they wrote has
changed. -/
theorem exec_emitBit_aborted {sclk mosi : Pin} {cs : Option Pin} {bit : Bool} {s u : State} (hidle : s.Idle)
    (hcfg : s.inst = .configured (.software sclk mosi cs)) (h : emitBitOn sclk mosi bit s = .aborted u) :
    exec (.emitBit bit) s = .next (u.ret .transportError) ∧
      (u.ret .transportError).results = s.results ++ [.transportError] ∧ SameBut s (u.ret .transportError) := by
  have hruns : Runs (WriterCall s.params.tHoldUs (.software sclk mosi cs)) s (emitBitOn sclk mosi bit s) :=
    emitBitOn_runs sclk mosi bit s
  have hframe := hruns.sameBut_of_writer (emitBitOn_engine sclk mosi bit s)
  have hresults := hruns.results
  rw [h] at hframe hresults
  refine ⟨?_, congrArg (· ++ [Result.transportError]) hresults, { hframe with }⟩
  rw [exec_emitBit_software bit hidle hcfg, h, Progress.aborted_finish]

theorem exists_afterFailed (clk dat p : Pin) (lvl : Level) {s : State} {rest : List Bool}
    (h : s.draws.fail = true :: rest) : ∃ d, gpioWrite clk dat p lvl s = .aborted (afterFailed p lvl d s) :=
  ⟨_, gpioWrite_failed h⟩

theorem afterFailed_self (p : Pin) (lvl : Level) (d : Draws) (s : State) : (afterFailed p lvl d s).level p = none := by
  simp [State.level, afterFailed]

theorem afterFailed_other {p q : Pin} (lvl : Level) (d : Draws) (s : State) (h : q ≠ p) :
    (afterFailed p lvl d s).level q = s.level q := by
  have : p.val ≠ q.val := fun e => h (Fin.ext e.symm)
  simp [State.level, afterFailed, this]

theorem afterRise_mosi {sclk mosi : Pin} (bit : Bool) (w : List WireEvent) (d : Draws) (s : State) (h : mosi ≠ sclk) :
    (afterRise sclk mosi bit w d s).level mosi = some (levelOfBit bit) := by
  have : sclk.val ≠ mosi.val := fun e => h (Fin.ext e.symm)
  simp [State.level, afterRise, this]

theorem afterRise_other {sclk mosi p : Pin} (bit : Bool) (w : List WireEvent) (d : Draws) (s : State) (hmosi : p ≠ mosi)
    (hsclk : p ≠ sclk) : (afterRise sclk mosi bit w d s).level p = s.level p := by
  have h1 : sclk.val ≠ p.val := fun e => hsclk (Fin.ext e.symm)
  have h2 : mosi.val ≠ p.val := fun e => hmosi (Fin.ext e.symm)
  simp [State.level, afterRise, h1, h2]

section

variable {sclk mosi : Pin} {bit : Bool} {s : State} {rest : List Bool}

/-- R89, R101: the data write answered failed. -/
theorem emitBitOn_data_failed (h : s.draws.fail = true :: rest) :
    ∃ d, emitBitOn sclk mosi bit s = .aborted (afterFailed mosi (levelOfBit bit) d s) := by
  obtain ⟨d, hstop⟩ := exists_afterFailed sclk mosi mosi (levelOfBit bit) h
  exact ⟨d, by rw [emitBitOn, hstop]; rfl⟩

/-- The data write answered ok. -/
theorem dataWrite_ok (sclk mosi : Pin) (bit : Bool) (h : s.draws.fail = false :: rest) :
    ∃ w d, gpioWrite sclk mosi mosi (levelOfBit bit) s = .going (afterData mosi bit w d s) ∧
      (afterData mosi bit w d s).draws.fail = rest ∧ EdgesOf sclk mosi mosi (levelOfBit bit) s w d :=
  gpioWrite_ok h

/-- R89, R101: the rising clock write answered failed. -/
theorem emitBitOn_rise_failed (h : s.draws.fail = false :: true :: rest) :
    ∃ w d₁ d, emitBitOn sclk mosi bit s = .aborted (afterFailed sclk .high d (afterData mosi bit w d₁ s)) ∧
      EdgesOf sclk mosi mosi (levelOfBit bit) s w d₁ := by
  obtain ⟨w, d₁, hdata, hfail, hedges⟩ := dataWrite_ok sclk mosi bit h
  obtain ⟨d, hstop⟩ := exists_afterFailed sclk mosi sclk .high hfail
  refine ⟨w, d₁, d, ?_, hedges⟩
  rw [emitBitOn, hdata, Progress.going_andThen, hstop]
  rfl

/-- R89, R101: the falling clock write answered failed. -/
theorem emitBitOn_fall_failed (h : s.draws.fail = false :: false :: true :: rest) :
    ∃ w₁ w₂ d₁ d₂ d,
      emitBitOn sclk mosi bit s = .aborted (afterFailed sclk .low d (afterRise sclk mosi bit (w₁ ++ w₂) d₂ s)) ∧
      EdgesOf sclk mosi mosi (levelOfBit bit) s w₁ d₁ ∧
      EdgesOf sclk mosi sclk .high (afterData mosi bit w₁ d₁ s) w₂ d₂ := by
  obtain ⟨w₁, d₁, hdata, hfail₁, hedges₁⟩ := dataWrite_ok sclk mosi bit h
  obtain ⟨w₂, d₂, hrise, hfail₂, hedges₂⟩ := gpioWrite_ok (clk := sclk) (dat := mosi) (p := sclk) (lvl := .high) hfail₁
  obtain ⟨d, hstop⟩ := exists_afterFailed sclk mosi sclk .low (s := afterRise sclk mosi bit (w₁ ++ w₂) d₂ s) hfail₂
  refine ⟨w₁, w₂, d₁, d₂, d, ?_, hedges₁, hedges₂⟩
  rw [emitBitOn, rise_of_writes hdata hrise, Progress.going_andThen, hstop, Progress.aborted_andThen]

/-- R91: on one pin, the rising clock write finds the level of the bit, as clock and as data. -/
theorem riseEdges_of_onePin {p : Pin} {w₁ w₂ : List WireEvent} {d₁ d₂ : Draws}
    (h : EdgesOf p p p .high (afterData p bit w₁ d₁ s) w₂ d₂) :
    w₂ = edgeOf p (levelOfBit bit) .high (some (levelOfBit bit)) := by
  obtain ⟨b, hb, rfl⟩ := h.on rfl
  rw [hb.of_known (afterData_mosi ..), afterData_mosi]

/-- R91: on two pins, the data write makes no edge and the rising clock write carries the bit. -/
theorem edges_of_twoPins {w₁ w₂ : List WireEvent} {d₁ d₂ : Draws} (hne : sclk ≠ mosi)
    (hdata : EdgesOf sclk mosi mosi (levelOfBit bit) s w₁ d₁)
    (hrise : EdgesOf sclk mosi sclk .high (afterData mosi bit w₁ d₁ s) w₂ d₂) :
    ∃ b, ClockMayBe s sclk b ∧ w₁ ++ w₂ = edgeOf sclk b .high (some (levelOfBit bit)) := by
  obtain ⟨rfl, hdraw⟩ := hdata.off hne.symm
  obtain ⟨b, hb, rfl⟩ := hrise.on rfl
  exact ⟨b, hb.of_eq (afterData_other bit _ d₁ s hne) hdraw, by rw [afterData_mosi, List.nil_append]⟩

end

/-- Settles O20, by the write that fails. -/
theorem emitBitStopsAtTheFailedWrite : Obligations.EmitBitStopsAtTheFailedWrite := by
  unfold Obligations.EmitBitStopsAtTheFailedWrite
  intro bit sclk mosi cs s rest hidle hcfg
  refine ⟨fun hfail => ?_, fun hfail => ?_, fun hfail => ?_⟩
  · obtain ⟨d, hstop⟩ := emitBitOn_data_failed (sclk := sclk) (mosi := mosi) (bit := bit) hfail
    obtain ⟨hexec, hresults, hframe⟩ := exec_emitBit_aborted hidle hcfg hstop
    exact ⟨_, hexec, hresults, hframe, rfl, afterFailed_self mosi (levelOfBit bit) d s,
      fun p hp => afterFailed_other (levelOfBit bit) d s hp, rfl⟩
  · obtain ⟨w, d₁, d, hstop, hedges⟩ := emitBitOn_rise_failed (sclk := sclk) (mosi := mosi) (bit := bit) hfail
    obtain ⟨hexec, hresults, hframe⟩ := exec_emitBit_aborted hidle hcfg hstop
    refine ⟨_, hexec, hresults, hframe, by simp [afterFailed, afterData], afterFailed_self sclk .high d _,
      fun hne => ?_, fun p hmosi hsclk => ?_, fun hne => ?_, fun heq => ?_⟩
    · exact (afterFailed_other .high d _ hne).trans (afterData_mosi mosi bit w d₁ s)
    · exact (afterFailed_other .high d _ hsclk).trans (afterData_other bit w d₁ s hmosi)
    · exact (congrArg (s.wire ++ ·) (hedges.off hne.symm).1).trans (List.append_nil _)
    · obtain ⟨b, hb, hw⟩ := hedges.on heq.symm
      exact ⟨b, hb, congrArg (s.wire ++ ·) hw⟩
  · obtain ⟨w₁, w₂, d₁, d₂, d, hstop, hdata, hrise⟩ :=
      emitBitOn_fall_failed (sclk := sclk) (mosi := mosi) (bit := bit) hfail
    obtain ⟨hexec, hresults, hframe⟩ := exec_emitBit_aborted hidle hcfg hstop
    refine ⟨_, hexec, hresults, hframe, by simp [afterFailed, afterRise], afterFailed_self sclk .low d _, fun hne => ?_,
      fun p hmosi hsclk => ?_, fun hne => ?_, fun heq => ?_⟩
    · exact (afterFailed_other .low d _ hne).trans (afterRise_mosi bit _ d₂ s hne)
    · exact (afterFailed_other .low d _ hsclk).trans (afterRise_other bit _ d₂ s hmosi hsclk)
    · obtain ⟨b, hb, hw⟩ := edges_of_twoPins hne hdata hrise
      exact ⟨b, hb, congrArg (s.wire ++ ·) hw⟩
    · subst heq
      obtain ⟨b, hb, rfl⟩ := hdata.on rfl
      obtain rfl := riseEdges_of_onePin hrise
      exact ⟨b, hb, (List.append_assoc ..).symm⟩

end Sys2Proof.Machine
end

section
/-! SUPPORT. The hardware engine's chunks (R93): every split is one that some answers of the chunk draws give. -/

namespace Sys2Proof.Machine

theorem Draws.takeChunk_of_cons {d : Draws} {n : Nat} {rest : List Nat} (h : d.chunk = n :: rest) :
    d.takeChunk = (n, { d with chunk := rest, index := d.index + 1 }) := by
  simp [Draws.takeChunk, h]

/-- R93: a chunk of any size from one byte to all that are left is drawn by its size less one. -/
theorem chunkSize_pred {size left : Nat} (hpos : 0 < size) (hle : size ≤ left) : chunkSize (size - 1) left = size := by
  rw [chunkSize, Nat.mod_eq_of_lt (by omega), Nat.sub_add_cancel hpos]

/-- R25, R93: the engine between two chunks: `sent` is behind the cursor, `unsent` before it, and `beyond` past the
count. -/
def Engine.between (sent unsent beyond : List Byte) : Engine where
  buf := sent ++ (unsent ++ beyond)
  nbits := 8 * (sent.length + unsent.length)
  k := 8 * sent.length

/-- The cursor moves past a chunk. -/
theorem Engine.between_advance (sent c unsent beyond : List Byte) :
    { between sent (c ++ unsent) beyond with k := (between sent (c ++ unsent) beyond).k + 8 * c.length } =
      between (sent ++ c) unsent beyond := by
  simp only [between, List.append_assoc, List.length_append, Nat.add_assoc, Nat.mul_add]

theorem hwLoop_allSent (ch : Channel) (fuel : Nat) {sent beyond : List Byte} {s : State}
    (hengine : s.engine = some (.between sent [] beyond)) : hwLoop ch fuel s = .going s := by
  cases fuel with
  | zero => rfl
  | succ fuel => simp only [hwLoop, hengine, Engine.between, List.length_nil, Nat.add_zero, Nat.lt_irrefl, if_false]

/-- R26, R93: a chunk draw of the size of `c` less one makes `c`, the bytes before the cursor, the next chunk. -/
theorem hwLoop_chunk (ch : Channel) (fuel : Nat) {sent c unsent beyond : List Byte} {answers : List Nat} {s : State}
    (hengine : s.engine = some (.between sent (c ++ unsent) beyond)) (hne : c ≠ [])
    (hdraws : s.draws.chunk = (c.length - 1) :: answers) :
    hwLoop ch (fuel + 1) s =
      (spiWrite ch c { s with draws := { s.draws with chunk := answers, index := s.draws.index + 1 } }).andThen
        fun u => hwLoop ch fuel (u.advance (8 * c.length)) := by
  have hpos := List.length_pos_of_ne_nil hne
  have hmore : 8 * sent.length < 8 * (sent.length + (c.length + unsent.length)) := by omega
  have hsize := chunkSize_pred hpos (Nat.le_add_right c.length unsent.length)
  simp only [hwLoop, hengine, Engine.between, List.length_append, List.append_assoc, if_pos hmore,
    Draws.takeChunk_of_cons hdraws, Nat.mul_div_cancel_left _ (Nat.zero_lt_succ 7), Nat.add_sub_cancel_left, hsize,
    List.drop_left, List.take_left]

/-- R93: such a chunk answered ok. -/
theorem hwLoop_chunk_ok (ch : Channel) (fuel : Nat) {sent c unsent beyond : List Byte} {answers : List Nat}
    {fails : List Bool} {s : State} (hengine : s.engine = some (.between sent (c ++ unsent) beyond)) (hne : c ≠ [])
    (hdraws : s.draws.chunk = (c.length - 1) :: answers) (hfail : s.draws.fail = false :: fails) :
    ∃ u, hwLoop ch (fuel + 1) s = hwLoop ch fuel u ∧ u.engine = some (.between (sent ++ c) unsent beyond) ∧
      u.draws.chunk = answers ∧ u.draws.fail = fails ∧ u.trace = s.trace ++ [okEvent (.spiWrite ch c)] := by
  have hwrite := spiWrite_ok (ch := ch) (bytes := c) (rest := fails)
    (s := { s with draws := { s.draws with chunk := answers, index := s.draws.index + 1 } }) hfail
  rw [hwLoop_chunk ch fuel hengine hne hdraws, hwrite, Progress.going_andThen]
  refine ⟨_, rfl, ?_, rfl, rfl, rfl⟩
  rw [← Engine.between_advance, State.advance_engine, hengine, Option.map_some]

/-- R93: the chunks not yet sent are the engine's next ones when each chunk draw is the size of its chunk less one. -/
theorem hwLoop_follows_split (ch : Channel) {chunks : List (List Byte)} (hne : ∀ c ∈ chunks, c ≠ [])
    {sent beyond : List Byte} {fuel : Nat} {s : State}
    (hengine : s.engine = some (.between sent chunks.flatten beyond)) (hfuel : chunks.flatten.length ≤ fuel)
    (hdraws : s.draws.chunk = chunks.map (·.length - 1)) (hok : s.draws.okFor chunks.length) :
    ∃ t, hwLoop ch fuel s = .going t ∧ t.trace = s.trace ++ hwEvents ch chunks := by
  induction chunks generalizing sent fuel s with
  | nil => exact ⟨s, hwLoop_allSent ch fuel hengine, (List.append_nil _).symm⟩
  | cons c chunks ih =>
    obtain ⟨hc, hchunks⟩ := List.forall_mem_cons.1 hne
    have hpos := List.length_pos_of_ne_nil hc
    rw [List.flatten_cons, List.length_append] at hfuel
    obtain ⟨fuel, rfl⟩ := Nat.exists_eq_add_one_of_ne_zero (n := fuel) (by omega)
    obtain ⟨fails, hfail, hrest⟩ := Draws.okFor_succ hok
    obtain ⟨u, hstep, hengine', hdraws', rfl, hchunk⟩ := hwLoop_chunk_ok ch fuel hengine hc hdraws hfail
    obtain ⟨t, ht, htrace⟩ := ih hchunks (fuel := fuel) hengine' (by omega) hdraws' hrest
    exact ⟨t, hstep.trans ht, by rw [htrace, hchunk, List.append_assoc]; rfl⟩

/-- R93: the hardware engine writes a split of its whole bytes when the chunk draws are the sizes of the split. -/
theorem hwEngine_follows_split {ch : Channel} {buf : List Byte} {nbits : Nat} {chunks : List (List Byte)} {s : State}
    (hfit : nbits ≤ 8 * buf.length) (hwhole : nbits % 8 = 0) (hsplit : IsSplit chunks (buf.take (nbits / 8)))
    (hdraws : s.draws.chunk = chunks.map (·.length - 1)) (hok : s.draws.okFor chunks.length) :
    ∃ t, hwEngine ch buf nbits s = .going t ∧ t.trace = s.trace ++ hwEvents ch chunks := by
  obtain ⟨hflatten, hne⟩ := hsplit
  have hlen : chunks.flatten.length = nbits / 8 := by rw [hflatten, List.length_take]; omega
  have hbuf : chunks.flatten ++ buf.drop (nbits / 8) = buf := by rw [hflatten, List.take_append_drop]
  have hcount : 8 * (0 + chunks.flatten.length) = nbits := by omega
  have hengine : (s.startEngine buf nbits).engine = some (.between [] chunks.flatten (buf.drop (nbits / 8))) := by
    rw [Engine.between, List.nil_append, List.length_nil, hbuf, hcount]
    rfl
  obtain ⟨t, ht, htrace⟩ := hwLoop_follows_split ch hne hengine hlen.le hdraws hok
  exact ⟨t.stopEngine, by rw [hwEngine, ht, Progress.going_map], htrace⟩

/-- R57, R93: `hwWriteBits` then returns Ok. -/
theorem exec_hwWriteBits_follows_split {ch : Channel} {buf : List Byte} {nbits : Nat} {chunks : List (List Byte)}
    {s : State} (hidle : s.Idle) (hcfg : s.inst = .configured (.hardware ch)) (hfit : nbits ≤ 8 * buf.length)
    (hwhole : nbits % 8 = 0) (hsplit : IsSplit chunks (buf.take (nbits / 8)))
    (hdraws : s.draws.chunk = chunks.map (·.length - 1)) (hok : s.draws.okFor chunks.length) :
    ∃ t, exec (.hwWriteBits buf nbits) s = .next t ∧ t.trace = s.trace ++ hwEvents ch chunks ∧
      t.results = s.results ++ [.ok .unit] := by
  obtain ⟨t, ht, htrace⟩ := hwEngine_follows_split hfit hwhole hsplit hdraws hok
  have hgoing : writeStream (.hardware ch) buf nbits s = .going t := ht
  have hresults := (writeStream_runs (.hardware ch) buf nbits s hfit).results
  rw [hgoing] at hresults
  refine ⟨t.ret (.ok .unit), ?_, htrace, congrArg (· ++ [Result.ok .unit]) hresults⟩
  rw [exec_hwWriteBits_hardware buf nbits hidle hcfg, checkedWrite_hardware hfit hwhole, hgoing, Progress.going_finish]

/-- Settles O25: the chunk draws answer with the sizes of the split. -/
theorem everySplitIsAdmitted : Obligations.EverySplitIsAdmitted := by
  unfold Obligations.EverySplitIsAdmitted
  intro buf nbits ch chunks s hidle hcfg hfit hwhole hsplit hok
  obtain ⟨t, hexec, htrace, hresults⟩ := exec_hwWriteBits_follows_split
    (s := { s with draws := { s.draws with chunk := chunks.map (·.length - 1) } }) hidle hcfg hfit hwhole hsplit rfl hok
  exact ⟨_, t, hexec, htrace, hresults⟩

end Sys2Proof.Machine
end

section
/-! SUPPORT. Transmissions that return Ok, and an `update` after one of them on the software engine (R92, R117). -/

namespace Sys2Proof.Machine

/-- R81, R101: an emission returns Ok only when every call was answered ok. -/
theorem Progress.going_of_emitted {p : Progress} {next : Option Emission}
    (h : (p.emitted next).results = p.state.results ++ [.ok .unit]) : ∃ u, p = .going u := by
  cases p with
  | going u => exact ⟨u, rfl⟩
  | aborted u =>
    simp only [Progress.emitted, raiseTransport, State.ret_results, State.setEmission_results, Progress.state_aborted,
      List.append_cancel_left_eq, List.cons.injEq, reduceCtorEq, false_and] at h

/-- R81, R101: an instruction that hands bits to the writer and returns Ok ran the configured engine on all of them. -/
theorem exec_sends_ok {i : Instr} {buf : List Byte} {nbits : Nat} {cfg : TransmitterConfig} {s t : State}
    (hcfg : s.inst = .configured cfg) (hsends : sends i = some (buf, nbits)) (h : exec i s = .next t)
    (hok : t.results = s.results ++ [.ok .unit]) :
    ∃ u next, writeStream cfg buf nbits s = .going u ∧ t = (u.setEmission next).ret (.ok .unit) := by
  obtain ⟨-, ⟨c, rfl⟩ | ⟨cfg', next, hcfg', hfit, -, -, -, rfl⟩⟩ := exec_sends hsends h
  · simp at hok
  · obtain rfl : cfg = cfg' := by
      rw [hcfg] at hcfg'
      exact Inst.configured.inj hcfg'
    rw [← (writeStream_runs cfg buf nbits s hfit).results] at hok
    obtain ⟨u, hu⟩ := Progress.going_of_emitted hok
    exact ⟨u, next, hu, by rw [hu]; rfl⟩

/-- R81, R87: what such an instruction leaves on the software engine. -/
theorem exec_sends_ok_software {i : Instr} {buf : List Byte} {nbits : Nat} {sclk mosi : Pin} {cs : Option Pin}
    {s t : State} (hcfg : s.inst = .configured (.software sclk mosi cs)) (hsends : sends i = some (buf, nbits))
    (h : exec i s = .next t) (hok : t.results = s.results ++ [.ok .unit]) :
    SwSent sclk mosi (bitsOf buf nbits) s t := by
  obtain ⟨u, next, hu, rfl⟩ := exec_sends_ok hcfg hsends h hok
  rcases swEngine_cases sclk mosi buf nbits s with ⟨v, hv, hsent⟩ | ⟨v, hv, -⟩
  · obtain rfl : u = v := Progress.going.inj (hu.symm.trans hv)
    exact { hsent with }
  · cases hu.symm.trans hv

/-- R78, R87: what an `update` that returned Ok left on the software engine. -/
theorem exec_update_ok_software {frames : List FrameArg} {sclk mosi : Pin} {cs : Option Pin} {s t : State}
    (hcfg : s.inst = .configured (.software sclk mosi cs)) (h : exec (.update (some frames)) s = .next t)
    (hok : t.results = s.results ++ [.ok .unit]) :
    SwSent sclk mosi (bitsOf (stream (frames.map frameValue)) (8 * (stream (frames.map frameValue)).length)) s t := by
  rw [length_stream_frameValue]
  exact exec_sends_ok_software hcfg rfl h hok

/-- R22: `update` does not configure. -/
theorem exec_update_inst {frames : Option (List FrameArg)} {s t : State} (h : exec (.update frames) s = .next t) :
    t.inst = s.inst := by
  obtain hinst | ⟨_, _, _, ⟨_, hinit⟩ | ⟨_, _, _, hinit⟩⟩ := onlyASuccessfulInitChangesInst _ s t h
  · exact hinst
  · cases hinit
  · cases hinit

/-- R52: a stream is never without bits. -/
theorem bitsOf_stream_ne_nil (fs : List LedFrame) : bitsOf (stream fs) (8 * (stream fs).length) ≠ [] := by
  have hlen := length_stream fs
  rw [bitsOf, ne_eq, List.map_eq_nil_iff, List.range_eq_nil]
  omega

/-- Settles O35: the first `update` leaves the clock LOW, from where each bit of the second has its rising edge. -/
theorem laterUpdatesAreFullyClocked : Obligations.LaterUpdatesAreFullyClocked := by
  unfold Obligations.LaterUpdatesAreFullyClocked
  intro first later sclk mosi cs s t u _ hcfg hpins hfirst hfirstOk hlater hlaterOk
  have hlow : t.level sclk = some .low :=
    (exec_update_ok_software hcfg hfirst hfirstOk).clockLow (bitsOf_stream_ne_nil _)
  have hcfg' : t.inst = .configured (.software sclk mosi cs) := (exec_update_inst hfirst).trans hcfg
  exact ⟨_, (exec_update_ok_software hcfg' hlater hlaterOk).wireLow hpins hlow, wireBits_pulses ..⟩

end Sys2Proof.Machine
end

section
/-! SUPPORT. Rejected operations: InvalidArgument comes before any call, with the label of the first bad operand. -/

namespace Sys2Proof.Machine

/-- R96, R97: once its calls are made, an operation returns Ok or TransportError. -/
theorem Runs.finish_not_invalidArgument {C : Call → Prop} {s : State} {p : Progress} (h : Runs C s p) (v : OkValue)
    (cause : Cause) : (p.finish v).results ≠ s.results ++ [.invalidArgument cause] := by
  rw [← h.results]
  rcases p.finish_results v with hresults | hresults
  · simp [hresults]
  · simp [hresults]

/-- R81, R97: once its calls are made, an emission returns Ok or TransportError. -/
theorem Runs.emitted_not_invalidArgument {C : Call → Prop} {s : State} {p : Progress} (h : Runs C s p)
    (next : Option Emission) (cause : Cause) : (p.emitted next).results ≠ s.results ++ [.invalidArgument cause] := by
  rw [← h.results]
  cases p with
  | going u => simp [Progress.emitted]
  | aborted u => simp [Progress.emitted, raiseTransport]

/-- Settles O43, by the ways an instruction comes to a next state: only a rejection, which makes no call, returns
InvalidArgument. -/
theorem invalidArgumentChangesNothing : Obligations.InvalidArgumentChangesNothing := by
  unfold Obligations.InvalidArgumentChangesNothing
  intro i s t cause h hresults
  cases exec_effect h with
  | rejected c _ result =>
    subst result
    obtain rfl : c = cause := by simpa using hresults
    rfl
  | made f _ result => simp [result] at hresults
  | wrote cfg p _ _ _ runs _ result => exact absurd (result ▸ hresults) (runs.finish_not_invalidArgument _ cause)
  | emitted cfg bytes next _ _ _ runs _ result =>
    exact absurd (result ▸ hresults) (runs.emitted_not_invalidArgument next cause)
  | setUpHardware c ch _ _ _ result =>
    exact absurd (result ▸ hresults) ((spiSetup_runs ch _ s).configure_not_invalidArgument _ cause)
  | setUpSoftware a b c sclk mosi cs _ _ _ _ _ _ result =>
    exact absurd (result ▸ hresults) ((initCalls_runs sclk mosi cs s).configure_not_invalidArgument _ cause)

/-- Settles O14: the operands before the bad one are legal, so `initSoftware` comes to the bad one's own check. -/
theorem initSoftwareLabelsTheFirstBadPin : Obligations.InitSoftwareLabelsTheFirstBadPin := by
  unfold Obligations.InitSoftwareLabelsTheFirstBadPin
  intro a b c s hidle hready
  refine ⟨exec_initSoftware_badSclk hidle hready, fun ha hb => ?_, fun ha hb hc => ?_⟩
  · obtain ⟨sclk, hsclk, -⟩ := pinOf_some ha
    exact exec_initSoftware_badMosi hidle hready hsclk hb
  · obtain ⟨sclk, hsclk, -⟩ := pinOf_some ha
    obtain ⟨mosi, hmosi, -⟩ := pinOf_some hb
    exact exec_initSoftware_badCs hidle hready hsclk hmosi hc

end Sys2Proof.Machine
end

section
/-! SUPPORT. Hazards: the first bit from a clock that is not LOW (R117, R118), and `initSoftware` before the GPIO
library setup (R115). -/

namespace Sys2Proof.Machine

/-! ### The first bit of an update -/

/-- R91: from a HIGH clock the first write on the clock pin makes no edge, and the falling edge after it carries
nothing. -/
theorem wireBits_falling_pulses (sclk : Pin) (bits : List Bool) :
    wireBits ([.falling sclk] ++ pulses sclk bits) = bits.map fun b => some (levelOfBit b) :=
  wireBits_pulses sclk bits

/-- R91, R117, R118: the bits on the wire by the clock level that the first of them finds. -/
theorem SwSent.exists_wireBits {sclk mosi : Pin} {bits : List Bool} {s t : State} (h : SwSent sclk mosi bits s t)
    (hpins : sclk ≠ mosi) (hbits : bits ≠ []) :
    ∃ w, t.wire = s.wire ++ w ∧
      (s.level sclk = some .high → wireBits w = (bits.map fun b => some (levelOfBit b)).drop 1) ∧
      (s.level sclk = none → wireBits w = (bits.map fun b => some (levelOfBit b)) ∨
        wireBits w = (bits.map fun b => some (levelOfBit b)).drop 1) := by
  obtain ⟨bit, rest, rfl⟩ := List.exists_cons_of_ne_nil hbits
  have hlost := wireBits_falling_pulses sclk rest
  cases hlevel : s.level sclk with
  | some level =>
    cases level with
    | low => exact ⟨_, h.wireLow hpins hlevel, by simp⟩
    | high =>
      exact ⟨_, (h.wireHigh hpins hlevel bit rest rfl).trans (List.append_assoc ..), fun _ => hlost, by simp⟩
  | none =>
    rcases h.wireUnknown hpins hlevel bit rest rfl with hwire | hwire
    · exact ⟨_, hwire, by simp, fun _ => .inl (wireBits_pulses ..)⟩
    · exact ⟨_, hwire.trans (List.append_assoc ..), by simp, fun _ => .inr hlost⟩

/-- Settles O34: the `update` returns Ok, so it sent the stream, whose first bit needs a LOW clock for its rising edge
(`SwSent.exists_wireBits`). -/
theorem firstBitIsLostOnAHighClock : Obligations.FirstBitIsLostOnAHighClock := by
  unfold Obligations.FirstBitIsLostOnAHighClock
  intro frames sclk mosi cs s hne hidle hcfg hpins hmax hok
  obtain ⟨t, hexec, hreturn, -⟩ := softwareUpdateSendsTheStream frames sclk mosi cs s hidle hcfg hne hmax hok
  have hsent := exec_update_ok_software hcfg hexec hreturn.results
  obtain ⟨w, hwire, hhigh, hunknown⟩ := hsent.exists_wireBits hpins (bitsOf_stream_ne_nil _)
  exact ⟨t, w, _, hexec, hwire, rfl, hhigh, hunknown⟩

/-! ### initSoftware before the GPIO library setup -/

/-- Settles O18: `initSoftware` asks for the setup before it looks at its operands. -/
theorem initSoftwareNeedsTheGpioSetup : Obligations.InitSoftwareNeedsTheGpioSetup := by
  unfold Obligations.InitSoftwareNeedsTheGpioSetup
  intro a b c s hidle hunready
  simp only [exec, execInitSoftware, whenIdle_idle hidle, if_neg (Bool.eq_false_iff.1 hunready)]

end Sys2Proof.Machine
end
